-- ==== Sys2Proof/Word.lean ====
section
/-! DEFINITION. The word types of the block (00_scope.md rule R10, 30_encoding.md rule R68): every value is unsigned and
arithmetic on an N-bit word wraps modulo 2^N (00_scope.md rule R15), which is `BitVec`'s own arithmetic. -/

namespace Sys2Proof

/-- Four bits: the value of one hex digit (10_state.md rule R27). -/
abbrev Nybble := BitVec 4

/-- Eight bits: an input or output character, a data byte, a length (00_scope.md rule R10). -/
abbrev Byte := BitVec 8

/-- Sixteen bits: a segment, a line's ADDR field (00_scope.md rule R10, 30_encoding.md rule R57). -/
abbrev Half := BitVec 16

/-- Thirty-two bits: an address of the target space (20_memory.md rule R40). -/
abbrev Addr := BitVec 32

/-- A command word (30_encoding.md rule R68). -/
abbrev CmdWord := BitVec 64

end Sys2Proof
end

