-- ==== Sys2Proof/Syntax.lean ====
section
/-! DEFINITION. The instructions of the block: one constructor per row of spec/opcode_table.json (30_encoding.md rule R69 for
the eleven commands, rule R62 for the six record types), the record types, the character classes, and what arrives on
the command port. -/

namespace Sys2Proof

/-- The six record types of 30_encoding.md rule R62. RTYPE's values 6 and 7 are never written (10_state.md rule R26) and are left
out (93_implementation_defined.md I14; notes/assumptions/12.md). -/
inductive RecordType where
  | data
  | endOfFile
  | extendedSegmentAddress
  | startSegmentAddress
  | extendedLinearAddress
  | startLinearAddress
deriving DecidableEq, Repr

/-- The four classes of an input byte, 30_encoding.md rule R65. -/
inductive CharClass where
  | start
  | term
  | hex
  | other
deriving DecidableEq, Repr

/-- One constructor per row of spec/opcode_table.json. The first eleven are the commands (30_encoding.md rule R69), with the
operand fields each uses. The last six are the record types (rule R62): an IHEX line with its ADDR field, its data bytes and its
CHECKSUM byte; LEN is the number of data bytes (rule R57). -/
inductive Instr where
  | beginRead
  | beginReadAtAddress (a : Addr)
  | beginReadAtSegment (sg : Half)
  | readByte (c : Byte)
  | endRead
  | beginWrite
  | writeAtAddress (a : Addr)
  | writeAtSegment (sg : Half) (a : Addr)
  | writeByte (d : Byte)
  | setOutputLineLength (n : Byte)
  | endWrite
  | recordData (addr : Half) (data : List Byte) (cks : Byte)
  | recordEndOfFile (addr : Half) (data : List Byte) (cks : Byte)
  | recordExtendedSegmentAddress (addr : Half) (data : List Byte) (cks : Byte)
  | recordStartSegmentAddress (addr : Half) (data : List Byte) (cks : Byte)
  | recordExtendedLinearAddress (addr : Half) (data : List Byte) (cks : Byte)
  | recordStartLinearAddress (addr : Half) (data : List Byte) (cks : Byte)
deriving DecidableEq, Repr

/-- What the host puts on the command port: a 64-bit command word (00_scope.md rule R11, 30_encoding.md rule R68), or the
pseudo-command READ_LINE with its text's ASCII bytes (30_encoding.md rule R72; notes/assumptions/8.md). -/
inductive HostInput where
  | word (w : CmdWord)
  | line (text : List Byte)
deriving DecidableEq, Repr

end Sys2Proof
end

