-- ==== Sys2Proof/WellFormed.lean ====
section
/-! DEFINITION. Which terms of `Instr` an encoding exists for. The commands' operands have their field's width (30_encoding.md
rule R68), so every command is well formed; a record's LEN field is one byte (rule R57, rule R60). -/

namespace Sys2Proof

/-- A record's data fits its LEN field: LEN is 0..255 on the wire (30_encoding.md rule R60). -/
def dataFits (data : List Byte) : Bool := data.length ≤ 255

/-- The check of an instruction as syntax. -/
def WellFormed : Instr → Bool
  | .beginRead => true
  | .beginReadAtAddress _ => true
  | .beginReadAtSegment _ => true
  | .readByte _ => true
  | .endRead => true
  | .beginWrite => true
  | .writeAtAddress _ => true
  | .writeAtSegment _ _ => true
  | .writeByte _ => true
  | .setOutputLineLength _ => true
  | .endWrite => true
  | .recordData _ data _ => dataFits data
  | .recordEndOfFile _ data _ => dataFits data
  | .recordExtendedSegmentAddress _ data _ => dataFits data
  | .recordStartSegmentAddress _ data _ => dataFits data
  | .recordExtendedLinearAddress _ data _ => dataFits data
  | .recordStartLinearAddress _ data _ => dataFits data

end Sys2Proof
end

