-- ==== Sys2Proof/Decode.lean ====
section
/-! DEFINITION. The two encodings of 30_encoding.md: the 64-bit command word (rules R68 to R70) and the IHEX line (rules R57 to
R67). The decoder is total and rejects by name; the encoder is written from the same tables. -/

namespace Sys2Proof

/-! ## Command words -/

/-- OP, bits [7:0] (30_encoding.md rule R68). -/
def opField (w : CmdWord) : Byte := w.extractLsb' 0 8

/-- B, bits [15:8]. -/
def bField (w : CmdWord) : Byte := w.extractLsb' 8 8

/-- S, bits [31:16]. -/
def sField (w : CmdWord) : Half := w.extractLsb' 16 16

/-- A, bits [63:32]. -/
def aField (w : CmdWord) : Addr := w.extractLsb' 32 32

/-- The word AAAAAAAA SSSS BB OO (30_encoding.md rule R68). -/
def commandWord (a : Addr) (sg : Half) (b op : Byte) : CmdWord := a ++ sg ++ b ++ op

/-- Why a word names no command: CV7 and CV8 of 60_exceptions.md rule R107. -/
inductive CommandError where
  | reservedOpcode
  | reservedField
deriving DecidableEq, Repr

/-- Why a READ_LINE text is not one whole record in the encoder's own spelling: no `:` first, digits that are not upper-case hex pairs,
a number of bytes other than LEN + 5, an unknown TYPE. Such a text is no error of the block, which reads it character by character
(`Machine.fetchLine`). -/
inductive LineError where
  | start
  | digits
  | length
  | type
deriving DecidableEq, Repr

/-- Why an input names no instruction. -/
inductive DecodeError where
  | command (e : CommandError)
  | line (e : LineError)
deriving DecidableEq, Repr

/-- A command whose unused fields must be zero (30_encoding.md rule R70, CV8). -/
def needZero (unusedAreZero : Bool) (i : Instr) : Except CommandError Instr :=
  if unusedAreZero then .ok i else .error .reservedField

/-- The command of a word, 30_encoding.md rule R69; every other OP is reserved (rule R70, CV7). CV7 comes before CV8
(60_exceptions.md rule R109). -/
def decodeCommand (w : CmdWord) : Except CommandError Instr :=
  match opField w with
  | 0x01#8 => needZero (bField w == 0 && sField w == 0 && aField w == 0) .beginRead
  | 0x02#8 => needZero (bField w == 0 && sField w == 0) (.beginReadAtAddress (aField w))
  | 0x03#8 => needZero (bField w == 0 && aField w == 0) (.beginReadAtSegment (sField w))
  | 0x04#8 => needZero (sField w == 0 && aField w == 0) (.readByte (bField w))
  | 0x05#8 => needZero (bField w == 0 && sField w == 0 && aField w == 0) .endRead
  | 0x11#8 => needZero (bField w == 0 && sField w == 0 && aField w == 0) .beginWrite
  | 0x12#8 => needZero (bField w == 0 && sField w == 0) (.writeAtAddress (aField w))
  | 0x13#8 => needZero (bField w == 0) (.writeAtSegment (sField w) (aField w))
  | 0x14#8 => needZero (sField w == 0 && aField w == 0) (.writeByte (bField w))
  | 0x15#8 => needZero (sField w == 0 && aField w == 0) (.setOutputLineLength (bField w))
  | 0x16#8 => needZero (bField w == 0 && sField w == 0 && aField w == 0) .endWrite
  | _ => .error .reservedOpcode

/-! ## Hex digits and bytes -/

/-- The upper-case hex digit character of a nybble (30_encoding.md rule R59, ASCII codes of 00_scope.md rule R16). -/
def hexDigit (v : Nybble) : Byte :=
  if v.toNat < 10 then 0x30 + v.setWidth 8 else 0x37 + v.setWidth 8

/-- `hex2(b)`: two characters, upper case, high nybble first (00_scope.md rule R15, 20_memory.md rule R44). -/
def hex2 (b : Byte) : List Byte := [hexDigit (b.extractLsb' 4 4), hexDigit (b.extractLsb' 0 4)]

/-- The character is a hex digit, either case (30_encoding.md rule R65). -/
def isHex (c : Byte) : Bool :=
  (0x30 ≤ c.toNat && c.toNat ≤ 0x39) || (0x41 ≤ c.toNat && c.toNat ≤ 0x46) || (0x61 ≤ c.toNat && c.toNat ≤ 0x66)

/-- `hexval(c)` for a byte of class HEX (30_encoding.md rule R66). -/
def hexval (c : Byte) : Nybble :=
  if c.toNat ≤ 0x39 then (c - 0x30).setWidth 4
  else if c.toNat ≤ 0x46 then (c - 0x41 + 10).setWidth 4
  else (c - 0x61 + 10).setWidth 4

/-- A wire byte from its two digits: {high, low} (30_encoding.md rule R67). -/
def joinNybbles (hi lo : Nybble) : Byte := hi ++ lo

/-- Bits [15:8] and [7:0] of a 16-bit field, in wire order: big-endian (20_memory.md rules R45, R46). -/
def halfBytes (h : Half) : List Byte := [h.extractLsb' 8 8, h.extractLsb' 0 8]

/-- The 16-bit value {first byte, second byte} (30_encoding.md rule R67). -/
def joinBytes (hi lo : Byte) : Half := hi ++ lo

/-! ## The IHEX line -/

/-- The TYPE byte of a record type (30_encoding.md rule R62). -/
def RecordType.typeByte : RecordType → Byte
  | .data => 0x00
  | .endOfFile => 0x01
  | .extendedSegmentAddress => 0x02
  | .startSegmentAddress => 0x03
  | .extendedLinearAddress => 0x04
  | .startLinearAddress => 0x05

/-- The record type a TYPE byte names; 0x06..0xFF are unknown types (30_encoding.md rule R62). -/
def recordTypeOf (b : Byte) : Option RecordType :=
  match b with
  | 0x00#8 => some .data
  | 0x01#8 => some .endOfFile
  | 0x02#8 => some .extendedSegmentAddress
  | 0x03#8 => some .startSegmentAddress
  | 0x04#8 => some .extendedLinearAddress
  | 0x05#8 => some .startLinearAddress
  | _ => none

/-- The sum modulo 256 of a list of bytes (30_encoding.md rule R58). -/
def byteSum (bs : List Byte) : Byte := bs.foldr (· + ·) 0

/-- The bytes of a line before its CHECKSUM: LEN, ADDR, TYPE, DATA (30_encoding.md rule R57). -/
def recordBytes (t : Byte) (addr : Half) (data : List Byte) : List Byte :=
  BitVec.ofNat 8 data.length :: halfBytes addr ++ t :: data

/-- The CHECKSUM of a line: the two's complement of the sum of all preceding bytes (30_encoding.md rule R58). -/
def checksum (t : Byte) (addr : Half) (data : List Byte) : Byte := 0 - byteSum (recordBytes t addr data)

/-- The characters of a line before its terminator: `:` and two upper-case hex digits for each byte, CHECKSUM last (30_encoding.md
rules R57, R59). -/
def lineText (t : Byte) (addr : Half) (data : List Byte) (cks : Byte) : List Byte :=
  0x3A :: (recordBytes t addr data ++ [cks]).flatMap hex2

/-- A line of a record type as an instruction. -/
def recordInstr (t : RecordType) (addr : Half) (data : List Byte) (cks : Byte) : Instr :=
  match t with
  | .data => .recordData addr data cks
  | .endOfFile => .recordEndOfFile addr data cks
  | .extendedSegmentAddress => .recordExtendedSegmentAddress addr data cks
  | .startSegmentAddress => .recordStartSegmentAddress addr data cks
  | .extendedLinearAddress => .recordExtendedLinearAddress addr data cks
  | .startLinearAddress => .recordStartLinearAddress addr data cks

/-- The value of an upper-case hex digit, the only ones the encoder emits (30_encoding.md rule R59). -/
def upperHexval (c : Byte) : Option Nybble :=
  if isHex c && c.toNat ≤ 0x46 then some (hexval c) else none

/-- The bytes that pairs of upper-case digits spell. -/
def hexBytes : List Byte → Option (List Byte)
  | [] => some []
  | [_] => none
  | c1 :: c2 :: rest =>
    match upperHexval c1, upperHexval c2, hexBytes rest with
    | some hi, some lo, some bs => some (joinNybbles hi lo :: bs)
    | _, _, _ => none

/-- The record that a line's bytes spell: LEN data bytes and one CHECKSUM byte after the TYPE byte, no more and no fewer
(30_encoding.md rules R57, R61, R62). -/
def decodeRecord : List Byte → Except LineError Instr
  | len :: ahi :: alo :: t :: rest =>
    if rest.length = len.toNat + 1 then
      match recordTypeOf t with
      | some rt => .ok (recordInstr rt (joinBytes ahi alo) (rest.take len.toNat) (rest.getD len.toNat 0))
      | none => .error .type
    else .error .length
  | _ => .error .length

/-- The record that a READ_LINE text spells, in the encoder's own spelling (upper case, no other character). -/
def decodeLine : List Byte → Except LineError Instr
  | [] => .error .start
  | c :: digits =>
    if c = 0x3A then
      match hexBytes digits with
      | some bs => decodeRecord bs
      | none => .error .digits
    else .error .start

/-- The instruction that an input of the command port holds. -/
def decode : HostInput → Except DecodeError Instr
  | .word w => (decodeCommand w).mapError .command
  | .line text => (decodeLine text).mapError .line

/-! ## The encoder -/

/-- The command word of a command (30_encoding.md rule R69), the line of a record (rule R57). -/
def encode : Instr → HostInput
  | .beginRead => .word (commandWord 0 0 0 0x01)
  | .beginReadAtAddress a => .word (commandWord a 0 0 0x02)
  | .beginReadAtSegment sg => .word (commandWord 0 sg 0 0x03)
  | .readByte c => .word (commandWord 0 0 c 0x04)
  | .endRead => .word (commandWord 0 0 0 0x05)
  | .beginWrite => .word (commandWord 0 0 0 0x11)
  | .writeAtAddress a => .word (commandWord a 0 0 0x12)
  | .writeAtSegment sg a => .word (commandWord a sg 0 0x13)
  | .writeByte d => .word (commandWord 0 0 d 0x14)
  | .setOutputLineLength n => .word (commandWord 0 0 n 0x15)
  | .endWrite => .word (commandWord 0 0 0 0x16)
  | .recordData addr data cks => .line (lineText (RecordType.typeByte .data) addr data cks)
  | .recordEndOfFile addr data cks => .line (lineText (RecordType.typeByte .endOfFile) addr data cks)
  | .recordExtendedSegmentAddress addr data cks => .line (lineText (RecordType.typeByte .extendedSegmentAddress) addr data cks)
  | .recordStartSegmentAddress addr data cks => .line (lineText (RecordType.typeByte .startSegmentAddress) addr data cks)
  | .recordExtendedLinearAddress addr data cks => .line (lineText (RecordType.typeByte .extendedLinearAddress) addr data cks)
  | .recordStartLinearAddress addr data cks => .line (lineText (RecordType.typeByte .startLinearAddress) addr data cks)

/-! ## Words as spec/opcode_table.json numbers them -/

/-- The input that holds the instruction whose bits are `w`. A row of format IHEX_LINE_TYPE has eight bits, the line's TYPE byte;
the line's other bits (LEN, ADDR, CHECKSUM) are zero. Every other row is a command word (notes/assumptions/9.md). -/
def tableInput (nbits w : Nat) : HostInput :=
  if nbits ≤ 8 then .line (lineText (BitVec.ofNat 8 w) 0 [] 0) else .word (BitVec.ofNat 64 w)

/-- The instruction the decoder reads from an instruction whose bits are `w`. -/
def decodeTableWord (nbits w : Nat) : Option Instr :=
  match decode (tableInput nbits w) with
  | .ok i => some i
  | .error _ => none

end Sys2Proof
end

