-- ==== Sys2Proof/Config.lean ====
section
/-! DEFINITION. The implementation parameters of 00_scope.md section 3 and the one free value of the block, the sink's answer.
"Each parameter is a value a model takes as an argument": the parameters stand in `Config`, which the state carries and no
command writes (notes/assumptions/1.md). -/

namespace Sys2Proof

/-- A byte of NEWLINE: 0x0A or 0x0D (00_scope.md rule R8). -/
inductive NewlineByte where
  | lf
  | cr
deriving DecidableEq, Repr

/-- NEWLINE: one or two such bytes (00_scope.md rule R8). -/
inductive Newline where
  | one (a : NewlineByte)
  | two (a b : NewlineByte)
deriving DecidableEq, Repr

/-- The parameters LINE_MAX, NEWLINE and STRICT_TRUNCATION (00_scope.md rules R6, R8, R9). LINE_MAX is 1..255: `Config.wf`. -/
structure Config where
  lineMax : Byte
  newline : Newline
  strictTruncation : Bool
deriving DecidableEq, Repr

/-- LINE_MAX is an integer in 1..255 (00_scope.md rule R6); eight bits already bound it by 255. -/
def Config.wf (c : Config) : Bool := 1 ≤ c.lineMax.toNat

/-- The reference configuration (00_scope.md rules R6, R8, R9). -/
def Config.reference : Config := { lineMax := 255, newline := .one .lf, strictTruncation := false }

/-- The sink's answer is "a free input (a draw), under no law" (00_scope.md rule R15; 93_implementation_defined.md I12): a value
with no body, one for each draw, so that nothing can be proved of it (notes/assumptions/4.md). -/
opaque Config.freeAnswer : Nat → Bool

end Sys2Proof
end

