-- ==== Sys2Proof/Machine/State.lean ====
section
/-! DEFINITION. The codec state (10_state.md rule R18), the ports' inputs and outputs (00_scope.md rules R11 to R13), the reasons
a step can stop, and the state at power-on (70_reset_and_hazards.md rules R121, R122). -/

namespace Sys2Proof.Machine

/-- The operating mode (10_state.md rule R19). -/
inductive Mode where
  | uninit
  | read
  | write
  | ended
deriving DecidableEq, Repr

/-- The decoder's parse sub-state (10_state.md rule R25). The values 11..15 are never written and are left out
(93_implementation_defined.md I14; notes/assumptions/12.md). -/
inductive ParseState where
  | waitForStart
  | countHigh
  | countLow
  | addrMsbHigh
  | addrMsbLow
  | addrLsbHigh
  | addrLsbLow
  | recordTypeHigh
  | recordTypeLow
  | dataHigh
  | dataLow
deriving DecidableEq, Repr

/-- The event on the sink port (00_scope.md rule R12). -/
structure SinkEvent where
  rtype : RecordType
  err : Bool
  address : Addr
  segment : Half
  linear : Addr
  declared : Byte
  length : Byte
  data : List Byte
deriving DecidableEq, Repr

/-- An output event of the block: a SinkEvent (00_scope.md rule R12) or a FlushEvent with its bytes (rule R13). -/
inductive PortEvent where
  | sink (e : SinkEvent)
  | flush (bytes : List Byte)
deriving DecidableEq, Repr

/-- What the sink device does while a SinkEvent is open: it answers its bit (60_exceptions.md rule R115), or it breaks its duty and
issues a command word to the same instance (rule R107, CV6). -/
inductive SinkInput where
  | answer (accept : Bool)
  | command (w : CmdWord)
deriving DecidableEq, Repr

/-- What the flush device does while a FlushEvent is open: it takes the bytes (60_exceptions.md rule R116), or it breaks its duty and
issues a command word to the same instance (rule R107, CV6). -/
inductive FlushInput where
  | taken
  | command (w : CmdWord)
deriving DecidableEq, Repr

/-- Why the machine stops with a fault. The block has no fault of its own (60_exceptions.md rule R105): both constructors are the
model's, for an index that does not exist, in states that break 10_state.md rule R38 and that no run reaches. Both are safe
(notes/assumptions/10.md). -/
inductive Fault where
  /-- Raised by `writeData`, `complete` and `flushLine` on an index of DATA outside 0..LINE_MAX. Safe. -/
  | dataIndex
  /-- Raised by `render` for more data bytes than the encoder's rules ever give it: more than LINE_MAX and more than the two of an
  extended-address record. Their line would write SCRATCH at an index that does not exist. Safe. -/
  | scratchIndex
deriving DecidableEq, Repr

/-- Why a command is refused: the caller-contract violations of 60_exceptions.md rule R107. "A command that meets a CV condition has
no meaning" (rule R108). All are safe (notes/assumptions/14.md). -/
inductive Refusal where
  /-- Raised by an arm of `exec` whose instruction has no meaning yet. Safe. -/
  | notModelled (mnemonic : String)
  /-- CV1: a command other than BEGIN_* while MODE = UNINIT. Raised by `readCheck` and `writeCheck`. Safe. -/
  | notInitialised
  /-- CV2: a read-mode command while MODE is WRITE or ENDED, a write-mode command while MODE = READ. Raised by `readCheck` and
  `writeCheck`. Safe. -/
  | wrongMode
  /-- CV3: a write-mode command while MODE = ENDED. Raised by `writeCheck`. Safe. -/
  | writeAfterEnd
  /-- CV4: SET_OUTPUT_LINE_LENGTH while LENSET_OK = 0. Raised by `execSetOutputLineLength`. Safe. -/
  | lineLengthMisplaced
  /-- CV5: segmented and linear addressing in one stream. Raised by `emitElaIfNeeded` and `execWriteAtSegment`. Safe. -/
  | segmentLinearMix
  /-- CV6: a command while an event is open. Raised by every command's check, by `fetch`, and by `complete` and `render` when the
  device issues a command. Safe. -/
  | reentrantCommand
  /-- CV7: a word whose OP names no command. Raised by `fetch`. Safe. -/
  | reservedOpcode
  /-- CV8: a nonzero field that the opcode does not use. Raised by `fetch`. Safe. -/
  | reservedField
deriving DecidableEq, Repr

/-- A byte memory of the block: the cells whose byte is not what an unlisted index reads as, by rising index. -/
abbrev Memory := List Host.Cell

/-- The codec state with its parameters and its ports. The first sixteen fields are the registers of 10_state.md rule R18, in its
order. -/
structure State where
  /-- MODE, rule R19. -/
  mode : Mode
  /-- ADDRESS, rule R20. -/
  address : Addr
  /-- SEGMENT, rule R21. -/
  segment : Half
  /-- LINE_LENGTH, rule R22. -/
  lineLength : Byte
  /-- LENGTH, rule R23. -/
  length : Byte
  /-- DATA[0..LINE_MAX], rule R24. -/
  data : Memory
  /-- RSTATE, rule R25. -/
  rstate : ParseState
  /-- RTYPE, rule R26. -/
  rtype : RecordType
  /-- NYB, rule R27. -/
  nyb : Nybble
  /-- SUM, rule R28. -/
  sum : Byte
  /-- ELA_HIGH, rule R29. -/
  elaHigh : Half
  /-- SEG_USED, rule R30. -/
  segUsed : Bool
  /-- ELA_USED, rule R31. -/
  elaUsed : Bool
  /-- LENSET_OK, rule R32. -/
  lensetOk : Bool
  /-- SCRATCH[0..LINE_BUF_SIZE-1], rule R33. -/
  scratch : Memory
  /-- EVT_OPEN, rule R34. -/
  evtOpen : Bool
  /-- The parameters (00_scope.md rules R6 to R9); no command writes them. -/
  cfg : Config
  /-- The commands issued and not yet taken (00_scope.md rule R11). -/
  input : List HostInput
  /-- What the sink device does during the next SinkEvents; past its end the answers are free (notes/assumptions/4.md). -/
  sinkInputs : List SinkInput
  /-- The model's own counter of free sink answers taken (notes/assumptions/4.md). -/
  sinkDraws : Nat
  /-- What the flush device does during the next FlushEvents; past its end it takes every event (notes/assumptions/13.md). -/
  flushInputs : List FlushInput
  /-- The events emitted so far, oldest first (20_memory.md rule R53, 70_reset_and_hazards.md rule R124). -/
  events : List PortEvent
deriving DecidableEq, Repr

/-- Power-on (70_reset_and_hazards.md rule R121): MODE = UNINIT and EVT_OPEN = 0. Every other register's value is the model's choice
(notes/assumptions/2.md, notes/assumptions/3.md), the parameters are the reference configuration (notes/assumptions/1.md), and
the host has issued nothing (notes/assumptions/7.md). -/
def State.reset : State where
  mode := .uninit
  address := 0
  segment := 0
  lineLength := 0
  length := 0
  data := []
  rstate := .waitForStart
  rtype := .data
  nyb := 0
  sum := 0
  elaHigh := 0
  segUsed := false
  elaUsed := false
  lensetOk := false
  scratch := []
  evtOpen := false
  cfg := Config.reference
  input := []
  sinkInputs := []
  sinkDraws := 0
  flushInputs := []
  events := []

end Sys2Proof.Machine
end

