-- ==== Sys2Proof/Machine/Operands.lean ====
section
/-! DEFINITION. Operand forms and derived values: the class of an input character (30_encoding.md rule R65), the numeric encodings of
the named registers (10_state.md rules R19, R25, R26), the derived parameters (00_scope.md rules R7, R8, R10), LINEAR (20_memory.md
rule R41) and the host's status read (00_scope.md rule R14). -/

namespace Sys2Proof.Machine

/-! ## Character classes -/

/-- The class of an input byte: the first test that matches, in the order of 30_encoding.md rule R65. -/
def charClass (c : Byte) : CharClass :=
  if c = 0x3A then .start
  else if c = 0x0A || c = 0x0D || c = 0x00 then .term
  else if isHex c then .hex
  else .other

/-! ## Encodings of the named registers -/

/-- MODE's two bits (10_state.md rule R19). -/
def Mode.code : Mode → BitVec 2
  | .uninit => 0
  | .read => 1
  | .write => 2
  | .ended => 3

/-- RSTATE's four bits (10_state.md rule R25). -/
def ParseState.code : ParseState → BitVec 4
  | .waitForStart => 0
  | .countHigh => 1
  | .countLow => 2
  | .addrMsbHigh => 3
  | .addrMsbLow => 4
  | .addrLsbHigh => 5
  | .addrLsbLow => 6
  | .recordTypeHigh => 7
  | .recordTypeLow => 8
  | .dataHigh => 9
  | .dataLow => 10

/-- RTYPE's three bits, the low bits of the TYPE byte (10_state.md rule R26, 40_decoder.md rule R87). -/
def rtypeCode (t : RecordType) : BitVec 3 := t.typeByte.extractLsb' 0 3

/-! ## Derived parameters -/

/-- DEFAULT_LINE_LENGTH = min(32, LINE_MAX) (00_scope.md rule R7). -/
def defaultLineLength (c : Config) : Byte := if c.lineMax.toNat < 32 then c.lineMax else 32

/-- min(n, LINE_MAX) (41_encoder.md rule R102). -/
def clampLineLength (c : Config) (n : Byte) : Byte := if n.toNat ≤ c.lineMax.toNat then n else c.lineMax

/-- The byte of a NEWLINE byte (00_scope.md rules R8, R16). -/
def newlineByte : NewlineByte → Byte
  | .lf => 0x0A
  | .cr => 0x0D

/-- NEWLINE as a byte string (00_scope.md rule R8). -/
def newlineBytes (c : Config) : List Byte :=
  match c.newline with
  | .one a => [newlineByte a]
  | .two a b => [newlineByte a, newlineByte b]

/-- LINE_BUF_SIZE = 11 + 2·LINE_MAX + NL_LEN (00_scope.md rule R10): how many bytes SCRATCH has (10_state.md rule R33). -/
def lineBufSize (c : Config) : Nat := 11 + 2 * c.lineMax.toNat + (newlineBytes c).length

/-- The most data bytes Render is given: LINE_MAX (41_encoder.md rule R95), and the two of an extended-address record also where
LINE_MAX = 1 (rules R96, R100; DESIGN CHOICE, notes/assumptions/11.md). -/
def renderMax (c : Config) : Nat := max c.lineMax.toNat 2

/-! ## Derived values of the state -/

/-- The linear address (ADDRESS + (SEGMENT << 4)) mod 2^32 (20_memory.md rule R41). -/
def linearAddress (a : Addr) (sg : Half) : Addr := a + (sg.setWidth 32 <<< 4)

/-- LINEAR (10_state.md rule R36). -/
def State.linear (s : State) : Addr := linearAddress s.address s.segment

/-- ADDRESS[31:16]. -/
def highHalf (a : Addr) : Half := a.extractLsb' 16 16

/-- ADDRESS[15:0]. -/
def lowHalf (a : Addr) : Half := a.extractLsb' 0 16

/-- {high, low} as an address. -/
def joinHalves (hi lo : Half) : Addr := hi ++ lo

/-- Where data byte `i` of a DATA record belongs in the target space: (LINEAR + i) mod 2^32 (20_memory.md rule R42). -/
def SinkEvent.targetAddress (e : SinkEvent) (i : Nat) : Addr := e.linear + BitVec.ofNat 32 i

/-! ## Reading the memories -/

/-- The byte at an index; an index that is not listed reads as 0x00 (DESIGN CHOICE, notes/assumptions/3.md). -/
def Memory.read (m : Memory) (i : Nat) : Byte :=
  match m with
  | [] => 0
  | (j, b) :: rest => if i = j then b else Memory.read rest i

/-- The bytes at indices 0..n-1. -/
def Memory.readTo (m : Memory) (n : Nat) : List Byte := (List.range n).map m.read

/-- DATA[0..LENGTH). -/
def State.pending (s : State) : List Byte := s.data.readTo s.length.toNat

/-! ## The status read -/

/-- What the host may read (00_scope.md rule R14), with MODE in its two bits. -/
structure Status where
  mode : BitVec 2
  address : Addr
  segment : Half
  lineLength : Byte
  length : Byte
deriving DecidableEq, Repr

/-- The status read: a value, with no side effect (00_scope.md rule R14, 20_memory.md rule R50; notes/assumptions/18.md). The spec lets the
host read between commands and during a SinkEvent (60_exceptions.md rule R117) and does not say what a read during a FlushEvent
gives: here it gives the registers too (DESIGN CHOICE, notes/assumptions/18.md). -/
def State.status (s : State) : Status :=
  { mode := s.mode.code, address := s.address, segment := s.segment, lineLength := s.lineLength, length := s.length }

/-- DATA[0..LENGTH), which may be read during a SinkEvent only (00_scope.md rule R14, 70_reset_and_hazards.md rule R126). -/
def State.readableData (s : State) : Option (List Byte) :=
  if s.evtOpen && s.mode == .read then some s.pending else none

end Sys2Proof.Machine
end

