-- ==== Sys2Proof/Machine/Flags.lean ====
section
/-! DEFINITION. The flags: the derived OVF_PENDING (10_state.md rule R35), the `err` bit of a line that ends on its checksum
(40_decoder.md rules R88, R93), and the checks a command makes before it has any effect (60_exceptions.md rules R107 to R109). The
block has no condition codes (10_state.md rule R17). -/

namespace Sys2Proof.Machine

/-- OVF_PENDING: the next DATA line needs an EXTENDED_LINEAR_ADDRESS record before it (10_state.md rule R35). -/
def State.ovfPending (s : State) : Bool := highHalf s.address != s.elaHigh

/-- The `err` bit of a line that completes on its checksum byte: SUM ≠ 0 (40_decoder.md rule R88, EC1). -/
def sumErr (sum : Byte) : Bool := sum != 0

/-- The check of a BEGIN_* command: CV6 only, it is accepted in every MODE (60_exceptions.md rule R107). -/
def beginCheck (s : State) : Option Refusal := if s.evtOpen then some .reentrantCommand else none

/-- The check of a read-mode command: CV6, CV1, CV2 in that order (60_exceptions.md rules R107, R109). -/
def readCheck (s : State) : Option Refusal :=
  if s.evtOpen then some .reentrantCommand
  else match s.mode with
    | .uninit => some .notInitialised
    | .read => none
    | .write => some .wrongMode
    | .ended => some .wrongMode

/-- The check of a write-mode command: CV6, CV1, CV2, CV3 in that order (60_exceptions.md rules R107, R109). -/
def writeCheck (s : State) : Option Refusal :=
  if s.evtOpen then some .reentrantCommand
  else match s.mode with
    | .uninit => some .notInitialised
    | .read => some .wrongMode
    | .write => none
    | .ended => some .writeAfterEnd

end Sys2Proof.Machine
end

