-- ==== Sys2Proof/Machine/Ops.lean ====
section
/-! DEFINITION. The named operations over memory and registers, and the procedures that several commands share: Complete and Update
(40_decoder.md rules R90, R91), Render, EmitElaIfNeeded and FlushLine (41_encoder.md rules R95 to R97). The block takes no exception
and returns from none (60_exceptions.md rules R105, R110, R111), so there is no such operation. -/

namespace Sys2Proof.Machine

/-- The outcome of a command. -/
abbrev Result := Host.Outcome State Fault Refusal

/-- One operation after another; a fault or a refusal ends the command. -/
def andThen (r : Result) (k : State → Result) : Result :=
  match r with
  | .next s => k s
  | .fault f => .fault f
  | .refused q => .refused q

/-- A command behind its check: the checks come before any effect (60_exceptions.md rule R108). -/
def guarded (check : Option Refusal) (r : Result) : Result :=
  match check with
  | some q => .refused q
  | none => r

/-! ## Memory -/

/-- Puts a cell into a memory; the byte an unlisted index reads as is not listed. -/
def putCell (i : Nat) (b : Byte) (rest : Memory) : Memory := if b = 0 then rest else (i, b) :: rest

/-- Writes one byte, keeping the canonical form. -/
def Memory.write (m : Memory) (i : Nat) (b : Byte) : Memory :=
  match m with
  | [] => putCell i b []
  | (j, c) :: rest =>
    if i < j then putCell i b ((j, c) :: rest)
    else if i = j then putCell i b rest
    else (j, c) :: Memory.write rest i b

/-- Writes bytes at rising indices from `i`. -/
def Memory.writeFrom (m : Memory) (i : Nat) : List Byte → Memory
  | [] => m
  | b :: bs => Memory.writeFrom (m.write i b) (i + 1) bs

/-- The canonical form: indices strictly rising, no entry equal to what an unlisted index reads as. -/
abbrev Memory.wf (m : Memory) : Prop := m.Pairwise (fun a b => a.1 < b.1) ∧ ∀ c ∈ m, c.2 ≠ 0

/-- Every listed index is below `n`. -/
abbrev Memory.below (m : Memory) (n : Nat) : Prop := ∀ c ∈ m, c.1 < n

/-- DATA[i] <- v (20_memory.md rule R39). An index above LINE_MAX does not exist. -/
def writeData (i : Nat) (v : Byte) (s : State) : Result :=
  if i ≤ s.cfg.lineMax.toNat then .next { s with data := s.data.write i v } else .fault .dataIndex

/-! ## The sink port -/

/-- The SinkEvent of the registers as they stand (40_decoder.md rule R90). -/
def sinkEventOf (e : Bool) (s : State) : SinkEvent :=
  { rtype := s.rtype, err := e, address := s.address, segment := s.segment, linear := s.linear,
    declared := s.lineLength, length := s.length, data := s.pending }

/-- EVT_OPEN <- 1 and the SinkEvent is emitted. -/
def openSinkEvent (e : Bool) (s : State) : State :=
  { s with evtOpen := true, events := s.events ++ [.sink (sinkEventOf e s)] }

/-- The sink device issues a command to the instance while the event is open (60_exceptions.md rule R107, CV6). -/
def sinkReenters (s : State) : Bool :=
  match s.sinkInputs with
  | .command _ :: _ => true
  | .answer _ :: _ => false
  | [] => false

/-- The sink's answer to the open event: the next one the sink gives, free where none is laid down (00_scope.md rule R15,
`SinkAnswer()`). -/
def sinkAccept (s : State) : Bool :=
  match s.sinkInputs with
  | .answer a :: _ => a
  | .command _ :: _ => false
  | [] => Config.freeAnswer s.sinkDraws

/-- The answer is taken and EVT_OPEN <- 0. -/
def closeSinkEvent (s : State) : State :=
  match s.sinkInputs with
  | [] => { s with evtOpen := false, sinkDraws := s.sinkDraws + 1 }
  | _ :: rest => { s with evtOpen := false, sinkInputs := rest }

/-- {DATA[0], DATA[1]}, big-endian (20_memory.md rule R46). -/
def extendedValue (s : State) : Half := joinBytes (s.data.read 0) (s.data.read 1)

/-- Update(): the tracker's update from an accepted extended-address record of at least two bytes (40_decoder.md rule R91). -/
def update (s : State) : State :=
  match s.rtype with
  | .extendedLinearAddress =>
    if 2 ≤ s.length.toNat then { s with address := joinHalves (extendedValue s) (lowHalf s.address) } else s
  | .extendedSegmentAddress => if 2 ≤ s.length.toNat then { s with segment := extendedValue s } else s
  | .data => s
  | .endOfFile => s
  | .startSegmentAddress => s
  | .startLinearAddress => s

/-- The end of Complete(e) once the sink has answered: the tracker updated if it accepts, and the decoder waits for the next line. -/
def finishLine (accept : Bool) (s : State) : State :=
  { (if accept then update s else s) with rstate := .waitForStart, length := 0 }

/-- Complete(e): the line is delivered to the sink, and the decoder goes on whatever it answers (40_decoder.md rule R90). -/
def complete (e : Bool) (s : State) : Result :=
  if s.length.toNat ≤ s.cfg.lineMax.toNat + 1 then
    if sinkReenters (openSinkEvent e s) then .refused .reentrantCommand
    else .next (finishLine (sinkAccept (openSinkEvent e s)) (closeSinkEvent (openSinkEvent e s)))
  else .fault .dataIndex

/-! ## The flush port -/

/-- The flush device issues a command to the instance while the event is open (60_exceptions.md rule R107, CV6). -/
def flushReenters (s : State) : Bool :=
  match s.flushInputs with
  | .command _ :: _ => true
  | .taken :: _ => false
  | [] => false

/-- The part of a line that SCRATCH's LINE_BUF_SIZE bytes hold: the whole line, but for an extended-address record's where
LINE_MAX = 1 (DESIGN CHOICE, notes/assumptions/11.md). -/
def scratchPart (c : Config) (line : List Byte) : List Byte := line.take (lineBufSize c)

/-- The line goes into SCRATCH, EVT_OPEN <- 1, and the FlushEvent carries SCRATCH's first bytes (10_state.md rule R33, 41_encoder.md
rule R95). What SCRATCH has no room for, which is nothing unless LINE_MAX = 1, follows them from the line itself (DESIGN CHOICE,
notes/assumptions/11.md). -/
def openFlushEvent (line : List Byte) (s : State) : State :=
  { s with
    scratch := s.scratch.writeFrom 0 (scratchPart s.cfg line)
    evtOpen := true
    events := s.events ++ [.flush
      ((s.scratch.writeFrom 0 (scratchPart s.cfg line)).readTo (scratchPart s.cfg line).length ++ line.drop (lineBufSize s.cfg))] }

/-- The flush device has taken the bytes and EVT_OPEN <- 0 (41_encoder.md rule R95). SCRATCH keeps the line's bytes until the next Render
(DESIGN CHOICE, notes/assumptions/20.md: 93_implementation_defined.md I11 leaves SCRATCH outside an open FlushEvent any value). -/
def closeFlushEvent (s : State) : State := { s with evtOpen := false, flushInputs := s.flushInputs.tail }

/-- The line Render(t, a16, bytes) makes: its characters, its CHECKSUM and NEWLINE (41_encoder.md rule R95). -/
def renderedLine (c : Config) (t : Byte) (a16 : Half) (bytes : List Byte) : List Byte :=
  lineText t a16 bytes (checksum t a16 bytes) ++ newlineBytes c

/-- Render(t, a16, bytes): one record goes out as one FlushEvent (41_encoder.md rule R95). -/
def render (t : Byte) (a16 : Half) (bytes : List Byte) (s : State) : Result :=
  if bytes.length ≤ renderMax s.cfg then
    if flushReenters (openFlushEvent (renderedLine s.cfg t a16 bytes) s) then .refused .reentrantCommand
    else .next (closeFlushEvent (openFlushEvent (renderedLine s.cfg t a16 bytes) s))
  else .fault .scratchIndex

/-- EmitElaIfNeeded(): an EXTENDED_LINEAR_ADDRESS record when ADDRESS[31:16] is not in effect (41_encoder.md rule R96). -/
def emitElaIfNeeded (s : State) : Result :=
  if s.ovfPending then
    if s.segUsed then .refused .segmentLinearMix
    else
      andThen (render 0x04 0x0000 (halfBytes (highHalf s.address)) s) fun s1 =>
        .next { s1 with elaHigh := highHalf s1.address, elaUsed := true }
  else .next s

/-- FlushLine(): the pending bytes as one DATA line, preceded by an EXTENDED_LINEAR_ADDRESS record if needed (41_encoder.md
rule R97). -/
def flushLine (s : State) : Result :=
  if s.length.toNat ≤ s.cfg.lineMax.toNat + 1 then
    andThen (emitElaIfNeeded s) fun s1 =>
      andThen (render 0x00 (lowHalf s1.address) s1.pending s1) fun s2 =>
        .next { s2 with address := s2.address + s2.length.setWidth 32, length := 0 }
  else .fault .dataIndex

/-- `if LENGTH > 0: FlushLine()` (41_encoder.md rules R99, R100, R103). -/
def flushPending (s : State) : Result := if s.length = 0 then .next s else flushLine s

end Sys2Proof.Machine
end

