-- ==== Sys2Proof/Machine/Reading.lean ====
section
/-! DEFINITION. The read-mode commands (40_decoder.md): BEGIN_READ and its two variants, READ_BYTE with its parse state machine, and
END_READ. -/

namespace Sys2Proof.Machine

/-! ## Stream initialisation -/

/-- What BEGIN_READ writes (40_decoder.md rule R74, 70_reset_and_hazards.md rule R122): every register but DATA and SCRATCH. -/
def beginReadState (s : State) : State :=
  { s with
    mode := .read
    address := 0
    segment := 0
    rstate := .waitForStart
    rtype := .data
    nyb := 0
    sum := 0
    lineLength := 0
    length := 0
    elaHigh := 0
    segUsed := false
    elaUsed := false
    lensetOk := false }

/-- BEGIN_READ (40_decoder.md rule R74). -/
def execBeginRead (s : State) : Result := guarded (beginCheck s) (.next (beginReadState s))

/-- BEGIN_READ_AT_ADDRESS a (40_decoder.md rule R75). -/
def execBeginReadAtAddress (a : Addr) (s : State) : Result :=
  guarded (beginCheck s) (.next { beginReadState s with address := a })

/-- BEGIN_READ_AT_SEGMENT s (40_decoder.md rule R76). -/
def execBeginReadAtSegment (sg : Half) (s : State) : Result :=
  guarded (beginCheck s) (.next { beginReadState s with segment := sg })

/-! ## READ_BYTE's handlers -/

/-- The registers of a fresh line, after `:` (40_decoder.md rule R78). -/
def restartLine (s : State) : State :=
  { s with rstate := .countHigh, lineLength := 0, length := 0, rtype := .data, sum := 0, nyb := 0 }

/-- OnStart (40_decoder.md rule R78): with STRICT_TRUNCATION a line in progress is reported first. -/
def onStart (s : State) : Result :=
  if s.cfg.strictTruncation && s.rstate != .waitForStart then andThen (complete true s) fun s1 => .next (restartLine s1)
  else .next (restartLine s)

/-- OnTerm (40_decoder.md rule R79): a terminator ends a line in progress early. -/
def onTerm (s : State) : Result := if s.rstate = .waitForStart then .next s else complete true s

/-- OnOther (40_decoder.md rule R80): nothing. -/
def onOther (s : State) : Result := .next s

/-- HighNybble(v) (40_decoder.md rule R83): the digit waits in NYB, and RSTATE moves to the matching *_LOW state. -/
def highNybble (v : Nybble) (low : ParseState) (s : State) : State := { s with nyb := v, rstate := low }

/-- The byte {NYB, v} (30_encoding.md rule R67). -/
def wireByte (v : Nybble) (s : State) : Byte := joinNybbles s.nyb v

/-- CountLow(v) (40_decoder.md rule R84): the declared length; one above LINE_MAX ends the line at once (EC2). -/
def countLow (v : Nybble) (s : State) : Result :=
  let b := wireByte v s
  let s1 := { s with sum := s.sum + b, lineLength := b }
  if s1.cfg.lineMax.toNat < b.toNat then complete true s1 else .next { s1 with rstate := .addrMsbHigh }

/-- AddrMsbLow(v) (40_decoder.md rule R85): ADDRESS[15:8] <- b, ADDRESS[7:0] <- 0. -/
def addrMsbLow (v : Nybble) (s : State) : State :=
  { s with
    sum := s.sum + wireByte v s
    address := joinHalves (highHalf s.address) (joinBytes (wireByte v s) 0)
    rstate := .addrLsbHigh }

/-- AddrLsbLow(v) (40_decoder.md rule R86): ADDRESS[7:0] <- b. -/
def addrLsbLow (v : Nybble) (s : State) : State :=
  { s with
    sum := s.sum + wireByte v s
    address := joinHalves (highHalf s.address) (joinBytes (s.address.extractLsb' 8 8) (wireByte v s))
    rstate := .recordTypeHigh }

/-- TypeLow(v) (40_decoder.md rule R87): an unknown type drops the line with no event (EC5). -/
def typeLow (v : Nybble) (s : State) : State :=
  match recordTypeOf (wireByte v s) with
  | none => { s with rstate := .waitForStart, length := 0 }
  | some t => { s with rtype := t, sum := s.sum + wireByte v s, rstate := .dataHigh }

/-- DataLow(v) (40_decoder.md rule R88): a data byte, or the checksum byte when LENGTH = LINE_LENGTH. -/
def dataLow (v : Nybble) (s : State) : Result :=
  let b := wireByte v s
  andThen (writeData s.length.toNat b { s with sum := s.sum + b }) fun s1 =>
    if s1.length.toNat < s1.lineLength.toNat then .next { s1 with length := s1.length + 1, rstate := .dataHigh }
    else complete (sumErr s1.sum) s1

/-- OnHex(v) (40_decoder.md rule R81): the action of each parse state. -/
def onHex (v : Nybble) (s : State) : Result :=
  match s.rstate with
  | .waitForStart => .next s
  | .countHigh => .next (highNybble v .countLow s)
  | .countLow => countLow v s
  | .addrMsbHigh => .next (highNybble v .addrMsbLow s)
  | .addrMsbLow => .next (addrMsbLow v s)
  | .addrLsbHigh => .next (highNybble v .addrLsbLow s)
  | .addrLsbLow => .next (addrLsbLow v s)
  | .recordTypeHigh => .next (highNybble v .recordTypeLow s)
  | .recordTypeLow => .next (typeLow v s)
  | .dataHigh => .next (highNybble v .dataLow s)
  | .dataLow => dataLow v s

/-- READ_BYTE c: the byte's class selects the handler (40_decoder.md rule R77). -/
def readChar (c : Byte) (s : State) : Result :=
  match charClass c with
  | .start => onStart s
  | .term => onTerm s
  | .hex => onHex (hexval c) s
  | .other => onOther s

/-- READ_BYTE c (40_decoder.md rule R77). -/
def execReadByte (c : Byte) (s : State) : Result := guarded (readCheck s) (readChar c s)

/-- END_READ (40_decoder.md rule R92): a line in progress is completed early (EC4). -/
def execEndRead (s : State) : Result :=
  guarded (readCheck s) (if s.rstate = .waitForStart then .next s else complete true s)

end Sys2Proof.Machine
end

