-- ==== Sys2Proof/Machine/Records.lean ====
section
/-! DEFINITION. The six record types as input (30_encoding.md rule R62): a line of the type is READ_LINE of its text, that is one
READ_BYTE for each character (rule R72; notes/assumptions/8.md). What the type decides, TypeLow's RTYPE and Update, is the parse state
machine's own. -/

namespace Sys2Proof.Machine

/-- READ_BYTES over a text (30_encoding.md rule R72): one READ_BYTE for each byte, in order. No byte is no command at all. -/
def readText : List Byte → State → Result
  | [], s => .next s
  | c :: cs, s => andThen (execReadByte c s) (readText cs)

/-- READ_LINE of one record's line, without a terminator (30_encoding.md rules R57, R72). -/
def readRecord (t : RecordType) (addr : Half) (data : List Byte) (cks : Byte) (s : State) : Result :=
  readText (lineText t.typeByte addr data cks) s

/-- A DATA line (30_encoding.md rule R62): the SinkEvent and nothing more. -/
def execRecordData (addr : Half) (data : List Byte) (cks : Byte) (s : State) : Result :=
  readRecord .data addr data cks s

/-- An END_OF_FILE line: the SinkEvent; decoding continues (30_encoding.md rule R62). -/
def execRecordEndOfFile (addr : Half) (data : List Byte) (cks : Byte) (s : State) : Result :=
  readRecord .endOfFile addr data cks s

/-- An EXTENDED_SEGMENT_ADDRESS line: SEGMENT is updated if the sink accepts (30_encoding.md rule R62, 40_decoder.md rule R91). -/
def execRecordExtendedSegmentAddress (addr : Half) (data : List Byte) (cks : Byte) (s : State) : Result :=
  readRecord .extendedSegmentAddress addr data cks s

/-- A START_SEGMENT_ADDRESS line: the SinkEvent and nothing more (30_encoding.md rule R62). -/
def execRecordStartSegmentAddress (addr : Half) (data : List Byte) (cks : Byte) (s : State) : Result :=
  readRecord .startSegmentAddress addr data cks s

/-- An EXTENDED_LINEAR_ADDRESS line: ADDRESS[31:16] is updated if the sink accepts (30_encoding.md rule R62, 40_decoder.md
rule R91). -/
def execRecordExtendedLinearAddress (addr : Half) (data : List Byte) (cks : Byte) (s : State) : Result :=
  readRecord .extendedLinearAddress addr data cks s

/-- A START_LINEAR_ADDRESS line: the SinkEvent and nothing more (30_encoding.md rule R62). -/
def execRecordStartLinearAddress (addr : Half) (data : List Byte) (cks : Byte) (s : State) : Result :=
  readRecord .startLinearAddress addr data cks s

end Sys2Proof.Machine
end

