-- ==== Sys2Proof/Machine/Writing.lean ====
section
/-! DEFINITION. The write-mode commands (41_encoder.md). -/

namespace Sys2Proof.Machine

/-- What BEGIN_WRITE writes (41_encoder.md rule R98, 70_reset_and_hazards.md rule R122): every register but DATA and SCRATCH. -/
def beginWriteState (s : State) : State :=
  { s with
    mode := .write
    address := 0
    segment := 0
    lineLength := defaultLineLength s.cfg
    length := 0
    elaHigh := 0
    segUsed := false
    elaUsed := false
    lensetOk := true
    rstate := .waitForStart
    rtype := .data
    nyb := 0
    sum := 0 }

/-- BEGIN_WRITE (41_encoder.md rule R98). -/
def execBeginWrite (s : State) : Result := guarded (beginCheck s) (.next (beginWriteState s))

/-- WRITE_AT_ADDRESS a (41_encoder.md rule R99). -/
def execWriteAtAddress (a : Addr) (s : State) : Result :=
  guarded (writeCheck s) <|
    andThen (flushPending s) fun s1 => .next { s1 with address := a, lensetOk := true }

/-- The segment record of WRITE_AT_SEGMENT, emitted when the segment changes (41_encoder.md rule R100). -/
def changeSegment (sg : Half) (s : State) : Result :=
  if sg = s.segment then .next s
  else andThen (render 0x02 0x0000 (halfBytes sg) s) fun s1 => .next { s1 with segment := sg }

/-- WRITE_AT_SEGMENT s, a (41_encoder.md rule R100). -/
def execWriteAtSegment (sg : Half) (a : Addr) (s : State) : Result :=
  guarded (writeCheck s) <|
    andThen (flushPending s) fun s1 =>
      if s1.elaUsed then .refused .segmentLinearMix
      else andThen (changeSegment sg s1) fun s2 => .next { s2 with segUsed := true, address := a, lensetOk := true }

/-- WRITE_BYTE d (41_encoder.md rule R101): the line that the byte fills goes out within the command. -/
def execWriteByte (d : Byte) (s : State) : Result :=
  guarded (writeCheck s) <|
    andThen (writeData s.length.toNat d s) fun s1 =>
      let s2 := { s1 with length := s1.length + 1, lensetOk := false }
      if s2.length = s2.lineLength then flushLine s2 else .next s2

/-- SET_OUTPUT_LINE_LENGTH n (41_encoder.md rule R102). -/
def execSetOutputLineLength (n : Byte) (s : State) : Result :=
  guarded (writeCheck s) <|
    if s.lensetOk then
      .next { s with lineLength := if n = 0 then defaultLineLength s.cfg else clampLineLength s.cfg n }
    else .refused .lineLengthMisplaced

/-- END_WRITE (41_encoder.md rule R103). -/
def execEndWrite (s : State) : Result :=
  guarded (writeCheck s) <|
    andThen (flushPending s) fun s1 =>
      andThen (render 0x01 0x0000 [] s1) fun s2 => .next { s2 with mode := .ended, lensetOk := false }

end Sys2Proof.Machine
end

