-- ==== Sys2Proof/Machine/Dispatch.lean ====
section
/-! DEFINITION. The meaning of each instruction, one arm per constructor. -/

namespace Sys2Proof.Machine

def exec (i : Instr) (s : State) : Host.Outcome State Fault Refusal :=
  match i with
  | .beginRead => Sys2Proof.Machine.execBeginRead s
  | .beginReadAtAddress a => Sys2Proof.Machine.execBeginReadAtAddress a s
  | .beginReadAtSegment sg => Sys2Proof.Machine.execBeginReadAtSegment sg s
  | .readByte c => Sys2Proof.Machine.execReadByte c s
  | .endRead => Sys2Proof.Machine.execEndRead s
  | .beginWrite => Sys2Proof.Machine.execBeginWrite s
  | .writeAtAddress a => Sys2Proof.Machine.execWriteAtAddress a s
  | .writeAtSegment sg a => Sys2Proof.Machine.execWriteAtSegment sg a s
  | .writeByte d => Sys2Proof.Machine.execWriteByte d s
  | .setOutputLineLength n => Sys2Proof.Machine.execSetOutputLineLength n s
  | .endWrite => Sys2Proof.Machine.execEndWrite s
  | .recordData addr data cks => Sys2Proof.Machine.execRecordData addr data cks s
  | .recordEndOfFile addr data cks => Sys2Proof.Machine.execRecordEndOfFile addr data cks s
  | .recordExtendedSegmentAddress addr data cks => Sys2Proof.Machine.execRecordExtendedSegmentAddress addr data cks s
  | .recordStartSegmentAddress addr data cks => Sys2Proof.Machine.execRecordStartSegmentAddress addr data cks s
  | .recordExtendedLinearAddress addr data cks => Sys2Proof.Machine.execRecordExtendedLinearAddress addr data cks s
  | .recordStartLinearAddress addr data cks => Sys2Proof.Machine.execRecordStartLinearAddress addr data cks s

end Sys2Proof.Machine
end

