-- ==== Sys2Proof/Machine/Fetch.lean ====
section
/-! DEFINITION. Taking the next input of the command port (00_scope.md rule R11), and the pseudo-commands and textual form of
30_encoding.md rules R71 and R72. The block fetches no instructions from a memory (20_memory.md rule R55). -/

namespace Sys2Proof.Machine

/-- What the block does with the head of its input. `refuse` carries the caller-contract violation, `raw` a READ_LINE text that is not
one whole record in the encoder's spelling and is read character by character, `run` the instruction; each with the state in which
the input has been taken. -/
inductive Fetched where
  | idle
  | refuse (r : Refusal)
  | run (i : Instr) (s : State)
  | raw (text : List Byte) (s : State)
deriving DecidableEq, Repr

/-- The refusal of a word that names no command (60_exceptions.md rule R107, CV7 and CV8). -/
def wordRefusal : CommandError → Refusal
  | .reservedOpcode => .reservedOpcode
  | .reservedField => .reservedField

/-- A command word arrives: CV6 comes before CV7 and CV8 (60_exceptions.md rule R109). -/
def fetchWord (w : CmdWord) (s : State) : Fetched :=
  if s.evtOpen then .refuse .reentrantCommand
  else match decodeCommand w with
    | .ok i => .run i s
    | .error e => .refuse (wordRefusal e)

/-- A READ_LINE text arrives (30_encoding.md rule R72). -/
def fetchLine (text : List Byte) (s : State) : Fetched :=
  match decodeLine text with
  | .ok i => .run i s
  | .error _ => .raw text s

/-- The head of the input is taken. With no input the block is idle (60_exceptions.md rule R120). -/
def fetch (s : State) : Fetched :=
  match s.input with
  | [] => .idle
  | .word w :: rest => fetchWord w { s with input := rest }
  | .line text :: rest => fetchLine text { s with input := rest }

/-! ## Pseudo-commands and text -/

/-- READ_BYTES c0, .., ck-1 (30_encoding.md rule R72). -/
def readBytes (cs : List Byte) : List HostInput := cs.map fun c => encode (.readByte c)

/-- WRITE_BYTES d0, .., dk-1 (30_encoding.md rule R72). -/
def writeBytes (ds : List Byte) : List HostInput := ds.map fun d => encode (.writeByte d)

/-- READ_LINE "text" in command words: READ_BYTES over the text's ASCII bytes (30_encoding.md rule R72). A character that is not ASCII, which
00_scope.md rule R5 leaves out, stands for the low eight bits of its code point (DESIGN CHOICE, notes/assumptions/21.md). -/
def readLine (text : String) : List HostInput := readBytes (text.toList.map fun c => BitVec.ofNat 8 c.toNat)

/-- The characters of a byte string. -/
def textOf (bs : List Byte) : String := String.ofList (bs.map fun b => Char.ofNat b.toNat)

/-- An operand in hex, as 00_scope.md rule R15 writes numbers. -/
def hexOperand (bs : List Byte) : String := "0x" ++ textOf (bs.flatMap hex2)

/-- The operand text of an address. -/
def addrOperand (a : Addr) : String := hexOperand (halfBytes (highHalf a) ++ halfBytes (lowHalf a))

/-- READ_LINE with a record's text, the form a record's line has on the command port. -/
def recordForm (t : RecordType) (addr : Half) (data : List Byte) (cks : Byte) : String :=
  "READ_LINE \"" ++ textOf (lineText t.typeByte addr data cks) ++ "\""

/-- The textual form of an instruction (30_encoding.md rule R71): its mnemonic and its operands in hex, in the order of the source's
argument lists. -/
def textualForm : Instr → String
  | .beginRead => "BEGIN_READ"
  | .beginReadAtAddress a => "BEGIN_READ_AT_ADDRESS " ++ addrOperand a
  | .beginReadAtSegment sg => "BEGIN_READ_AT_SEGMENT " ++ hexOperand (halfBytes sg)
  | .readByte c => "READ_BYTE " ++ hexOperand [c]
  | .endRead => "END_READ"
  | .beginWrite => "BEGIN_WRITE"
  | .writeAtAddress a => "WRITE_AT_ADDRESS " ++ addrOperand a
  | .writeAtSegment sg a => "WRITE_AT_SEGMENT " ++ hexOperand (halfBytes sg) ++ ", " ++ addrOperand a
  | .writeByte d => "WRITE_BYTE " ++ hexOperand [d]
  | .setOutputLineLength n => "SET_OUTPUT_LINE_LENGTH " ++ hexOperand [n]
  | .endWrite => "END_WRITE"
  | .recordData addr data cks => recordForm .data addr data cks
  | .recordEndOfFile addr data cks => recordForm .endOfFile addr data cks
  | .recordExtendedSegmentAddress addr data cks => recordForm .extendedSegmentAddress addr data cks
  | .recordStartSegmentAddress addr data cks => recordForm .startSegmentAddress addr data cks
  | .recordExtendedLinearAddress addr data cks => recordForm .extendedLinearAddress addr data cks
  | .recordStartLinearAddress addr data cks => recordForm .startLinearAddress addr data cks

end Sys2Proof.Machine
end

