-- ==== Sys2Proof/Machine/Step.lean ====
section
/-! DEFINITION. One step: the next input is taken and carried out whole, with its events, before the next (00_scope.md rule R11,
20_memory.md rule R52, 70_reset_and_hazards.md rule R134). -/

namespace Sys2Proof.Machine

/-- One step of the machine. -/
def step (s : State) : Host.Outcome State Fault Refusal :=
  match fetch s with
  | .idle => .next s
  | .refuse r => .refused r
  | .run i s1 => exec i s1
  | .raw text s1 => readText text s1

/-- The state with an instruction of spec/opcode_table.json put where `step` takes its next input (notes/assumptions/9.md). -/
def State.withFetchWord (s : State) (nbits w : Nat) : State := { s with input := tableInput nbits w :: s.input }

end Sys2Proof.Machine
end

