-- ==== Sys2Proof/Safety.lean ====
section
/-! DEFINITION. The terms claims use: the invariants between commands (10_state.md rule R38 and the rules beside it), the devices'
duties, the kinds of commands, the states that a delivered line and an emitted record leave, and what two states that differ only in
unspecified bytes have in common. -/

namespace Sys2Proof.Machine

/-! ## Kinds of commands -/

/-- The read-mode commands and the record lines, which are READ_BYTE commands (60_exceptions.md rule R107, 30_encoding.md rule R72). -/
def isReadCommand : Instr → Bool
  | .readByte _ => true
  | .endRead => true
  | .recordData _ _ _ => true
  | .recordEndOfFile _ _ _ => true
  | .recordExtendedSegmentAddress _ _ _ => true
  | .recordStartSegmentAddress _ _ _ => true
  | .recordExtendedLinearAddress _ _ _ => true
  | .recordStartLinearAddress _ _ _ => true
  | .beginRead => false
  | .beginReadAtAddress _ => false
  | .beginReadAtSegment _ => false
  | .beginWrite => false
  | .writeAtAddress _ => false
  | .writeAtSegment _ _ => false
  | .writeByte _ => false
  | .setOutputLineLength _ => false
  | .endWrite => false

/-- The write-mode commands (60_exceptions.md rule R107). -/
def isWriteCommand : Instr → Bool
  | .writeAtAddress _ => true
  | .writeAtSegment _ _ => true
  | .writeByte _ => true
  | .setOutputLineLength _ => true
  | .endWrite => true
  | .beginRead => false
  | .beginReadAtAddress _ => false
  | .beginReadAtSegment _ => false
  | .readByte _ => false
  | .endRead => false
  | .beginWrite => false
  | .recordData _ _ _ => false
  | .recordEndOfFile _ _ _ => false
  | .recordExtendedSegmentAddress _ _ _ => false
  | .recordStartSegmentAddress _ _ _ => false
  | .recordExtendedLinearAddress _ _ _ => false
  | .recordStartLinearAddress _ _ _ => false

/-- The OP values of 30_encoding.md rule R69. -/
def commandOpcodes : List Byte := [0x01, 0x02, 0x03, 0x04, 0x05, 0x11, 0x12, 0x13, 0x14, 0x15, 0x16]

/-- The opcodes that use the field A, those that use S, and those that use B (30_encoding.md rule R69). -/
def opcodesUsingA : List Byte := [0x02, 0x12, 0x13]

/-- The opcodes that use the field S (30_encoding.md rule R69). -/
def opcodesUsingS : List Byte := [0x03, 0x13]

/-- The opcodes that use the field B (30_encoding.md rule R69). -/
def opcodesUsingB : List Byte := [0x04, 0x14, 0x15]

/-! ## When a command may run -/

/-- No event is open and MODE = READ. -/
def ReadReady (s : State) : Prop := s.evtOpen = false ∧ s.mode = .read

/-- No event is open and MODE = WRITE. -/
def WriteReady (s : State) : Prop := s.evtOpen = false ∧ s.mode = .write

/-- The sink only answers (60_exceptions.md rule R115). -/
def SinkDutiful (s : State) : Prop := ∀ w : CmdWord, SinkInput.command w ∉ s.sinkInputs

/-- The flush device only takes bytes (60_exceptions.md rule R116). -/
def FlushDutiful (s : State) : Prop := ∀ w : CmdWord, FlushInput.command w ∉ s.flushInputs

/-! ## The invariant -/

/-- What holds between commands (10_state.md rule R38), and what the rules on the single registers add. -/
structure Inv (s : State) : Prop where
  /-- 00_scope.md rule R6. -/
  cfgOk : s.cfg.wf = true
  /-- EVT_OPEN = 0 between commands, rule R38. -/
  eventClosed : s.evtOpen = false
  /-- DATA is in the canonical form (notes/assumptions/3.md) and has the indices 0..LINE_MAX, rule R24. -/
  dataWf : s.data.wf
  dataBelow : s.data.below (s.cfg.lineMax.toNat + 1)
  /-- SCRATCH is in the canonical form (notes/assumptions/3.md) and has the indices 0..LINE_BUF_SIZE-1, rule R33. -/
  scratchWf : s.scratch.wf
  scratchBelow : s.scratch.below (lineBufSize s.cfg)
  /-- In read mode LENGTH ≤ LINE_LENGTH and LENGTH ≤ LINE_MAX, rule R38. -/
  readLength : s.mode = .read → s.length.toNat ≤ s.lineLength.toNat ∧ s.length.toNat ≤ s.cfg.lineMax.toNat
  /-- In read mode LINE_LENGTH exceeds LINE_MAX only after a declared-length overflow, which ended the line, rule R38. -/
  readDeclared : s.mode = .read → s.lineLength.toNat ≤ s.cfg.lineMax.toNat ∨ s.rstate = .waitForStart
  /-- In read mode LENGTH is 0 until the line's first data byte and after the line, rule R23. -/
  readEmpty : s.mode = .read → s.rstate ≠ .dataHigh → s.rstate ≠ .dataLow → s.length = 0
  /-- In read mode RTYPE is 0 from the line's `:` until its TYPE byte, rule R26. -/
  readType : s.mode = .read → s.rstate ≠ .waitForStart → s.rstate ≠ .dataHigh → s.rstate ≠ .dataLow → s.rtype = .data
  /-- In read mode LINE_LENGTH and SUM are 0 from the line's `:` until its LEN byte (40_decoder.md rule R78). -/
  readFresh : s.mode = .read → s.rstate = .countHigh ∨ s.rstate = .countLow → s.lineLength = 0 ∧ s.sum = 0
  /-- In write mode 1 ≤ LINE_LENGTH ≤ LINE_MAX and LENGTH < LINE_LENGTH, rule R38. -/
  writeLength : s.mode = .write →
    1 ≤ s.lineLength.toNat ∧ s.lineLength.toNat ≤ s.cfg.lineMax.toNat ∧ s.length.toNat < s.lineLength.toNat
  /-- LENGTH is 0 wherever SET_OUTPUT_LINE_LENGTH has a meaning (41_encoder.md rule R102). -/
  writeLenset : s.mode = .write → s.lensetOk = true → s.length = 0
  /-- A write stream never mixes segmented and linear addressing (70_reset_and_hazards.md rule R132). -/
  writeNotMixed : s.mode = .write → ¬(s.segUsed = true ∧ s.elaUsed = true)
  /-- ELA_HIGH is 0 until an EXTENDED_LINEAR_ADDRESS record is emitted, rule R29. -/
  writeElaHigh : s.mode = .write → s.elaUsed = false → s.elaHigh = 0
  /-- SEGMENT is 0 until WRITE_AT_SEGMENT is issued, rule R21. -/
  writeSegment : s.mode = .write → s.segUsed = false → s.segment = 0

/-! ## The states that the shared procedures leave -/

/-- The state after a line is delivered with the error bit `e`, written out from 40_decoder.md rules R90 and R91. The sink's answer and
what taking it leaves of the sink's inputs are `sinkAccept` and `closeSinkEvent`. -/
def delivered (e : Bool) (s : State) : State :=
  { closeSinkEvent s with
    evtOpen := false
    events := s.events ++ [.sink
      { rtype := s.rtype, err := e, address := s.address, segment := s.segment,
        linear := linearAddress s.address s.segment, declared := s.lineLength, length := s.length,
        data := s.data.readTo s.length.toNat }]
    address :=
      if sinkAccept s = true ∧ s.rtype = .extendedLinearAddress ∧ 2 ≤ s.length.toNat
      then joinHalves (joinBytes (s.data.read 0) (s.data.read 1)) (lowHalf s.address) else s.address
    segment :=
      if sinkAccept s = true ∧ s.rtype = .extendedSegmentAddress ∧ 2 ≤ s.length.toNat
      then joinBytes (s.data.read 0) (s.data.read 1) else s.segment
    rstate := .waitForStart
    length := 0 }

/-- The state after one record is rendered, written out from 41_encoder.md rule R95. SCRATCH holds the line, or as much of it as its
LINE_BUF_SIZE bytes take (less than all of it for LINE_MAX = 1 only, notes/assumptions/11.md), and keeps it after the FlushEvent (the
model's choice, notes/assumptions/20.md). -/
def emitted (t : Byte) (a16 : Half) (bytes : List Byte) (s : State) : State :=
  { s with
    scratch := s.scratch.writeFrom 0
      ((lineText t a16 bytes (checksum t a16 bytes) ++ newlineBytes s.cfg).take (lineBufSize s.cfg))
    evtOpen := false
    flushInputs := s.flushInputs.tail
    events := s.events ++ [.flush (lineText t a16 bytes (checksum t a16 bytes) ++ newlineBytes s.cfg)] }

/-- The state after EmitElaIfNeeded(), written out from 41_encoder.md rule R96. -/
def elaEmitted (s : State) : State :=
  if highHalf s.address = s.elaHigh then s
  else { emitted 0x04 0x0000 [s.address.extractLsb' 24 8, s.address.extractLsb' 16 8] s with
    elaHigh := highHalf s.address, elaUsed := true }

/-- The state after FlushLine(), written out from 41_encoder.md rule R97. -/
def lineFlushed (s : State) : State :=
  { emitted 0x00 (lowHalf s.address) (s.data.readTo s.length.toNat) (elaEmitted s) with
    address := s.address + s.length.setWidth 32, length := 0 }

/-- The state after `if LENGTH > 0: FlushLine()`. -/
def pendingFlushed (s : State) : State := if s.length = 0 then s else lineFlushed s

/-- FlushLine() would need an EXTENDED_LINEAR_ADDRESS record in a segmented stream (41_encoder.md rule R96, CV5). -/
def FlushMixes (s : State) : Prop := highHalf s.address ≠ s.elaHigh ∧ s.segUsed = true

/-! ## Unspecified bytes -/

/-- Two states that differ at most in bytes the rules leave unspecified: DATA from LENGTH on (10_state.md rule R24) and SCRATCH between
events (70_reset_and_hazards.md rule R125). -/
structure SameButUnspecified (s t : State) : Prop where
  data : ∀ i, i < s.length.toNat → s.data.read i = t.data.read i
  rest : { s with data := [], scratch := [] } = { t with data := [], scratch := [] }

/-- Two outcomes that agree but for unspecified bytes. -/
def SameOutcome : Result → Result → Prop
  | .next s, .next t => SameButUnspecified s t
  | .fault f, .fault g => f = g
  | .refused q, .refused r => q = r
  | .next _, .fault _ => False
  | .next _, .refused _ => False
  | .fault _, .next _ => False
  | .fault _, .refused _ => False
  | .refused _, .next _ => False
  | .refused _, .fault _ => False

/-! ## Runs and what they place in the target space -/

/-- Several instructions, one after another. -/
def execAll : List Instr → State → Result
  | [], s => .next s
  | i :: is, s => andThen (exec i s) (execAll is)

/-- Where a DATA record's bytes belong: byte i at LINEAR + i (20_memory.md rule R42). -/
def placedFrom (a : Addr) : List Byte → List (Addr × Byte)
  | [] => []
  | b :: bs => (a, b) :: placedFrom (a + 1) bs

/-- What a sink that follows 60_exceptions.md rule R115 places in the target space for the events. -/
def sinkPlaces : List PortEvent → List (Addr × Byte)
  | [] => []
  | .sink e :: rest => (if e.rtype = .data then placedFrom e.linear e.data else []) ++ sinkPlaces rest
  | .flush _ :: rest => sinkPlaces rest

/-- What a run of write-mode commands writes: WRITE_BYTE's byte goes to (ADDRESS + LENGTH) mod 2^32 (10_state.md rule R20), in the
segment in effect. -/
def hostWrites : List Instr → State → List (Addr × Byte)
  | [], _ => []
  | i :: is, s =>
    (match i with
      | .writeByte d => [(linearAddress (s.address + s.length.setWidth 32) s.segment, d)]
      | _ => []) ++
    (match exec i s with
      | .next t => hostWrites is t
      | .fault _ => []
      | .refused _ => [])

/-- The characters of the FlushEvents, in order: the output stream (20_memory.md rules R39, R53). -/
def outputStream : List PortEvent → List Byte
  | [] => []
  | .flush bytes :: rest => bytes ++ outputStream rest
  | .sink _ :: rest => outputStream rest

end Sys2Proof.Machine
end

