-- ==== Sys2Proof/Certificates/Slice0/Obligations.lean ====
section
/-! DEFINITION. The statements for the provers, each a rule of the spec or what follows from several. -/

open Sys2Proof Sys2Proof.Machine

/-! ## The command port -/

/-- 00_scope.md rule R11: the input at the head of the command port, where it decodes to an instruction, is carried out whole. Beside
`exec` the step takes the input off the port and nothing else. For a word no event may be open (CV6). The rule speaks of command
words: that what the host has issued stands in a list, `input`, is the model's choice (notes/assumptions/7.md), and so is that a READ_LINE
text that spells one record is carried out whole in one step (notes/assumptions/8.md). -/
def Obligations.StepRunsDecodedInstruction : Prop :=
  ∀ (s : State) (rest : List HostInput) (i : Instr),
    (∀ w, s.input = .word w :: rest → s.evtOpen = false → decode (.word w) = .ok i →
      step s = exec i { s with input := rest }) ∧
    (∀ text, s.input = .line text :: rest → decode (.line text) = .ok i → step s = exec i { s with input := rest })

/-- 60_exceptions.md rule R120: with no command the block holds its state. That an empty `input` is the block with no command, and that
a step is taken there at all, is the model's choice (notes/assumptions/7.md). -/
def Obligations.IdleHoldsState : Prop := ∀ s : State, s.input = [] → step s = .next s

/-- 30_encoding.md rule R72: READ_LINE is one READ_BYTE for each byte of its text, whether or not the text is one record; and the words
READ_BYTES expands to, run one step each, come to the same. The rule only expands READ_LINE to READ_BYTE commands: that a READ_LINE
text is taken in one step is the model's choice (notes/assumptions/8.md), and so is the list `input` (notes/assumptions/7.md). -/
def Obligations.ReadLineIsItsReadBytes : Prop :=
  ∀ (s : State) (rest : List HostInput) (text : List Byte),
    (s.input = .line text :: rest → step s = readText text { s with input := rest }) ∧
    (s.input = readBytes text ++ rest →
      Host.Core.run Sys2Proof.core text.length s = readText text { s with input := rest })

/-- 30_encoding.md rule R70 (CV7, CV8), in the order of 60_exceptions.md rule R109: a word of a reserved opcode, and a word with a nonzero
value in a field its opcode does not use, are refused by name. -/
def Obligations.ReservedWordsRefused : Prop :=
  ∀ (s : State) (w : CmdWord) (rest : List HostInput), s.input = .word w :: rest → s.evtOpen = false →
    (opField w ∉ commandOpcodes → step s = .refused .reservedOpcode) ∧
    (opField w ∈ commandOpcodes →
      ((aField w ≠ 0 ∧ opField w ∉ opcodesUsingA) ∨ (sField w ≠ 0 ∧ opField w ∉ opcodesUsingS) ∨
        (bField w ≠ 0 ∧ opField w ∉ opcodesUsingB)) →
      step s = .refused .reservedField)

/-- 70_reset_and_hazards.md rule R128 (CV6): while an event is open every command is refused, whatever the instruction or the word. -/
def Obligations.OpenEventRefusesCommands : Prop :=
  (∀ (s : State) (i : Instr), s.evtOpen = true → exec i s = .refused .reentrantCommand) ∧
  (∀ (s : State) (w : CmdWord) (rest : List HostInput), s.evtOpen = true → s.input = .word w :: rest →
    step s = .refused .reentrantCommand)

/-- The model's choice (notes/assumptions/5.md): a command that the sink or the flush device issues while its event is open ends the
command it interrupts in the refusal of CV6. First for the two procedures that open an event: Complete with LENGTH at most LINE_MAX + 1, and Render of at most LINE_MAX data bytes or
of two; then, under the invariant, for every command in each form in which it opens one. That a record's row is READ_LINE of its text is
notes/assumptions/8.md, and the extended-address records for LINE_MAX = 1 rest on notes/assumptions/11.md. -/
def Obligations.DeviceCommandEndsTheCommand : Prop :=
  (∀ (e : Bool) (s : State), s.length.toNat ≤ s.cfg.lineMax.toNat + 1 → sinkReenters s = true →
    complete e s = .refused .reentrantCommand) ∧
  (∀ (t : Byte) (a16 : Half) (bytes : List Byte) (s : State), bytes.length ≤ s.cfg.lineMax.toNat ∨ bytes.length ≤ 2 →
    flushReenters s = true → render t a16 bytes s = .refused .reentrantCommand) ∧
  (∀ (s : State), Inv s → s.mode = .read → sinkReenters s = true →
    (s.rstate ≠ .waitForStart → exec .endRead s = .refused .reentrantCommand) ∧
    (∀ c, s.rstate ≠ .waitForStart → c = 0x0A ∨ c = 0x0D ∨ c = 0x00 → exec (.readByte c) s = .refused .reentrantCommand) ∧
    (s.rstate ≠ .waitForStart → s.cfg.strictTruncation = true → exec (.readByte 0x3A) s = .refused .reentrantCommand) ∧
    (∀ c, s.rstate = .countLow → charClass c = .hex → s.cfg.lineMax.toNat < (joinNybbles s.nyb (hexval c)).toNat →
      exec (.readByte c) s = .refused .reentrantCommand) ∧
    (∀ c, s.rstate = .dataLow → charClass c = .hex → s.length = s.lineLength →
      exec (.readByte c) s = .refused .reentrantCommand) ∧
    (∀ (rt : RecordType) (addr : Half) (data : List Byte) (cks : Byte), data.length ≤ 255 →
      exec (recordInstr rt addr data cks) s = .refused .reentrantCommand)) ∧
  (∀ (s : State), Inv s → s.mode = .write → flushReenters s = true →
    (∀ d, s.length + 1 = s.lineLength → ¬FlushMixes s → exec (.writeByte d) s = .refused .reentrantCommand) ∧
    (∀ a, s.length ≠ 0 → ¬FlushMixes s → exec (.writeAtAddress a) s = .refused .reentrantCommand) ∧
    (∀ sg a, s.length ≠ 0 → ¬FlushMixes s → exec (.writeAtSegment sg a) s = .refused .reentrantCommand) ∧
    (∀ sg a, s.length = 0 → s.elaUsed = false → sg ≠ s.segment →
      exec (.writeAtSegment sg a) s = .refused .reentrantCommand) ∧
    (s.length = 0 ∨ ¬FlushMixes s → exec .endWrite s = .refused .reentrantCommand))

/-- 60_exceptions.md rule R107, CV1 to CV4, in the order of rule R109: which commands each MODE refuses, and by which name. That
a record line counts as its READ_BYTE commands is the model's choice (notes/assumptions/8.md). -/
def Obligations.WrongModeCommandsRefused : Prop :=
  ∀ (s : State) (i : Instr), s.evtOpen = false →
    (s.mode = .uninit → isReadCommand i = true ∨ isWriteCommand i = true → exec i s = .refused .notInitialised) ∧
    (s.mode = .write ∨ s.mode = .ended → isReadCommand i = true → exec i s = .refused .wrongMode) ∧
    (s.mode = .read → isWriteCommand i = true → exec i s = .refused .wrongMode) ∧
    (s.mode = .ended → isWriteCommand i = true → exec i s = .refused .writeAfterEnd) ∧
    (s.mode = .write → s.lensetOk = false → ∀ n, exec (.setOutputLineLength n) s = .refused .lineLengthMisplaced)

/-! ## Encodings -/

/-- Words and lines of 95_test_vectors.md decode to what they stand for: one of each command and of each record type. That a line is an
instruction of its own is the model's choice (notes/assumptions/8.md). -/
def Obligations.SpecWordsDecode : Prop :=
  decode (.word 0x0000000000000001) = .ok .beginRead ∧
  decode (.word 0x0800000000000002) = .ok (.beginReadAtAddress 0x08000000) ∧
  decode (.word 0x0000000010000003) = .ok (.beginReadAtSegment 0x1000) ∧
  decode (.word 0x0000000000003A04) = .ok (.readByte 0x3A) ∧
  decode (.word 0x0000000000000005) = .ok .endRead ∧
  decode (.word 0x0000000000000011) = .ok .beginWrite ∧
  decode (.word 0x0000FFFE00000012) = .ok (.writeAtAddress 0x0000FFFE) ∧
  decode (.word 0x0000FFF010000013) = .ok (.writeAtSegment 0x1000 0x0000FFF0) ∧
  decode (.word 0x000000000000AA14) = .ok (.writeByte 0xAA) ∧
  decode (.word 0x0000000000000415) = .ok (.setOutputLineLength 4) ∧
  decode (.word 0x0000000000000016) = .ok .endWrite ∧
  decode (.line [0x3A, 0x30, 0x31, 0x46, 0x46, 0x46, 0x30, 0x30, 0x30, 0x43, 0x43, 0x34, 0x34]) =
    .ok (.recordData 0xFFF0 [0xCC] 0x44) ∧
  decode (.line [0x3A, 0x30, 0x30, 0x30, 0x30, 0x30, 0x30, 0x30, 0x31, 0x46, 0x46]) = .ok (.recordEndOfFile 0 [] 0xFF) ∧
  decode (.line [0x3A, 0x30, 0x32, 0x30, 0x30, 0x30, 0x30, 0x30, 0x32, 0x31, 0x30, 0x30, 0x30, 0x45, 0x43]) =
    .ok (.recordExtendedSegmentAddress 0 [0x10, 0x00] 0xEC) ∧
  decode (.line [0x3A, 0x30, 0x34, 0x30, 0x30, 0x30, 0x30, 0x30, 0x33, 0x30, 0x30, 0x30, 0x30, 0x33, 0x38, 0x30, 0x30,
    0x43, 0x31]) = .ok (.recordStartSegmentAddress 0 [0x00, 0x00, 0x38, 0x00] 0xC1) ∧
  decode (.line [0x3A, 0x30, 0x32, 0x30, 0x30, 0x30, 0x30, 0x30, 0x34, 0x30, 0x30, 0x30, 0x31, 0x46, 0x39]) =
    .ok (.recordExtendedLinearAddress 0 [0x00, 0x01] 0xF9) ∧
  decode (.line [0x3A, 0x30, 0x34, 0x30, 0x30, 0x30, 0x30, 0x30, 0x35, 0x30, 0x38, 0x30, 0x30, 0x30, 0x30, 0x30, 0x30,
    0x45, 0x46]) = .ok (.recordStartLinearAddress 0 [0x08, 0x00, 0x00, 0x00] 0xEF)

/-- No bit of an encoding is dropped: decoding the encoding of a well-formed instruction gives it back. That a line is an instruction of
its own is the model's choice (notes/assumptions/8.md). -/
def Obligations.DecodeOfEncode : Prop := ∀ i : Instr, WellFormed i = true → decode (encode i) = .ok i

/-- Every instruction has one encoding: what decodes to it is its encoding, and it is well formed. For the record rows that is so because
only the encoder's own spelling, in upper-case digits, decodes to a row: the model's choice (notes/assumptions/8.md). A text in another
spelling, such as one with the lower-case digits that 30_encoding.md rule R59 has the decoder accept, is read character by character
instead (statement ReadLineIsItsReadBytes). -/
def Obligations.EncodeOfDecode : Prop :=
  ∀ (h : HostInput) (i : Instr), decode h = .ok i → encode i = h ∧ WellFormed i = true

/-- 30_encoding.md rule R65: the class of every input byte. -/
def Obligations.CharacterClasses : Prop :=
  ∀ c : Byte,
    charClass c =
      if c.toNat = 0x3A then .start
      else if c.toNat = 0x0A ∨ c.toNat = 0x0D ∨ c.toNat = 0x00 then .term
      else if (0x30 ≤ c.toNat ∧ c.toNat ≤ 0x39) ∨ (0x41 ≤ c.toNat ∧ c.toNat ≤ 0x46) ∨ (0x61 ≤ c.toNat ∧ c.toNat ≤ 0x66)
      then .hex else .other

/-- 30_encoding.md rule R66: the value of every hex digit character. -/
def Obligations.HexDigitValues : Prop :=
  ∀ c : Byte,
    (0x30 ≤ c.toNat → c.toNat ≤ 0x39 → (hexval c).toNat = c.toNat - 0x30) ∧
    (0x41 ≤ c.toNat → c.toNat ≤ 0x46 → (hexval c).toNat = c.toNat - 0x41 + 10) ∧
    (0x61 ≤ c.toNat → c.toNat ≤ 0x66 → (hexval c).toNat = c.toNat - 0x61 + 10)

/-- 30_encoding.md rule R58: the CHECKSUM byte by the spec's own formula, and the sum of all bytes of a line that carries it. -/
def Obligations.ChecksumFormula : Prop :=
  ∀ (t : Byte) (addr : Half) (data : List Byte), data.length ≤ 255 →
    (checksum t addr data).toNat =
      (0x100 - (data.length + addr.toNat / 256 + addr.toNat % 256 + t.toNat + (data.map BitVec.toNat).sum) % 256) % 256 ∧
    byteSum (recordBytes t addr data ++ [checksum t addr data]) = 0

/-- 30_encoding.md rule R57, rule R59: a line is `:` and two upper-case digits for each of its bytes LEN, ADDR, TYPE, DATA, CHECKSUM,
11 + 2n characters in all. -/
def Obligations.LineFormat : Prop :=
  ∀ (t : Byte) (addr : Half) (data : List Byte) (cks : Byte), data.length ≤ 255 →
    (lineText t addr data cks).length = 11 + 2 * data.length ∧
    (lineText t addr data cks)[0]? = some 0x3A ∧
    ∀ (k : Nat) (b : Byte),
      ([BitVec.ofNat 8 data.length, addr.extractLsb' 8 8, addr.extractLsb' 0 8, t] ++ data ++ [cks])[k]? = some b →
      ∃ hi lo, (lineText t addr data cks)[1 + 2 * k]? = some hi ∧ (lineText t addr data cks)[2 + 2 * k]? = some lo ∧
        (hexval hi).toNat * 16 + (hexval lo).toNat = b.toNat ∧
        (∀ c, c = hi ∨ c = lo → (0x30 ≤ c.toNat ∧ c.toNat ≤ 0x39) ∨ (0x41 ≤ c.toNat ∧ c.toNat ≤ 0x46))

/-! ## Derived values -/

/-- 20_memory.md rule R41: LINEAR. -/
def Obligations.LinearAddressFormula : Prop :=
  ∀ s : State, s.linear.toNat = (s.address.toNat + s.segment.toNat * 16) % 2 ^ 32

/-- 10_state.md rule R35: OVF_PENDING, with ADDRESS[31:16] as a number. -/
def Obligations.OverflowPending : Prop := ∀ s : State, s.ovfPending = true ↔ s.address.toNat / 2 ^ 16 ≠ s.elaHigh.toNat

/-- 00_scope.md rule R7 and the size of rule R10. -/
def Obligations.DerivedParameters : Prop :=
  ∀ c : Config, (defaultLineLength c).toNat = min 32 c.lineMax.toNat ∧
    lineBufSize c = 11 + 2 * c.lineMax.toNat + (newlineBytes c).length ∧
    ((newlineBytes c).length = 1 ∨ (newlineBytes c).length = 2) ∧ (∀ b ∈ newlineBytes c, b = 0x0A ∨ b = 0x0D) ∧
    lineBufSize Config.reference = 522

/-! ## Power-on and initialisation -/

/-- 70_reset_and_hazards.md rule R121: MODE and EVT_OPEN at power-on, and that only BEGIN_* commands have a meaning then.
That a record line counts as its READ_BYTE commands is the model's choice (notes/assumptions/8.md). -/
def Obligations.PowerOn : Prop :=
  State.reset.mode = .uninit ∧ State.reset.evtOpen = false ∧
  ∀ i : Instr, isReadCommand i = true ∨ isWriteCommand i = true → exec i State.reset = .refused .notInitialised

/-- 40_decoder.md rules R74, R75, R76, accepted in every MODE: every register but DATA and SCRATCH as the rules say. -/
def Obligations.BeginReadStartsStream : Prop :=
  ∀ (s : State) (a : Addr) (sg : Half), s.evtOpen = false →
    let started : State := { s with
      mode := .read, address := 0, segment := 0, rstate := .waitForStart, rtype := .data, nyb := 0, sum := 0,
      lineLength := 0, length := 0, elaHigh := 0, segUsed := false, elaUsed := false, lensetOk := false }
    exec .beginRead s = .next started ∧
    exec (.beginReadAtAddress a) s = .next { started with address := a } ∧
    exec (.beginReadAtSegment sg) s = .next { started with segment := sg }

/-- 41_encoder.md rule R98, accepted in every MODE. -/
def Obligations.BeginWriteStartsStream : Prop :=
  ∀ s : State, s.evtOpen = false →
    exec .beginWrite s = .next { s with
      mode := .write, address := 0, segment := 0, lineLength := BitVec.ofNat 8 (min 32 s.cfg.lineMax.toNat), length := 0,
      elaHigh := 0, segUsed := false, elaUsed := false, lensetOk := true, rstate := .waitForStart, rtype := .data,
      nyb := 0, sum := 0 }

/-- 70_reset_and_hazards.md rule R121: every BEGIN_* command writes every register except DATA and SCRATCH, so that after it nothing but
those two can tell what stood in the registers before. -/
def Obligations.BeginForgetsRegisters : Prop :=
  ∀ (i : Instr) (s s' : State), isReadCommand i = false → isWriteCommand i = false →
    s.evtOpen = false → s'.evtOpen = false → s.cfg = s'.cfg → s.input = s'.input → s.sinkInputs = s'.sinkInputs →
    s.sinkDraws = s'.sinkDraws → s.flushInputs = s'.flushInputs → s.events = s'.events →
    ∃ t t', exec i s = .next t ∧ exec i s' = .next t' ∧ SameButUnspecified t t' ∧
      t.data = s.data ∧ t.scratch = s.scratch

/-! ## The decoder -/

/-- 40_decoder.md rules R80, R82 and, in WAIT_FOR_START, rule R79: the bytes that change nothing. -/
def Obligations.IgnoredBytesChangeNothing : Prop :=
  ∀ (s : State) (c : Byte), ReadReady s →
    charClass c = .other ∨ (s.rstate = .waitForStart ∧ (charClass c = .hex ∨ charClass c = .term)) →
    exec (.readByte c) s = .next s

/-- 40_decoder.md rule R78: `:` starts a line in every state; with STRICT_TRUNCATION a line in progress is completed first, err = 1. -/
def Obligations.StartRestartsLine : Prop :=
  ∀ s : State, Inv s → s.mode = .read →
    (s.cfg.strictTruncation = false ∨ s.rstate = .waitForStart →
      exec (.readByte 0x3A) s = .next { s with
        rstate := .countHigh, lineLength := 0, length := 0, rtype := .data, sum := 0, nyb := 0 }) ∧
    (s.cfg.strictTruncation = true → s.rstate ≠ .waitForStart → sinkReenters s = false →
      exec (.readByte 0x3A) s = .next { delivered true s with
        rstate := .countHigh, lineLength := 0, length := 0, rtype := .data, sum := 0, nyb := 0 })

/-- 40_decoder.md rule R79 and rule R92: a terminator, and END_READ, complete a line in progress with err = 1, and do nothing when no
line is in progress. -/
def Obligations.TerminatorAndEndReadCompleteEarly : Prop :=
  ∀ (s : State) (c : Byte), Inv s → s.mode = .read → c = 0x0A ∨ c = 0x0D ∨ c = 0x00 →
    (s.rstate = .waitForStart → exec (.readByte c) s = .next s ∧ exec .endRead s = .next s) ∧
    (s.rstate ≠ .waitForStart → sinkReenters s = false →
      exec (.readByte c) s = .next (delivered true s) ∧ exec .endRead s = .next (delivered true s))

/-- 40_decoder.md rule R83: the first digit of a pair waits in NYB, and no other register changes. -/
def Obligations.HighDigitWaitsInNyb : Prop :=
  ∀ (s : State) (c : Byte), ReadReady s → charClass c = .hex →
    (s.rstate = .countHigh → exec (.readByte c) s = .next { s with nyb := hexval c, rstate := .countLow }) ∧
    (s.rstate = .addrMsbHigh → exec (.readByte c) s = .next { s with nyb := hexval c, rstate := .addrMsbLow }) ∧
    (s.rstate = .addrLsbHigh → exec (.readByte c) s = .next { s with nyb := hexval c, rstate := .addrLsbLow }) ∧
    (s.rstate = .recordTypeHigh → exec (.readByte c) s = .next { s with nyb := hexval c, rstate := .recordTypeLow }) ∧
    (s.rstate = .dataHigh → exec (.readByte c) s = .next { s with nyb := hexval c, rstate := .dataLow })

/-- 40_decoder.md rule R84: the declared length; above LINE_MAX the line is delivered at once with rtype 0, length 0 and err = 1. -/
def Obligations.CountByteDeclaresLength : Prop :=
  ∀ (s : State) (c b : Byte), Inv s → s.mode = .read → s.rstate = .countLow → charClass c = .hex →
    b = joinNybbles s.nyb (hexval c) →
    (b.toNat ≤ s.cfg.lineMax.toNat →
      exec (.readByte c) s = .next { s with sum := s.sum + b, lineLength := b, rstate := .addrMsbHigh }) ∧
    (s.cfg.lineMax.toNat < b.toNat → sinkReenters s = false →
      exec (.readByte c) s = .next { closeSinkEvent s with
        sum := s.sum + b
        lineLength := b
        evtOpen := false
        events := s.events ++ [.sink
          { rtype := .data, err := true, address := s.address, segment := s.segment,
            linear := linearAddress s.address s.segment, declared := b, length := 0, data := [] }]
        rstate := .waitForStart })

/-- 40_decoder.md rules R85, R86: the ADDR digits write ADDRESS[15:0] as they are parsed, high byte first, and ADDRESS[31:16] is kept. -/
def Obligations.AddressBytesTracked : Prop :=
  ∀ (s : State) (c b : Byte), ReadReady s → charClass c = .hex → b = joinNybbles s.nyb (hexval c) →
    (s.rstate = .addrMsbLow → ∃ a : Addr,
      exec (.readByte c) s = .next { s with sum := s.sum + b, address := a, rstate := .addrLsbHigh } ∧
      a.toNat = s.address.toNat / 2 ^ 16 * 2 ^ 16 + b.toNat * 256) ∧
    (s.rstate = .addrLsbLow → ∃ a : Addr,
      exec (.readByte c) s = .next { s with sum := s.sum + b, address := a, rstate := .recordTypeHigh } ∧
      a.toNat = s.address.toNat / 256 * 256 + b.toNat)

/-- 40_decoder.md rule R87: a TYPE byte above 5 drops the line with no event; one of 0..5 is the line's type. -/
def Obligations.TypeByteSetsOrDrops : Prop :=
  ∀ (s : State) (c b : Byte), ReadReady s → s.rstate = .recordTypeLow → charClass c = .hex →
    b = joinNybbles s.nyb (hexval c) →
    (5 < b.toNat → exec (.readByte c) s = .next { s with rstate := .waitForStart, length := 0 }) ∧
    (b.toNat ≤ 5 → ∃ ty : RecordType, ty.typeByte = b ∧
      exec (.readByte c) s = .next { s with rtype := ty, sum := s.sum + b, rstate := .dataHigh })

/-- 40_decoder.md rule R88: a data byte goes to DATA[LENGTH]; the byte after the declared ones is the checksum, and the line is delivered
with err = (SUM ≠ 0). -/
def Obligations.DataByteStoredOrLineChecked : Prop :=
  ∀ (s : State) (c b : Byte), Inv s → s.mode = .read → s.rstate = .dataLow → charClass c = .hex →
    b = joinNybbles s.nyb (hexval c) →
    let stored : State := { s with sum := s.sum + b, data := s.data.write s.length.toNat b }
    stored.data.read s.length.toNat = b ∧
    (s.length.toNat < s.lineLength.toNat →
      exec (.readByte c) s = .next { stored with length := s.length + 1, rstate := .dataHigh }) ∧
    (s.length = s.lineLength → sinkReenters s = false →
      exec (.readByte c) s = .next (delivered (s.sum + b != 0) stored)) ∧
    s.length.toNat ≤ s.lineLength.toNat

/-- 40_decoder.md rules R90, R91: Complete(e) emits one SinkEvent of the registers as they stand, takes one answer, updates the tracker
from an extended-address record of at least two bytes exactly if it is accepted, and goes on. -/
def Obligations.CompleteDeliversLine : Prop :=
  ∀ (e : Bool) (s : State), s.evtOpen = false → s.length.toNat ≤ s.cfg.lineMax.toNat + 1 → sinkReenters s = false →
    complete e s = .next (delivered e s)

/-- 40_decoder.md rule R77: READ_BYTE has a next state on every byte value, in every parse state. -/
def Obligations.ReadByteTotal : Prop :=
  ∀ (s : State) (c : Byte), Inv s → s.mode = .read → sinkReenters s = false → ∃ t, exec (.readByte c) s = .next t

/-- What the read-mode commands leave alone, and the only bytes of DATA they write. The record rows are among them as READ_LINE of their
text (notes/assumptions/8.md). That SCRATCH, between FlushEvents, keeps its bytes is notes/assumptions/20.md. -/
def Obligations.ReadCommandsFrame : Prop :=
  ∀ (i : Instr) (s t : State), isReadCommand i = true → exec i s = .next t →
    (t.mode = s.mode ∧ t.elaHigh = s.elaHigh ∧ t.segUsed = s.segUsed ∧ t.elaUsed = s.elaUsed ∧ t.lensetOk = s.lensetOk ∧
      t.scratch = s.scratch ∧ t.evtOpen = s.evtOpen ∧ t.cfg = s.cfg ∧ t.input = s.input ∧
      t.flushInputs = s.flushInputs) ∧
    (i = .endRead → t.data = s.data ∧ t.lineLength = s.lineLength ∧ t.rtype = s.rtype ∧ t.nyb = s.nyb ∧ t.sum = s.sum) ∧
    (∀ c, i = .readByte c →
      (s.data.wf → ∀ k, k ≠ s.length.toNat → t.data.read k = s.data.read k) ∧
      (s.rstate ≠ .dataLow ∨ charClass c ≠ .hex → t.data = s.data))

/-- 30_encoding.md rules R62, R72 with 40_decoder.md rules R77 to R91: a whole line of any record type, read while no line is in
progress, or while one is and STRICT_TRUNCATION does not report it, gives exactly one SinkEvent with the line's fields, err exactly if
the CHECKSUM is wrong, and the tracker's update; then the end value of every register and port. That a record's row is READ_LINE of its
text is the model's choice (notes/assumptions/8.md), and so is that SCRATCH, between FlushEvents, keeps its bytes
(notes/assumptions/20.md). -/
def Obligations.RecordLineDelivered : Prop :=
  ∀ (rt : RecordType) (addr : Half) (data : List Byte) (cks : Byte) (s : State), Inv s → s.mode = .read →
    s.rstate = .waitForStart ∨ s.cfg.strictTruncation = false → sinkReenters s = false →
    data.length ≤ s.cfg.lineMax.toNat →
    ∃ t, exec (recordInstr rt addr data cks) s = .next t ∧
      t.events = s.events ++ [.sink
        { rtype := rt, err := cks != checksum rt.typeByte addr data, address := joinHalves (highHalf s.address) addr,
          segment := s.segment, linear := linearAddress (joinHalves (highHalf s.address) addr) s.segment,
          declared := BitVec.ofNat 8 data.length, length := BitVec.ofNat 8 data.length, data := data }] ∧
      t.address =
        (if sinkAccept s = true ∧ rt = .extendedLinearAddress ∧ 2 ≤ data.length
         then joinHalves (joinBytes (data.getD 0 0) (data.getD 1 0)) addr else joinHalves (highHalf s.address) addr) ∧
      t.segment =
        (if sinkAccept s = true ∧ rt = .extendedSegmentAddress ∧ 2 ≤ data.length
         then joinBytes (data.getD 0 0) (data.getD 1 0) else s.segment) ∧
      t.rstate = .waitForStart ∧ t.length = 0 ∧ t.lineLength = BitVec.ofNat 8 data.length ∧ t.rtype = rt ∧
      t.sum = byteSum (recordBytes rt.typeByte addr data) + cks ∧ t.nyb = cks.extractLsb' 4 4 ∧
      (∀ k, t.data.read k =
        if k < data.length then data.getD k 0 else if k = data.length then cks else s.data.read k) ∧
      t.sinkInputs = (closeSinkEvent s).sinkInputs ∧ t.sinkDraws = (closeSinkEvent s).sinkDraws ∧
      t.mode = s.mode ∧ t.elaHigh = s.elaHigh ∧ t.segUsed = s.segUsed ∧ t.elaUsed = s.elaUsed ∧ t.lensetOk = s.lensetOk ∧
      t.scratch = s.scratch ∧ t.evtOpen = false ∧ t.cfg = s.cfg ∧ t.input = s.input ∧ t.flushInputs = s.flushInputs

/-- 40_decoder.md rule R84 for a whole line (EC2): a record longer than LINE_MAX is reported once, at its LEN byte, and the rest of the
line is ignored (rule R82). The registers of a fresh line are rule R78's, and NYB is rule R83's. That a record's row is READ_LINE of its
text (30_encoding.md rule R72) is the model's choice (notes/assumptions/8.md). -/
def Obligations.OverlongRecordLine : Prop :=
  ∀ (rt : RecordType) (addr : Half) (data : List Byte) (cks : Byte) (s : State), Inv s → s.mode = .read →
    s.rstate = .waitForStart ∨ s.cfg.strictTruncation = false → sinkReenters s = false →
    s.cfg.lineMax.toNat < data.length → data.length ≤ 255 →
    exec (recordInstr rt addr data cks) s = .next { closeSinkEvent s with
      evtOpen := false
      events := s.events ++ [.sink
        { rtype := .data, err := true, address := s.address, segment := s.segment,
          linear := linearAddress s.address s.segment, declared := BitVec.ofNat 8 data.length, length := 0, data := [] }]
      rstate := .waitForStart
      lineLength := BitVec.ofNat 8 data.length
      length := 0
      rtype := .data
      sum := BitVec.ofNat 8 data.length
      nyb := (BitVec.ofNat 8 data.length).extractLsb' 4 4 }

/-- 40_decoder.md rule R78 for a whole line (EC6): with STRICT_TRUNCATION a line in progress is delivered with err = 1 first, and the
record's line then reads as it does when no line is in progress. That a record's row is READ_LINE of its text is the model's choice
(notes/assumptions/8.md). -/
def Obligations.StrictRecordLineReportsTruncation : Prop :=
  ∀ (rt : RecordType) (addr : Half) (data : List Byte) (cks : Byte) (s : State), Inv s → s.mode = .read →
    s.rstate ≠ .waitForStart → s.cfg.strictTruncation = true → sinkReenters s = false →
    (delivered true s).rstate = .waitForStart ∧
    exec (recordInstr rt addr data cks) s = exec (recordInstr rt addr data cks) (delivered true s)

/-- 90_conflicts.md C9, the checksum property as it holds: a line whose ADDR, DATA and CHECKSUM bytes differ in exactly one place from those
of a correct line of the same type and length is reported with err = 1. That a record's row is READ_LINE of its text is the model's
choice (notes/assumptions/8.md). -/
def Obligations.SingleByteErrorReported : Prop :=
  ∀ (rt : RecordType) (addr addr' : Half) (data data' : List Byte) (cks cks' : Byte) (k : Nat) (s : State), Inv s →
    s.mode = .read → s.rstate = .waitForStart ∨ s.cfg.strictTruncation = false → sinkReenters s = false →
    data'.length ≤ s.cfg.lineMax.toNat →
    cks = checksum rt.typeByte addr data → data'.length = data.length →
    (halfBytes addr ++ data ++ [cks])[k]? ≠ (halfBytes addr' ++ data' ++ [cks'])[k]? →
    (∀ j, j ≠ k → (halfBytes addr ++ data ++ [cks])[j]? = (halfBytes addr' ++ data' ++ [cks'])[j]?) →
    ∃ t e, exec (recordInstr rt addr' data' cks') s = .next t ∧ t.events = s.events ++ [.sink e] ∧ e.err = true ∧
      e.rtype = rt ∧ e.data = data'

/-! ## The encoder -/

/-- 41_encoder.md rule R95: Render puts the line into SCRATCH from index 0 on, emits it as one FlushEvent, and changes nothing else. While
the event is open SCRATCH's prefix is the line; of SCRATCH after the event this says nothing (93_implementation_defined.md I11). -/
def Obligations.RenderEmitsOneLine : Prop :=
  ∀ (t : Byte) (a16 : Half) (bytes : List Byte) (s : State), Inv s → flushReenters s = false →
    bytes.length ≤ s.cfg.lineMax.toNat →
    let line : List Byte := renderedLine s.cfg t a16 bytes
    let opened : State := openFlushEvent line s
    (∃ u, render t a16 bytes s = .next u ∧ { u with scratch := [] } = { emitted t a16 bytes s with scratch := [] }) ∧
    opened.evtOpen = true ∧ opened.events = s.events ++ [.flush line] ∧ opened.scratch.readTo line.length = line ∧
    (∀ k, line.length ≤ k → opened.scratch.read k = s.scratch.read k) ∧
    line.length = 11 + 2 * bytes.length + (newlineBytes s.cfg).length ∧ line.length ≤ lineBufSize s.cfg

/-- The model's choice (notes/assumptions/11.md): the two data bytes of an extended-address record render even for LINE_MAX = 1, where
they are more than LINE_MAX. The FlushEvent is then the whole line, and SCRATCH has no byte at LINE_BUF_SIZE or above. What it
holds after the event is notes/assumptions/20.md. -/
def Obligations.ExtendedRecordRenders : Prop :=
  ∀ (t : Byte) (h : Half) (s : State), Inv s → flushReenters s = false →
    render t 0x0000 (halfBytes h) s = .next (emitted t 0x0000 (halfBytes h) s) ∧
    (emitted t 0x0000 (halfBytes h) s).events = s.events ++ [.flush (renderedLine s.cfg t 0x0000 (halfBytes h))] ∧
    (emitted t 0x0000 (halfBytes h) s).scratch.below (lineBufSize s.cfg)

/-- 41_encoder.md rules R96, R97: FlushLine emits the pending bytes as one DATA line at the line's start address, preceded by an
EXTENDED_LINEAR_ADDRESS record exactly if ADDRESS[31:16] is not in effect; a segmented stream that needs one is refused (CV5). Its
extended-address records for LINE_MAX = 1 rest on notes/assumptions/11.md. What SCRATCH holds after a FlushEvent is
notes/assumptions/20.md. -/
def Obligations.FlushLineEmitsDataLine : Prop :=
  ∀ s : State, Inv s → s.mode = .write → FlushDutiful s →
    (¬FlushMixes s → flushLine s = .next (lineFlushed s)) ∧
    (FlushMixes s → flushLine s = .refused .segmentLinearMix)

/-- 41_encoder.md rule R101: WRITE_BYTE appends its byte, and flushes the line that it fills. Its extended-address records for
LINE_MAX = 1 rest on notes/assumptions/11.md. What SCRATCH holds after a FlushEvent is notes/assumptions/20.md. -/
def Obligations.WriteByteAppendsAndFlushes : Prop :=
  ∀ (s : State) (d : Byte), Inv s → s.mode = .write →
    let appended : State :=
      { s with data := s.data.write s.length.toNat d, length := s.length + 1, lensetOk := false }
    (s.length + 1 ≠ s.lineLength → exec (.writeByte d) s = .next appended) ∧
    (s.length + 1 = s.lineLength → FlushDutiful s → ¬FlushMixes s →
      exec (.writeByte d) s = .next (lineFlushed appended)) ∧
    (s.length + 1 = s.lineLength → FlushDutiful s → FlushMixes s → exec (.writeByte d) s = .refused .segmentLinearMix) ∧
    (∀ k, appended.data.read k = if k = s.length.toNat then d else s.data.read k)

/-- 41_encoder.md rule R99: WRITE_AT_ADDRESS flushes the pending bytes, then moves. Its extended-address records for
LINE_MAX = 1 rest on notes/assumptions/11.md. What SCRATCH holds after a FlushEvent is notes/assumptions/20.md. -/
def Obligations.WriteAtAddressFlushesAndMoves : Prop :=
  ∀ (s : State) (a : Addr), Inv s → s.mode = .write → FlushDutiful s →
    (s.length = 0 ∨ ¬FlushMixes s →
      exec (.writeAtAddress a) s = .next { pendingFlushed s with address := a, lensetOk := true }) ∧
    (s.length ≠ 0 → FlushMixes s → exec (.writeAtAddress a) s = .refused .segmentLinearMix)

/-- 41_encoder.md rule R100: WRITE_AT_SEGMENT flushes the pending bytes, emits an EXTENDED_SEGMENT_ADDRESS record exactly if the segment
changes, and moves; it is refused once the stream has emitted an EXTENDED_LINEAR_ADDRESS record (CV5), and where its own flush would
need one in a segmented stream (rule R96). Its extended-address records for LINE_MAX = 1 rest on notes/assumptions/11.md. What SCRATCH
holds after a FlushEvent is notes/assumptions/20.md. -/
def Obligations.WriteAtSegmentEmitsOnChange : Prop :=
  ∀ (s : State) (sg : Half) (a : Addr), Inv s → s.mode = .write → FlushDutiful s →
    (s.length = 0 ∨ ¬FlushMixes s →
      ((pendingFlushed s).elaUsed = false → sg = s.segment →
        exec (.writeAtSegment sg a) s = .next { pendingFlushed s with segUsed := true, address := a, lensetOk := true }) ∧
      ((pendingFlushed s).elaUsed = false → sg ≠ s.segment →
        exec (.writeAtSegment sg a) s = .next
          { emitted 0x02 0x0000 [sg.extractLsb' 8 8, sg.extractLsb' 0 8] (pendingFlushed s) with
            segment := sg, segUsed := true, address := a, lensetOk := true }) ∧
      ((pendingFlushed s).elaUsed = true → exec (.writeAtSegment sg a) s = .refused .segmentLinearMix)) ∧
    (s.length ≠ 0 → FlushMixes s → exec (.writeAtSegment sg a) s = .refused .segmentLinearMix)

/-- 41_encoder.md rule R102: SET_OUTPUT_LINE_LENGTH clamps to LINE_MAX, and 0 gives the default. -/
def Obligations.SetOutputLineLengthClamps : Prop :=
  ∀ (s : State) (n : Byte), WriteReady s → s.lensetOk = true →
    exec (.setOutputLineLength n) s = .next { s with
      lineLength := BitVec.ofNat 8 (if n = 0 then min 32 s.cfg.lineMax.toNat else min n.toNat s.cfg.lineMax.toNat) }

/-- 41_encoder.md rule R103: END_WRITE flushes the pending bytes, emits the END_OF_FILE line `:00000001FF` and ends the stream. Its
extended-address records for LINE_MAX = 1 rest on notes/assumptions/11.md. What SCRATCH holds after a FlushEvent is
notes/assumptions/20.md. -/
def Obligations.EndWriteEmitsEndOfFile : Prop :=
  (∀ s : State, Inv s → s.mode = .write → FlushDutiful s →
    (s.length = 0 ∨ ¬FlushMixes s →
      exec .endWrite s = .next { emitted 0x01 0x0000 [] (pendingFlushed s) with mode := .ended, lensetOk := false }) ∧
    (s.length ≠ 0 → FlushMixes s → exec .endWrite s = .refused .segmentLinearMix)) ∧
  lineText 0x01 0x0000 [] (checksum 0x01 0x0000 []) =
    [0x3A, 0x30, 0x30, 0x30, 0x30, 0x30, 0x30, 0x30, 0x31, 0x46, 0x46]

/-- What the write-mode commands leave alone, and the only byte of DATA they write. That SET_OUTPUT_LINE_LENGTH leaves SCRATCH, between
FlushEvents, as it was is notes/assumptions/20.md. -/
def Obligations.WriteCommandsFrame : Prop :=
  ∀ (i : Instr) (s t : State), isWriteCommand i = true → exec i s = .next t →
    (t.rstate = s.rstate ∧ t.rtype = s.rtype ∧ t.nyb = s.nyb ∧ t.sum = s.sum ∧ t.evtOpen = s.evtOpen ∧ t.cfg = s.cfg ∧
      t.input = s.input ∧ t.sinkInputs = s.sinkInputs ∧ t.sinkDraws = s.sinkDraws) ∧
    ((∀ d, i ≠ .writeByte d) → t.data = s.data) ∧
    ((∃ d, i = .writeByte d) → s.data.wf → ∀ k, k ≠ s.length.toNat → t.data.read k = s.data.read k) ∧
    (i ≠ .endWrite → t.mode = s.mode) ∧
    ((∀ n, i ≠ .setOutputLineLength n) → t.lineLength = s.lineLength) ∧
    ((∀ sg a, i ≠ .writeAtSegment sg a) → t.segment = s.segment ∧ t.segUsed = s.segUsed) ∧
    ((∃ n, i = .setOutputLineLength n) →
      t.address = s.address ∧ t.length = s.length ∧ t.elaHigh = s.elaHigh ∧ t.elaUsed = s.elaUsed ∧
      t.lensetOk = s.lensetOk ∧ t.scratch = s.scratch ∧ t.flushInputs = s.flushInputs ∧ t.events = s.events)

/-- 41_encoder.md rule R104 items 1 to 3: whatever a write-mode command emits is a whole record with a correct checksum: DATA lines of 1 to
LINE_LENGTH bytes, the END_OF_FILE record at END_WRITE only, an EXTENDED_SEGMENT_ADDRESS record at WRITE_AT_SEGMENT only, and an
EXTENDED_LINEAR_ADDRESS record only for an ADDRESS[31:16] that was not in effect. That an extended-address record goes out whole for
LINE_MAX = 1 too is the model's choice (notes/assumptions/11.md). -/
def Obligations.WriteCommandsEmitRecords : Prop :=
  ∀ (i : Instr) (s t : State), Inv s → isWriteCommand i = true → exec i s = .next t →
    ∃ new, t.events = s.events ++ new ∧ ∀ e ∈ new, ∃ (ty : RecordType) (a16 : Half) (bytes : List Byte),
      e = .flush (renderedLine s.cfg ty.typeByte a16 bytes) ∧
      ((ty = .data ∧ a16 = lowHalf s.address ∧ 1 ≤ bytes.length ∧ bytes.length ≤ s.lineLength.toNat) ∨
       (ty = .endOfFile ∧ a16 = 0 ∧ bytes = [] ∧ i = .endWrite) ∨
       (ty = .extendedSegmentAddress ∧ a16 = 0 ∧ ∃ sg a, i = .writeAtSegment sg a ∧ sg ≠ s.segment ∧ bytes = halfBytes sg) ∨
       (ty = .extendedLinearAddress ∧ a16 = 0 ∧ s.ovfPending = true ∧ bytes = halfBytes (highHalf s.address)))

/-! ## The whole machine -/

/-- 00_scope.md rule R14, 70_reset_and_hazards.md rule R126: the status read gives the registers; the sink that reads DATA while its event
is open reads the event's data; and no DATA byte is readable while no event is open. That a status read is a function of the
state, and that one during a FlushEvent, where the rules allow none, gives the registers too, is the model's choice
(notes/assumptions/18.md). -/
def Obligations.StatusReadGivesRegisters : Prop :=
  ∀ (e : Bool) (s : State),
    s.status = { mode := s.mode.code, address := s.address, segment := s.segment, lineLength := s.lineLength, length := s.length } ∧
    (openSinkEvent e s).status = s.status ∧
    (s.mode = .read → (openSinkEvent e s).readableData = some (sinkEventOf e s).data) ∧
    (s.evtOpen = false → s.readableData = none)

/-- The invariant of 10_state.md rule R38 holds at power-on. The canonical form of the memories in it is the model's
(notes/assumptions/3.md). -/
def Obligations.InvariantAtReset : Prop := Inv State.reset

/-- Every step keeps it: the bounds of 10_state.md rule R38 and the rules beside it, DATA within its LINE_MAX + 1 bytes (rule R24) and
SCRATCH within its LINE_BUF_SIZE bytes (rule R33, 00_scope.md rule R10), for LINE_MAX = 1 too, where SCRATCH takes no more of an
extended-address record's line than that (the model's choice, notes/assumptions/11.md). The canonical form of the memories is the
model's (notes/assumptions/3.md). -/
def Obligations.InvariantKept : Prop := ∀ s t : State, Inv s → step s = .next t → Inv t

/-- No step from it faults: no index outside DATA or SCRATCH is ever touched. The two faults are the model's (notes/assumptions/10.md).
For LINE_MAX = 1 an extended-address record's line is longer than SCRATCH; that Render goes on there, and writes only what
SCRATCH holds, is the model's choice (notes/assumptions/11.md). -/
def Obligations.NoStepFaults : Prop := ∀ (s : State) (f : Fault), Inv s → step s ≠ .fault f

/-- 10_state.md rule R19: the four encodings of MODE, what the BEGIN_* commands and END_WRITE write, and that no other command writes
it. -/
def Obligations.OnlyBeginAndEndWriteMode : Prop :=
  (Mode.code .uninit = 0 ∧ Mode.code .read = 1 ∧ Mode.code .write = 2 ∧ Mode.code .ended = 3) ∧
  ∀ (i : Instr) (s t : State), exec i s = .next t →
    (i = .beginRead ∨ (∃ a, i = .beginReadAtAddress a) ∨ (∃ sg, i = .beginReadAtSegment sg) → t.mode = .read) ∧
    (i = .beginWrite → t.mode = .write) ∧
    (i = .endWrite → t.mode = .ended) ∧
    (i ≠ .endWrite → isReadCommand i = true ∨ isWriteCommand i = true → t.mode = s.mode)

/-- 20_memory.md rules R50, R53: events already emitted stand, and a step only adds to them after the older ones. That the state holds the
list of them is the model's choice (notes/assumptions/6.md). 00_scope.md section 3 (rules R6 to R9): the parameters are fixed for
the machine, so no step changes them. That the state carries them is the model's choice (notes/assumptions/1.md). -/
def Obligations.EventsOnlyAppended : Prop :=
  ∀ s t : State, step s = .next t → (∃ new, t.events = s.events ++ new) ∧ t.cfg = s.cfg

/-- 10_state.md rule R24, 70_reset_and_hazards.md rules R121, R125: no event and no register ever depends on DATA from LENGTH on or on
SCRATCH between events. -/
def Obligations.UnspecifiedBytesNeverMatter : Prop :=
  ∀ (i : Instr) (s s' : State), SameButUnspecified s s' → s.data.wf → s'.data.wf → s.scratch.wf → s'.scratch.wf →
    SameOutcome (exec i s) (exec i s')

/-- What the encoder renders, the decoder reads back: one record with its terminator, of any type, gives one SinkEvent with the same
type, address, data and err = 0. -/
def Obligations.RenderedLineReadsBack : Prop :=
  ∀ (c : Config) (rt : RecordType) (addr : Half) (data : List Byte) (s : State), Inv s → s.mode = .read →
    s.rstate = .waitForStart ∨ s.cfg.strictTruncation = false → sinkReenters s = false →
    data.length ≤ s.cfg.lineMax.toNat →
    ∃ t, readText (renderedLine c rt.typeByte addr data) s = .next t ∧ t.rstate = .waitForStart ∧
      t.events = s.events ++ [.sink
        { rtype := rt, err := false, address := joinHalves (highHalf s.address) addr, segment := s.segment,
          linear := linearAddress (joinHalves (highHalf s.address) addr) s.segment,
          declared := BitVec.ofNat 8 data.length, length := BitVec.ofNat 8 data.length, data := data }]

/-- 41_encoder.md rule R104 item 5, the round trip: a write stream with no refusal, fed back through a decoder whose sink accepts every
record, places every written byte at its address, in order and with no error. The premise 2 ≤ LINE_MAX is the model's: with
LINE_MAX = 1 the decoder cannot take the two data bytes of an extended-address record (notes/assumptions/11.md). -/
def Obligations.WriteStreamReadsBack : Prop :=
  ∀ (cmds : List Instr) (s t r : State) (es : List PortEvent), Inv s → FlushDutiful s →
    (∀ i ∈ cmds, isWriteCommand i = true ∧ i ≠ .endWrite) →
    execAll (.beginWrite :: cmds ++ [.endWrite]) s = .next t → t.events = s.events ++ es →
    Inv r → r.mode = .read → r.rstate = .waitForStart → r.address = 0 → r.segment = 0 →
    s.cfg.lineMax.toNat ≤ r.cfg.lineMax.toNat → 2 ≤ r.cfg.lineMax.toNat →
    (∃ n more, es.length ≤ n ∧ r.sinkInputs = List.replicate n (.answer true) ++ more) →
    ∃ u fs, readText (outputStream es) r = .next u ∧ u.events = r.events ++ fs ∧
      sinkPlaces fs = hostWrites (.beginWrite :: cmds ++ [.endWrite]) s ∧ ∀ e, PortEvent.sink e ∈ fs → e.err = false

/-- The canonical form of the memories: two that read alike everywhere are equal data. The form is the model's, no rule of the spec
(notes/assumptions/3.md). -/
def Obligations.CanonicalMemoriesEqual : Prop :=
  ∀ m m' : Memory, m.wf → m'.wf → (∀ i, m.read i = m'.read i) → m = m'

/-- The model's choice (notes/assumptions/20.md): after a FlushEvent SCRATCH keeps the line that was rendered, and beyond it what it held
before. 93_implementation_defined.md I11 leaves SCRATCH outside an open FlushEvent any value; statement UnspecifiedBytesNeverMatter
says that no outcome depends on it. -/
def Obligations.ScratchKeepsLine : Prop :=
  ∀ (t : Byte) (a16 : Half) (bytes : List Byte) (s : State), Inv s → flushReenters s = false →
    bytes.length ≤ s.cfg.lineMax.toNat →
    render t a16 bytes s = .next (emitted t a16 bytes s) ∧
    (emitted t a16 bytes s).scratch.readTo (renderedLine s.cfg t a16 bytes).length = renderedLine s.cfg t a16 bytes ∧
    ∀ k, (renderedLine s.cfg t a16 bytes).length ≤ k → (emitted t a16 bytes s).scratch.read k = s.scratch.read k
end

