-- ==== Sys2Proof/Laws/Encoding.lean ====
section
/-! SUPPORT. The laws of the fields and of the digits: what each field of a built word is, that a word is its fields, that the two digits
of a byte spell it, and how the decoder sorts them. -/

namespace Sys2Proof

/-! ## Fields -/

theorem extract_append_low {n m : Nat} (x : BitVec n) (y : BitVec m) : (x ++ y).extractLsb' 0 m = y := by
  ext i h
  simp [BitVec.getLsbD_append, h]

theorem extract_append_low_part {n m : Nat} (x : BitVec n) (y : BitVec m) (k j : Nat) (h : k + j ≤ m) :
    (x ++ y).extractLsb' k j = y.extractLsb' k j := by
  ext i hi
  have : k + i < m := by omega
  simp [BitVec.getLsbD_append, this]

theorem extract_append_high {n m : Nat} (x : BitVec n) (y : BitVec m) (k j : Nat) :
    (x ++ y).extractLsb' (m + k) j = x.extractLsb' k j := by
  ext i h
  have h1 : ¬ m + k + i < m := by omega
  have h2 : m + k + i - m = k + i := by omega
  simp [BitVec.getLsbD_append, h1, h2]

theorem extract_all {n : Nat} (x : BitVec n) : x.extractLsb' 0 n = x := by
  ext i h
  simp

@[simp] theorem opField_commandWord (a : Addr) (sg : Half) (b op : Byte) : opField (commandWord a sg b op) = op :=
  extract_append_low (a ++ sg ++ b) op

@[simp] theorem bField_commandWord (a : Addr) (sg : Half) (b op : Byte) : bField (commandWord a sg b op) = b :=
  (extract_append_high (a ++ sg ++ b) op 0 8).trans (extract_append_low (a ++ sg) b)

@[simp] theorem sField_commandWord (a : Addr) (sg : Half) (b op : Byte) : sField (commandWord a sg b op) = sg :=
  ((extract_append_high (a ++ sg ++ b) op 8 16).trans (extract_append_high (a ++ sg) b 0 16)).trans
    (extract_append_low a sg)

@[simp] theorem aField_commandWord (a : Addr) (sg : Half) (b op : Byte) : aField (commandWord a sg b op) = a :=
  (((extract_append_high (a ++ sg ++ b) op 24 32).trans (extract_append_high (a ++ sg) b 16 32)).trans
    (extract_append_high a sg 0 32)).trans (extract_all a)

/-- A word is its four fields. -/
theorem commandWord_fields (w : CmdWord) : commandWord (aField w) (sField w) (bField w) (opField w) = w := by
  unfold opField bField sField aField commandWord
  ext i hi
  simp only [BitVec.getElem_append, BitVec.getElem_extractLsb']
  split
  · simp [BitVec.getLsbD_eq_getElem, hi]
  · split
    · have : 8 + (i - 8) = i := by omega
      simp [this, BitVec.getLsbD_eq_getElem, hi]
    · split
      · have : 16 + (i - 8 - 8) = i := by omega
        simp [this, BitVec.getLsbD_eq_getElem, hi]
      · have : 32 + (i - 8 - 8 - 16) = i := by omega
        simp [this, BitVec.getLsbD_eq_getElem, hi]

@[simp] theorem highHalf_joinHalves (hi lo : Half) : Machine.highHalf (Machine.joinHalves hi lo) = hi :=
  (extract_append_high hi lo 0 16).trans (extract_all hi)

@[simp] theorem lowHalf_joinHalves (hi lo : Half) : Machine.lowHalf (Machine.joinHalves hi lo) = lo :=
  extract_append_low hi lo

/-- An address is its two halves. -/
@[simp] theorem joinHalves_halves (a : Addr) : Machine.joinHalves (Machine.highHalf a) (Machine.lowHalf a) = a := by
  unfold Machine.highHalf Machine.lowHalf Machine.joinHalves
  ext i h
  simp only [BitVec.getElem_append, BitVec.getElem_extractLsb']
  split
  · simp [BitVec.getLsbD_eq_getElem, h]
  · have : 16 + (i - 16) = i := by omega
    simp [this, BitVec.getLsbD_eq_getElem, h]

/-- A 16-bit value is its two bytes. -/
@[simp] theorem joinBytes_halves (h : Half) : joinBytes (h.extractLsb' 8 8) (h.extractLsb' 0 8) = h := by
  unfold joinBytes
  ext i hi
  simp only [BitVec.getElem_append, BitVec.getElem_extractLsb']
  split
  · simp [BitVec.getLsbD_eq_getElem, hi]
  · have : 8 + (i - 8) = i := by omega
    simp [this, BitVec.getLsbD_eq_getElem, hi]

theorem halfBytes_joinBytes (hi lo : Byte) : halfBytes (joinBytes hi lo) = [hi, lo] :=
  congr (congrArg List.cons ((extract_append_high hi lo 0 8).trans (extract_all hi)))
    (congrArg (fun b => [b]) (extract_append_low hi lo))

/-- Bits [15:8] of an address are the high byte of its low half. -/
theorem extract_joinHalves_high (hi : Half) (b1 b0 : Byte) :
    (Machine.joinHalves hi (joinBytes b1 b0)).extractLsb' 8 8 = b1 :=
  (extract_append_low_part hi (joinBytes b1 b0) 8 8 (by omega)).trans
    ((extract_append_high b1 b0 0 8).trans (extract_all b1))

/-! ## Digits -/

/-- A byte is its two nybbles. -/
@[simp] theorem joinNybbles_halves (b : Byte) : joinNybbles (b.extractLsb' 4 4) (b.extractLsb' 0 4) = b := by
  revert b; decide

theorem extract_joinNybbles (hi lo : Nybble) :
    (joinNybbles hi lo).extractLsb' 4 4 = hi ∧ (joinNybbles hi lo).extractLsb' 0 4 = lo := by
  revert hi lo; decide

/-- The digit the encoder emits has the value it stands for. -/
@[simp] theorem hexval_hexDigit (v : Nybble) : hexval (hexDigit v) = v := by revert v; decide

@[simp] theorem upperHexval_hexDigit (v : Nybble) : upperHexval (hexDigit v) = some v := by revert v; decide

/-- The decoder sorts the digit the encoder emits as HEX. -/
@[simp] theorem charClass_hexDigit (v : Nybble) : Machine.charClass (hexDigit v) = .hex := by revert v; decide

/-- An upper-case digit is the one the encoder emits for its value. -/
theorem hexDigit_of_upperHexval {c : Byte} {v : Nybble} (h : upperHexval c = some v) : hexDigit v = c := by
  have all : ∀ c : Byte, ∀ v ∈ upperHexval c, hexDigit v = c := by decide
  exact all c v h

/-- The digits of a list of bytes spell it. -/
theorem hexBytes_flatMap_hex2 (bs : List Byte) : hexBytes (bs.flatMap hex2) = some bs := by
  induction bs with
  | nil => rfl
  | cons b bs ih => simp [hex2, hexBytes, ih]

/-- Digits that spell a list of bytes are the ones the encoder emits for it. -/
theorem flatMap_hex2_of_hexBytes : ∀ (cs bs : List Byte), hexBytes cs = some bs → bs.flatMap hex2 = cs
  | [], bs, h => by cases h; rfl
  | [_], _, h => by cases h
  | c1 :: c2 :: cs, bs, h => by
    simp only [hexBytes] at h
    split at h
    · next hi lo bs' h1 h2 h3 =>
      cases h
      simp [hex2, extract_joinNybbles, hexDigit_of_upperHexval h1, hexDigit_of_upperHexval h2,
        flatMap_hex2_of_hexBytes cs bs' h3]
    · cases h

/-! ## Record types -/

@[simp] theorem recordTypeOf_typeByte (t : RecordType) : recordTypeOf t.typeByte = some t := by cases t <;> rfl

theorem typeByte_of_recordTypeOf {b : Byte} {t : RecordType} (h : recordTypeOf b = some t) : t.typeByte = b := by
  have all : ∀ b : Byte, ∀ t ∈ recordTypeOf b, t.typeByte = b := by decide
  exact all b t h

/-- The known types are the bytes 0..5. -/
theorem recordTypeOf_eq_none (b : Byte) : recordTypeOf b = none ↔ 5 < b.toNat := by revert b; decide

/-! ## Inputs -/

/-- A word decodes exactly to the command it holds. -/
theorem decode_word_eq_ok {w : CmdWord} {i : Instr} : decode (.word w) = .ok i ↔ decodeCommand w = .ok i := by
  show (decodeCommand w).mapError _ = _ ↔ _
  cases decodeCommand w <;> simp [Except.mapError]

/-- A text decodes exactly to the record it spells. -/
theorem decode_line_eq_ok {text : List Byte} {i : Instr} : decode (.line text) = .ok i ↔ decodeLine text = .ok i := by
  show (decodeLine text).mapError _ = _ ↔ _
  cases decodeLine text <;> simp [Except.mapError]

/-! ## Sums -/

@[simp] theorem byteSum_nil : byteSum [] = 0 := rfl
@[simp] theorem byteSum_cons (b : Byte) (bs : List Byte) : byteSum (b :: bs) = b + byteSum bs := rfl

theorem byteSum_append (xs ys : List Byte) : byteSum (xs ++ ys) = byteSum xs + byteSum ys := by
  induction xs with
  | nil => simp
  | cons x xs ih => simp [ih, BitVec.add_assoc]

end Sys2Proof
end

