-- ==== Sys2Proof/Laws/Memory.lean ====
section
/-! SUPPORT. The laws of the byte memories: a read after a write, the canonical form and the bound on the indices, and what a run of
bytes leaves. -/

namespace Sys2Proof.Machine

theorem Memory.read_nil (i : Nat) : Memory.read [] i = 0 := rfl

theorem Memory.read_cons (j i : Nat) (b : Byte) (m : Memory) :
    Memory.read ((j, b) :: m) i = if i = j then b else m.read i := rfl

/-- Below every listed index a memory reads as an unlisted index does. -/
theorem Memory.read_of_lt (m : Memory) (i : Nat) (h : ∀ c ∈ m, i < c.1) : m.read i = 0 := by
  induction m with
  | nil => rfl
  | cons c m ih =>
    have hc := h c (by simp)
    rw [Memory.read_cons, if_neg (by omega)]
    exact ih fun c' hc' => h c' (by simp [hc'])

theorem Memory.wf_tail {c : Host.Cell} {m : Memory} (h : Memory.wf (c :: m)) : m.wf :=
  ⟨(List.pairwise_cons.1 h.1).2, fun c' hc' => h.2 c' (by simp [hc'])⟩

theorem read_putCell (m : Memory) (i k : Nat) (b : Byte) (h : ∀ c ∈ m, i < c.1) :
    (putCell i b m).read k = if k = i then b else m.read k := by
  unfold putCell
  split
  · next hb =>
    split
    · next hk => rw [hk, hb]; exact Memory.read_of_lt m i h
    · rfl
  · rfl

/-- A read gives the byte last written at that index, and a write leaves every other index alone. -/
theorem Memory.read_write (m : Memory) (hm : m.wf) (i k : Nat) (b : Byte) :
    (m.write i b).read k = if k = i then b else m.read k := by
  induction m with
  | nil => exact read_putCell [] i k b (by simp)
  | cons c m ih =>
    obtain ⟨j, x⟩ := c
    have hj : ∀ c ∈ m, j < c.1 := (List.pairwise_cons.1 hm.1).1
    simp only [Memory.write]
    split
    · next hlt =>
      refine read_putCell _ i k b ?_
      intro c hc
      rcases List.mem_cons.1 hc with rfl | hc
      · exact hlt
      · exact Nat.lt_trans hlt (hj c hc)
    · split
      · next heq =>
        subst heq
        rw [read_putCell m i k b hj, Memory.read_cons]
        split <;> rfl
      · next hne =>
        rw [Memory.read_cons, Memory.read_cons, ih (Memory.wf_tail hm)]
        split <;> split <;> first | rfl | omega

theorem Memory.read_write_same (m : Memory) (hm : m.wf) (i : Nat) (b : Byte) : (m.write i b).read i = b := by
  simp [Memory.read_write m hm]

theorem Memory.read_write_other (m : Memory) (hm : m.wf) (i k : Nat) (b : Byte) (h : k ≠ i) :
    (m.write i b).read k = m.read k := by
  simp [Memory.read_write m hm, h]

/-- What a write lists was listed before or is the cell written. -/
theorem Memory.mem_write {m : Memory} {i : Nat} {b : Byte} {c : Host.Cell} (h : c ∈ m.write i b) :
    c ∈ m ∨ (c = (i, b) ∧ b ≠ 0) := by
  have put : ∀ rest : Memory, c ∈ putCell i b rest → c ∈ rest ∨ (c = (i, b) ∧ b ≠ 0) := by
    intro rest hc
    unfold putCell at hc
    split at hc
    · exact .inl hc
    · next hb =>
      rcases List.mem_cons.1 hc with rfl | hc
      · exact .inr ⟨rfl, hb⟩
      · exact .inl hc
  induction m with
  | nil => exact put [] h
  | cons d m ih =>
    obtain ⟨j, x⟩ := d
    simp only [Memory.write] at h
    split at h
    · exact put _ h
    · split at h
      · rcases put _ h with h | h
        · exact .inl (List.mem_cons_of_mem _ h)
        · exact .inr h
      · rcases List.mem_cons.1 h with rfl | h
        · exact .inl (by simp)
        · rcases ih h with h | h
          · exact .inl (List.mem_cons_of_mem _ h)
          · exact .inr h

theorem wf_putCell {m : Memory} (hm : m.wf) (i : Nat) (b : Byte) (h : ∀ c ∈ m, i < c.1) : (putCell i b m).wf := by
  unfold putCell
  split
  · exact hm
  · next hb =>
    refine ⟨List.pairwise_cons.2 ⟨h, hm.1⟩, ?_⟩
    intro c hc
    rcases List.mem_cons.1 hc with rfl | hc
    · exact hb
    · exact hm.2 c hc

/-- A write keeps the canonical form. -/
theorem Memory.wf_write (m : Memory) (hm : m.wf) (i : Nat) (b : Byte) : (m.write i b).wf := by
  induction m with
  | nil => exact wf_putCell hm i b (by simp)
  | cons c m ih =>
    obtain ⟨j, x⟩ := c
    have hj : ∀ c ∈ m, j < c.1 := (List.pairwise_cons.1 hm.1).1
    simp only [Memory.write]
    split
    · next hlt =>
      refine wf_putCell hm i b ?_
      intro c hc
      rcases List.mem_cons.1 hc with rfl | hc
      · exact hlt
      · exact Nat.lt_trans hlt (hj c hc)
    · split
      · next heq => exact wf_putCell (Memory.wf_tail hm) i b (by subst heq; exact hj)
      · have ih := ih (Memory.wf_tail hm)
        refine ⟨List.pairwise_cons.2 ⟨?_, ih.1⟩, ?_⟩
        · intro c hc
          rcases Memory.mem_write hc with hc | ⟨rfl, -⟩
          · exact hj c hc
          · show j < i
            omega
        · intro c hc
          rcases List.mem_cons.1 hc with rfl | hc
          · exact hm.2 (j, x) (by simp)
          · exact ih.2 c hc

/-- A write below the bound keeps every index below it. -/
theorem Memory.below_write {m : Memory} {n : Nat} (hm : m.below n) {i : Nat} (hi : i < n) (b : Byte) :
    (m.write i b).below n := by
  intro c hc
  rcases Memory.mem_write hc with hc | ⟨rfl, -⟩
  · exact hm c hc
  · exact hi

theorem Memory.wf_writeFrom (bs : List Byte) (m : Memory) (hm : m.wf) (i : Nat) : (m.writeFrom i bs).wf := by
  induction bs generalizing m i with
  | nil => exact hm
  | cons b bs ih => exact ih _ (Memory.wf_write m hm i b) _

theorem Memory.below_writeFrom (bs : List Byte) (m : Memory) (n : Nat) (hm : m.below n) (i : Nat)
    (hi : i + bs.length ≤ n) : (m.writeFrom i bs).below n := by
  induction bs generalizing m i with
  | nil => exact hm
  | cons b bs ih =>
    simp only [List.length_cons] at hi
    exact ih _ (Memory.below_write hm (by omega) b) _ (by omega)

/-- After bytes are written from `i`, each of their indices holds its byte and every other index is unchanged. -/
theorem Memory.read_writeFrom (bs : List Byte) (m : Memory) (hm : m.wf) (i k : Nat) :
    (m.writeFrom i bs).read k = if i ≤ k ∧ k < i + bs.length then bs.getD (k - i) 0 else m.read k := by
  induction bs generalizing m i with
  | nil => rw [if_neg (by simp)]; rfl
  | cons b bs ih =>
    rw [Memory.writeFrom, ih _ (Memory.wf_write m hm i b), Memory.read_write m hm]
    simp only [List.length_cons]
    by_cases hk : k = i
    · subst hk
      simp
    · by_cases h : i ≤ k ∧ k < i + (bs.length + 1)
      · rw [if_pos (by omega), if_pos h]
        obtain ⟨d, rfl⟩ : ∃ d, k = i + d + 1 := ⟨k - i - 1, by omega⟩
        have e1 : i + d + 1 - (i + 1) = d := by omega
        have e2 : i + d + 1 - i = d + 1 := by omega
        rw [e1, e2]
        rfl
      · rw [if_neg (by omega), if_neg hk, if_neg h]

@[simp] theorem Memory.length_readTo (m : Memory) (n : Nat) : (m.readTo n).length = n := by simp [Memory.readTo]

theorem Memory.readTo_succ (m : Memory) (n : Nat) : m.readTo (n + 1) = m.readTo n ++ [m.read n] := by
  simp [Memory.readTo, List.range_succ]

/-- Reading back what was written from index 0 gives it. -/
theorem Memory.readTo_writeFrom (bs : List Byte) (m : Memory) (hm : m.wf) :
    (m.writeFrom 0 bs).readTo bs.length = bs := by
  refine List.ext_getElem (by simp) ?_
  intro k h1 h2
  simp only [Memory.readTo, List.getElem_map, List.getElem_range]
  rw [Memory.read_writeFrom bs m hm, if_pos (by omega)]
  simp [h2]

/-- Two memories that agree below `n` read alike there. -/
theorem Memory.readTo_congr {m m' : Memory} {n : Nat} (h : ∀ i, i < n → m.read i = m'.read i) : m.readTo n = m'.readTo n := by
  simp only [Memory.readTo]
  exact List.map_congr_left fun i hi => h i (List.mem_range.1 hi)

end Sys2Proof.Machine
end

