-- ==== Sys2Proof/Laws/State.lean ====
section
/-! SUPPORT. Each named update, field by field: what it writes, and that it leaves every other field alone. Every conjunct is a rewrite
rule of its own, so no later proof unfolds a record update. -/

namespace Sys2Proof.Machine

@[simp] theorem openSinkEvent_fields (e : Bool) (s : State) :
    (openSinkEvent e s).mode = s.mode ∧
    (openSinkEvent e s).address = s.address ∧
    (openSinkEvent e s).segment = s.segment ∧
    (openSinkEvent e s).lineLength = s.lineLength ∧
    (openSinkEvent e s).length = s.length ∧
    (openSinkEvent e s).data = s.data ∧
    (openSinkEvent e s).rstate = s.rstate ∧
    (openSinkEvent e s).rtype = s.rtype ∧
    (openSinkEvent e s).nyb = s.nyb ∧
    (openSinkEvent e s).sum = s.sum ∧
    (openSinkEvent e s).elaHigh = s.elaHigh ∧
    (openSinkEvent e s).segUsed = s.segUsed ∧
    (openSinkEvent e s).elaUsed = s.elaUsed ∧
    (openSinkEvent e s).lensetOk = s.lensetOk ∧
    (openSinkEvent e s).scratch = s.scratch ∧
    (openSinkEvent e s).evtOpen = true ∧
    (openSinkEvent e s).cfg = s.cfg ∧
    (openSinkEvent e s).input = s.input ∧
    (openSinkEvent e s).sinkInputs = s.sinkInputs ∧
    (openSinkEvent e s).sinkDraws = s.sinkDraws ∧
    (openSinkEvent e s).flushInputs = s.flushInputs ∧
    (openSinkEvent e s).events = s.events ++ [.sink (sinkEventOf e s)] :=
  ⟨rfl, rfl, rfl, rfl, rfl, rfl, rfl, rfl, rfl, rfl, rfl, rfl, rfl, rfl, rfl, rfl, rfl, rfl, rfl, rfl, rfl, rfl⟩

@[simp] theorem openFlushEvent_fields (line : List Byte) (s : State) :
    (openFlushEvent line s).mode = s.mode ∧
    (openFlushEvent line s).address = s.address ∧
    (openFlushEvent line s).segment = s.segment ∧
    (openFlushEvent line s).lineLength = s.lineLength ∧
    (openFlushEvent line s).length = s.length ∧
    (openFlushEvent line s).data = s.data ∧
    (openFlushEvent line s).rstate = s.rstate ∧
    (openFlushEvent line s).rtype = s.rtype ∧
    (openFlushEvent line s).nyb = s.nyb ∧
    (openFlushEvent line s).sum = s.sum ∧
    (openFlushEvent line s).elaHigh = s.elaHigh ∧
    (openFlushEvent line s).segUsed = s.segUsed ∧
    (openFlushEvent line s).elaUsed = s.elaUsed ∧
    (openFlushEvent line s).lensetOk = s.lensetOk ∧
    (openFlushEvent line s).scratch = s.scratch.writeFrom 0 (scratchPart s.cfg line) ∧
    (openFlushEvent line s).evtOpen = true ∧
    (openFlushEvent line s).cfg = s.cfg ∧
    (openFlushEvent line s).input = s.input ∧
    (openFlushEvent line s).sinkInputs = s.sinkInputs ∧
    (openFlushEvent line s).sinkDraws = s.sinkDraws ∧
    (openFlushEvent line s).flushInputs = s.flushInputs ∧
    (openFlushEvent line s).events = s.events ++ [.flush
      ((s.scratch.writeFrom 0 (scratchPart s.cfg line)).readTo (scratchPart s.cfg line).length ++
        line.drop (lineBufSize s.cfg))] :=
  ⟨rfl, rfl, rfl, rfl, rfl, rfl, rfl, rfl, rfl, rfl, rfl, rfl, rfl, rfl, rfl, rfl, rfl, rfl, rfl, rfl, rfl, rfl⟩

@[simp] theorem closeFlushEvent_fields (s : State) :
    (closeFlushEvent s).mode = s.mode ∧
    (closeFlushEvent s).address = s.address ∧
    (closeFlushEvent s).segment = s.segment ∧
    (closeFlushEvent s).lineLength = s.lineLength ∧
    (closeFlushEvent s).length = s.length ∧
    (closeFlushEvent s).data = s.data ∧
    (closeFlushEvent s).rstate = s.rstate ∧
    (closeFlushEvent s).rtype = s.rtype ∧
    (closeFlushEvent s).nyb = s.nyb ∧
    (closeFlushEvent s).sum = s.sum ∧
    (closeFlushEvent s).elaHigh = s.elaHigh ∧
    (closeFlushEvent s).segUsed = s.segUsed ∧
    (closeFlushEvent s).elaUsed = s.elaUsed ∧
    (closeFlushEvent s).lensetOk = s.lensetOk ∧
    (closeFlushEvent s).scratch = s.scratch ∧
    (closeFlushEvent s).evtOpen = false ∧
    (closeFlushEvent s).cfg = s.cfg ∧
    (closeFlushEvent s).input = s.input ∧
    (closeFlushEvent s).sinkInputs = s.sinkInputs ∧
    (closeFlushEvent s).sinkDraws = s.sinkDraws ∧
    (closeFlushEvent s).flushInputs = s.flushInputs.tail ∧
    (closeFlushEvent s).events = s.events :=
  ⟨rfl, rfl, rfl, rfl, rfl, rfl, rfl, rfl, rfl, rfl, rfl, rfl, rfl, rfl, rfl, rfl, rfl, rfl, rfl, rfl, rfl, rfl⟩

@[simp] theorem beginReadState_fields (s : State) :
    (beginReadState s).mode = .read ∧
    (beginReadState s).address = 0 ∧
    (beginReadState s).segment = 0 ∧
    (beginReadState s).lineLength = 0 ∧
    (beginReadState s).length = 0 ∧
    (beginReadState s).data = s.data ∧
    (beginReadState s).rstate = .waitForStart ∧
    (beginReadState s).rtype = .data ∧
    (beginReadState s).nyb = 0 ∧
    (beginReadState s).sum = 0 ∧
    (beginReadState s).elaHigh = 0 ∧
    (beginReadState s).segUsed = false ∧
    (beginReadState s).elaUsed = false ∧
    (beginReadState s).lensetOk = false ∧
    (beginReadState s).scratch = s.scratch ∧
    (beginReadState s).evtOpen = s.evtOpen ∧
    (beginReadState s).cfg = s.cfg ∧
    (beginReadState s).input = s.input ∧
    (beginReadState s).sinkInputs = s.sinkInputs ∧
    (beginReadState s).sinkDraws = s.sinkDraws ∧
    (beginReadState s).flushInputs = s.flushInputs ∧
    (beginReadState s).events = s.events :=
  ⟨rfl, rfl, rfl, rfl, rfl, rfl, rfl, rfl, rfl, rfl, rfl, rfl, rfl, rfl, rfl, rfl, rfl, rfl, rfl, rfl, rfl, rfl⟩

@[simp] theorem beginWriteState_fields (s : State) :
    (beginWriteState s).mode = .write ∧
    (beginWriteState s).address = 0 ∧
    (beginWriteState s).segment = 0 ∧
    (beginWriteState s).lineLength = defaultLineLength s.cfg ∧
    (beginWriteState s).length = 0 ∧
    (beginWriteState s).data = s.data ∧
    (beginWriteState s).rstate = .waitForStart ∧
    (beginWriteState s).rtype = .data ∧
    (beginWriteState s).nyb = 0 ∧
    (beginWriteState s).sum = 0 ∧
    (beginWriteState s).elaHigh = 0 ∧
    (beginWriteState s).segUsed = false ∧
    (beginWriteState s).elaUsed = false ∧
    (beginWriteState s).lensetOk = true ∧
    (beginWriteState s).scratch = s.scratch ∧
    (beginWriteState s).evtOpen = s.evtOpen ∧
    (beginWriteState s).cfg = s.cfg ∧
    (beginWriteState s).input = s.input ∧
    (beginWriteState s).sinkInputs = s.sinkInputs ∧
    (beginWriteState s).sinkDraws = s.sinkDraws ∧
    (beginWriteState s).flushInputs = s.flushInputs ∧
    (beginWriteState s).events = s.events :=
  ⟨rfl, rfl, rfl, rfl, rfl, rfl, rfl, rfl, rfl, rfl, rfl, rfl, rfl, rfl, rfl, rfl, rfl, rfl, rfl, rfl, rfl, rfl⟩

@[simp] theorem restartLine_fields (s : State) :
    (restartLine s).mode = s.mode ∧
    (restartLine s).address = s.address ∧
    (restartLine s).segment = s.segment ∧
    (restartLine s).lineLength = 0 ∧
    (restartLine s).length = 0 ∧
    (restartLine s).data = s.data ∧
    (restartLine s).rstate = .countHigh ∧
    (restartLine s).rtype = .data ∧
    (restartLine s).nyb = 0 ∧
    (restartLine s).sum = 0 ∧
    (restartLine s).elaHigh = s.elaHigh ∧
    (restartLine s).segUsed = s.segUsed ∧
    (restartLine s).elaUsed = s.elaUsed ∧
    (restartLine s).lensetOk = s.lensetOk ∧
    (restartLine s).scratch = s.scratch ∧
    (restartLine s).evtOpen = s.evtOpen ∧
    (restartLine s).cfg = s.cfg ∧
    (restartLine s).input = s.input ∧
    (restartLine s).sinkInputs = s.sinkInputs ∧
    (restartLine s).sinkDraws = s.sinkDraws ∧
    (restartLine s).flushInputs = s.flushInputs ∧
    (restartLine s).events = s.events :=
  ⟨rfl, rfl, rfl, rfl, rfl, rfl, rfl, rfl, rfl, rfl, rfl, rfl, rfl, rfl, rfl, rfl, rfl, rfl, rfl, rfl, rfl, rfl⟩

@[simp] theorem highNybble_fields (v : Nybble) (low : ParseState) (s : State) :
    (highNybble v low s).mode = s.mode ∧
    (highNybble v low s).address = s.address ∧
    (highNybble v low s).segment = s.segment ∧
    (highNybble v low s).lineLength = s.lineLength ∧
    (highNybble v low s).length = s.length ∧
    (highNybble v low s).data = s.data ∧
    (highNybble v low s).rstate = low ∧
    (highNybble v low s).rtype = s.rtype ∧
    (highNybble v low s).nyb = v ∧
    (highNybble v low s).sum = s.sum ∧
    (highNybble v low s).elaHigh = s.elaHigh ∧
    (highNybble v low s).segUsed = s.segUsed ∧
    (highNybble v low s).elaUsed = s.elaUsed ∧
    (highNybble v low s).lensetOk = s.lensetOk ∧
    (highNybble v low s).scratch = s.scratch ∧
    (highNybble v low s).evtOpen = s.evtOpen ∧
    (highNybble v low s).cfg = s.cfg ∧
    (highNybble v low s).input = s.input ∧
    (highNybble v low s).sinkInputs = s.sinkInputs ∧
    (highNybble v low s).sinkDraws = s.sinkDraws ∧
    (highNybble v low s).flushInputs = s.flushInputs ∧
    (highNybble v low s).events = s.events :=
  ⟨rfl, rfl, rfl, rfl, rfl, rfl, rfl, rfl, rfl, rfl, rfl, rfl, rfl, rfl, rfl, rfl, rfl, rfl, rfl, rfl, rfl, rfl⟩

@[simp] theorem addrMsbLow_fields (v : Nybble) (s : State) :
    (addrMsbLow v s).mode = s.mode ∧
    (addrMsbLow v s).address = joinHalves (highHalf s.address) (joinBytes (wireByte v s) 0) ∧
    (addrMsbLow v s).segment = s.segment ∧
    (addrMsbLow v s).lineLength = s.lineLength ∧
    (addrMsbLow v s).length = s.length ∧
    (addrMsbLow v s).data = s.data ∧
    (addrMsbLow v s).rstate = .addrLsbHigh ∧
    (addrMsbLow v s).rtype = s.rtype ∧
    (addrMsbLow v s).nyb = s.nyb ∧
    (addrMsbLow v s).sum = s.sum + wireByte v s ∧
    (addrMsbLow v s).elaHigh = s.elaHigh ∧
    (addrMsbLow v s).segUsed = s.segUsed ∧
    (addrMsbLow v s).elaUsed = s.elaUsed ∧
    (addrMsbLow v s).lensetOk = s.lensetOk ∧
    (addrMsbLow v s).scratch = s.scratch ∧
    (addrMsbLow v s).evtOpen = s.evtOpen ∧
    (addrMsbLow v s).cfg = s.cfg ∧
    (addrMsbLow v s).input = s.input ∧
    (addrMsbLow v s).sinkInputs = s.sinkInputs ∧
    (addrMsbLow v s).sinkDraws = s.sinkDraws ∧
    (addrMsbLow v s).flushInputs = s.flushInputs ∧
    (addrMsbLow v s).events = s.events :=
  ⟨rfl, rfl, rfl, rfl, rfl, rfl, rfl, rfl, rfl, rfl, rfl, rfl, rfl, rfl, rfl, rfl, rfl, rfl, rfl, rfl, rfl, rfl⟩

@[simp] theorem addrLsbLow_fields (v : Nybble) (s : State) :
    (addrLsbLow v s).mode = s.mode ∧
    (addrLsbLow v s).address = joinHalves (highHalf s.address) (joinBytes (s.address.extractLsb' 8 8) (wireByte v s)) ∧
    (addrLsbLow v s).segment = s.segment ∧
    (addrLsbLow v s).lineLength = s.lineLength ∧
    (addrLsbLow v s).length = s.length ∧
    (addrLsbLow v s).data = s.data ∧
    (addrLsbLow v s).rstate = .recordTypeHigh ∧
    (addrLsbLow v s).rtype = s.rtype ∧
    (addrLsbLow v s).nyb = s.nyb ∧
    (addrLsbLow v s).sum = s.sum + wireByte v s ∧
    (addrLsbLow v s).elaHigh = s.elaHigh ∧
    (addrLsbLow v s).segUsed = s.segUsed ∧
    (addrLsbLow v s).elaUsed = s.elaUsed ∧
    (addrLsbLow v s).lensetOk = s.lensetOk ∧
    (addrLsbLow v s).scratch = s.scratch ∧
    (addrLsbLow v s).evtOpen = s.evtOpen ∧
    (addrLsbLow v s).cfg = s.cfg ∧
    (addrLsbLow v s).input = s.input ∧
    (addrLsbLow v s).sinkInputs = s.sinkInputs ∧
    (addrLsbLow v s).sinkDraws = s.sinkDraws ∧
    (addrLsbLow v s).flushInputs = s.flushInputs ∧
    (addrLsbLow v s).events = s.events :=
  ⟨rfl, rfl, rfl, rfl, rfl, rfl, rfl, rfl, rfl, rfl, rfl, rfl, rfl, rfl, rfl, rfl, rfl, rfl, rfl, rfl, rfl, rfl⟩

@[simp] theorem closeSinkEvent_frame (s : State) :
    (closeSinkEvent s).evtOpen = false ∧
    (closeSinkEvent s).mode = s.mode ∧
    (closeSinkEvent s).address = s.address ∧
    (closeSinkEvent s).segment = s.segment ∧
    (closeSinkEvent s).lineLength = s.lineLength ∧
    (closeSinkEvent s).length = s.length ∧
    (closeSinkEvent s).data = s.data ∧
    (closeSinkEvent s).rstate = s.rstate ∧
    (closeSinkEvent s).rtype = s.rtype ∧
    (closeSinkEvent s).nyb = s.nyb ∧
    (closeSinkEvent s).sum = s.sum ∧
    (closeSinkEvent s).elaHigh = s.elaHigh ∧
    (closeSinkEvent s).segUsed = s.segUsed ∧
    (closeSinkEvent s).elaUsed = s.elaUsed ∧
    (closeSinkEvent s).lensetOk = s.lensetOk ∧
    (closeSinkEvent s).scratch = s.scratch ∧
    (closeSinkEvent s).cfg = s.cfg ∧
    (closeSinkEvent s).input = s.input ∧
    (closeSinkEvent s).flushInputs = s.flushInputs ∧
    (closeSinkEvent s).events = s.events := by
  unfold closeSinkEvent
  split <;> simp

@[simp] theorem update_frame (s : State) :
    (update s).mode = s.mode ∧
    (update s).lineLength = s.lineLength ∧
    (update s).length = s.length ∧
    (update s).data = s.data ∧
    (update s).rstate = s.rstate ∧
    (update s).rtype = s.rtype ∧
    (update s).nyb = s.nyb ∧
    (update s).sum = s.sum ∧
    (update s).elaHigh = s.elaHigh ∧
    (update s).segUsed = s.segUsed ∧
    (update s).elaUsed = s.elaUsed ∧
    (update s).lensetOk = s.lensetOk ∧
    (update s).scratch = s.scratch ∧
    (update s).evtOpen = s.evtOpen ∧
    (update s).cfg = s.cfg ∧
    (update s).input = s.input ∧
    (update s).sinkInputs = s.sinkInputs ∧
    (update s).sinkDraws = s.sinkDraws ∧
    (update s).flushInputs = s.flushInputs ∧
    (update s).events = s.events := by
  unfold update
  split <;> try split
  all_goals simp

@[simp] theorem finishLine_frame (a : Bool) (s : State) :
    (finishLine a s).rstate = .waitForStart ∧ (finishLine a s).length = 0 ∧
    (finishLine a s).mode = s.mode ∧
    (finishLine a s).lineLength = s.lineLength ∧
    (finishLine a s).data = s.data ∧
    (finishLine a s).rtype = s.rtype ∧
    (finishLine a s).nyb = s.nyb ∧
    (finishLine a s).sum = s.sum ∧
    (finishLine a s).elaHigh = s.elaHigh ∧
    (finishLine a s).segUsed = s.segUsed ∧
    (finishLine a s).elaUsed = s.elaUsed ∧
    (finishLine a s).lensetOk = s.lensetOk ∧
    (finishLine a s).scratch = s.scratch ∧
    (finishLine a s).evtOpen = s.evtOpen ∧
    (finishLine a s).cfg = s.cfg ∧
    (finishLine a s).input = s.input ∧
    (finishLine a s).sinkInputs = s.sinkInputs ∧
    (finishLine a s).sinkDraws = s.sinkDraws ∧
    (finishLine a s).flushInputs = s.flushInputs ∧
    (finishLine a s).events = s.events := by
  cases a <;> simp [finishLine]

end Sys2Proof.Machine
end

