-- ==== Sys2Proof/Laws/Ops.lean ====
section
/-! SUPPORT. For each shared operation, once, everything it can do: "if it answers next t, then …". Later proofs cite these and unfold
no operation. -/

namespace Sys2Proof.Machine

@[simp] theorem andThen_next (s : State) (k : State → Result) : andThen (.next s) k = k s := rfl
@[simp] theorem andThen_fault (f : Fault) (k : State → Result) : andThen (.fault f) k = .fault f := rfl
@[simp] theorem andThen_refused (q : Refusal) (k : State → Result) : andThen (.refused q) k = .refused q := rfl

theorem andThen_assoc (r : Result) (k l : State → Result) :
    andThen (andThen r k) l = andThen r fun s => andThen (k s) l := by
  cases r <;> rfl

/-- A sequence answers next exactly when both parts do. -/
theorem andThen_eq_next {r : Result} {k : State → Result} {t : State} :
    andThen r k = .next t ↔ ∃ s, r = .next s ∧ k s = .next t := by
  cases r <;> simp

/-- A guarded command answers next exactly when its check passes and its body does. -/
theorem guarded_eq_next {c : Option Refusal} {r : Result} {t : State} :
    guarded c r = .next t ↔ c = none ∧ r = .next t := by
  cases c <;> simp [guarded]

@[simp] theorem guarded_none (r : Result) : guarded none r = r := rfl
@[simp] theorem guarded_some (q : Refusal) (r : Result) : guarded (some q) r = .refused q := rfl

theorem beginCheck_eq_none {s : State} : beginCheck s = none ↔ s.evtOpen = false := by
  unfold beginCheck
  cases s.evtOpen <;> simp

theorem readCheck_eq_none {s : State} : readCheck s = none ↔ s.evtOpen = false ∧ s.mode = .read := by
  unfold readCheck
  cases s.evtOpen <;> cases s.mode <;> simp

theorem writeCheck_eq_none {s : State} : writeCheck s = none ↔ s.evtOpen = false ∧ s.mode = .write := by
  unfold writeCheck
  cases s.evtOpen <;> cases s.mode <;> simp

/-! ## DATA -/

theorem writeData_inv {i : Nat} {v : Byte} {s t : State} (h : writeData i v s = .next t) :
    i ≤ s.cfg.lineMax.toNat ∧ t = { s with data := s.data.write i v } := by
  unfold writeData at h
  split at h
  · next hi => exact ⟨hi, by cases h; rfl⟩
  · cases h

theorem writeData_of_le {i : Nat} {v : Byte} {s : State} (h : i ≤ s.cfg.lineMax.toNat) :
    writeData i v s = .next { s with data := s.data.write i v } := if_pos h

/-! ## The sink port -/

@[simp] theorem sinkReenters_openSinkEvent (e : Bool) (s : State) : sinkReenters (openSinkEvent e s) = sinkReenters s := rfl
@[simp] theorem sinkAccept_openSinkEvent (e : Bool) (s : State) : sinkAccept (openSinkEvent e s) = sinkAccept s := rfl

/-- What a delivered line leaves: one SinkEvent, the tracker updated if it was accepted, the decoder waiting. -/
theorem complete_inv {e : Bool} {s t : State} (h : complete e s = .next t) :
    s.length.toNat ≤ s.cfg.lineMax.toNat + 1 ∧ sinkReenters s = false ∧
      t = finishLine (sinkAccept s) (closeSinkEvent (openSinkEvent e s)) := by
  unfold complete at h
  split at h
  · next hl =>
    split at h
    · cases h
    · next hr => exact ⟨hl, by simpa using hr, by cases h; rfl⟩
  · cases h

/-- The registers that a delivered line leaves alone, and the two it sets. -/
theorem complete_frame {e : Bool} {s t : State} (h : complete e s = .next t) :
    t.mode = s.mode ∧ t.lineLength = s.lineLength ∧ t.length = 0 ∧ t.data = s.data ∧ t.rstate = .waitForStart ∧
    t.rtype = s.rtype ∧ t.nyb = s.nyb ∧ t.sum = s.sum ∧ t.elaHigh = s.elaHigh ∧ t.segUsed = s.segUsed ∧
    t.elaUsed = s.elaUsed ∧ t.lensetOk = s.lensetOk ∧ t.scratch = s.scratch ∧ t.evtOpen = false ∧ t.cfg = s.cfg ∧
    t.input = s.input ∧ t.flushInputs = s.flushInputs ∧ t.events = s.events ++ [.sink (sinkEventOf e s)] := by
  obtain ⟨-, -, rfl⟩ := complete_inv h
  simp

/-! ## The flush port -/

@[simp] theorem flushReenters_openFlushEvent (line : List Byte) (s : State) :
    flushReenters (openFlushEvent line s) = flushReenters s := rfl

/-- A line longer than SCRATCH has its first LINE_BUF_SIZE bytes there; any other is there whole. -/
theorem length_scratchPart (c : Config) (line : List Byte) :
    (scratchPart c line).length = min (lineBufSize c) line.length := by simp [scratchPart]

theorem scratchPart_of_le {c : Config} {line : List Byte} (h : line.length ≤ lineBufSize c) : scratchPart c line = line :=
  List.take_of_length_le h

/-- A line is its characters and NEWLINE: 11 + 2n + NL_LEN bytes. -/
theorem length_renderedLine (c : Config) (ty : Byte) (a16 : Half) (bytes : List Byte) :
    (renderedLine c ty a16 bytes).length = 11 + 2 * bytes.length + (newlineBytes c).length := by
  have h2 : ∀ bs : List Byte, (bs.flatMap hex2).length = 2 * bs.length := by
    intro bs
    induction bs with
    | nil => rfl
    | cons b bs ih => simp only [List.flatMap_cons, List.length_append, ih, hex2, List.length_cons, List.length_nil]; omega
  simp only [renderedLine, lineText, List.length_append, h2, recordBytes, halfBytes, List.length_cons, List.length_nil]
  omega

/-- A line of at most LINE_MAX data bytes fits SCRATCH. -/
theorem length_renderedLine_le {c : Config} (ty : Byte) (a16 : Half) {bytes : List Byte} (h : bytes.length ≤ c.lineMax.toNat) :
    (renderedLine c ty a16 bytes).length ≤ lineBufSize c := by
  rw [length_renderedLine, lineBufSize]
  omega

/-- The FlushEvent carries the whole line. -/
theorem openFlushEvent_events {s : State} (h : s.scratch.wf) (line : List Byte) :
    (openFlushEvent line s).events = s.events ++ [.flush line] := by
  simp only [openFlushEvent_fields]
  rw [Memory.readTo_writeFrom _ _ h]
  simp [scratchPart]

/-- SCRATCH keeps its canonical form and its size. -/
theorem openFlushEvent_scratch {s : State} (h : s.scratch.wf) (hb : s.scratch.below (lineBufSize s.cfg)) (line : List Byte) :
    (openFlushEvent line s).scratch.wf ∧ (openFlushEvent line s).scratch.below (lineBufSize s.cfg) := by
  simp only [openFlushEvent_fields]
  refine ⟨Memory.wf_writeFrom _ _ h _, Memory.below_writeFrom _ _ _ hb _ ?_⟩
  rw [length_scratchPart]
  omega

/-- What a rendered record leaves: the line in SCRATCH, and one FlushEvent. -/
theorem render_inv {ty : Byte} {a16 : Half} {bytes : List Byte} {s t : State} (h : render ty a16 bytes s = .next t) :
    bytes.length ≤ renderMax s.cfg ∧ flushReenters s = false ∧
      t = closeFlushEvent (openFlushEvent (renderedLine s.cfg ty a16 bytes) s) := by
  unfold render at h
  split at h
  · next hl =>
    split at h
    · cases h
    · next hr => exact ⟨hl, by simpa using hr, by cases h; rfl⟩
  · cases h

/-- The registers that a rendered record leaves alone: all of them. -/
theorem render_frame {ty : Byte} {a16 : Half} {bytes : List Byte} {s t : State} (h : render ty a16 bytes s = .next t) :
    t.mode = s.mode ∧ t.address = s.address ∧ t.segment = s.segment ∧ t.lineLength = s.lineLength ∧ t.length = s.length ∧
    t.data = s.data ∧ t.rstate = s.rstate ∧ t.rtype = s.rtype ∧ t.nyb = s.nyb ∧ t.sum = s.sum ∧ t.elaHigh = s.elaHigh ∧
    t.segUsed = s.segUsed ∧ t.elaUsed = s.elaUsed ∧ t.lensetOk = s.lensetOk ∧ t.evtOpen = false ∧ t.cfg = s.cfg ∧
    t.input = s.input ∧ t.sinkInputs = s.sinkInputs ∧ t.sinkDraws = s.sinkDraws ∧ t.flushInputs = s.flushInputs.tail := by
  obtain ⟨-, -, rfl⟩ := render_inv h
  simp

/-- What EmitElaIfNeeded leaves: nothing new, or one EXTENDED_LINEAR_ADDRESS record in a stream that is not segmented. -/
theorem emitElaIfNeeded_inv {s t : State} (h : emitElaIfNeeded s = .next t) :
    (s.ovfPending = false ∧ t = s) ∨
    (s.ovfPending = true ∧ s.segUsed = false ∧
      ∃ s1, render 0x04 0x0000 (halfBytes (highHalf s.address)) s = .next s1 ∧
        t = { s1 with elaHigh := highHalf s.address, elaUsed := true }) := by
  unfold emitElaIfNeeded at h
  split at h
  · next ho =>
    split at h
    · cases h
    · next hs =>
      obtain ⟨s1, h1, h2⟩ := andThen_eq_next.1 h
      refine .inr ⟨ho, by simpa using hs, s1, h1, ?_⟩
      cases h2
      rw [(render_frame h1).2.1]
  · next ho => exact .inl ⟨by simpa using ho, by cases h; rfl⟩

/-- The registers that EmitElaIfNeeded leaves alone. -/
theorem emitElaIfNeeded_frame {s t : State} (h : emitElaIfNeeded s = .next t) :
    t.mode = s.mode ∧ t.address = s.address ∧ t.segment = s.segment ∧ t.lineLength = s.lineLength ∧ t.length = s.length ∧
    t.data = s.data ∧ t.rstate = s.rstate ∧ t.rtype = s.rtype ∧ t.nyb = s.nyb ∧ t.sum = s.sum ∧ t.segUsed = s.segUsed ∧
    t.lensetOk = s.lensetOk ∧ t.cfg = s.cfg ∧ t.input = s.input ∧ t.sinkInputs = s.sinkInputs ∧
    t.sinkDraws = s.sinkDraws := by
  rcases emitElaIfNeeded_inv h with ⟨-, rfl⟩ | ⟨-, -, s1, h1, rfl⟩
  · simp
  · obtain ⟨h1, h2, h3, h4, h5, h6, h7, h8, h9, h10, -, h12, -, h14, -, h16, h17, h18, h19, -⟩ := render_frame h1
    exact ⟨h1, h2, h3, h4, h5, h6, h7, h8, h9, h10, h12, h14, h16, h17, h18, h19⟩

/-- What FlushLine leaves: perhaps an EXTENDED_LINEAR_ADDRESS record, then the DATA line, ADDRESS past it and no byte pending. -/
theorem flushLine_inv {s t : State} (h : flushLine s = .next t) :
    s.length.toNat ≤ s.cfg.lineMax.toNat + 1 ∧
      ∃ s1 s2, emitElaIfNeeded s = .next s1 ∧ render 0x00 (lowHalf s.address) s.pending s1 = .next s2 ∧
        t = { s2 with address := s.address + s.length.setWidth 32, length := 0 } := by
  unfold flushLine at h
  split at h
  · next hl =>
    obtain ⟨s1, h1, h⟩ := andThen_eq_next.1 h
    obtain ⟨s2, h2, h⟩ := andThen_eq_next.1 h
    have f1 := emitElaIfNeeded_frame h1
    have f2 := render_frame h2
    have hp : s1.pending = s.pending := by simp [State.pending, f1]
    rw [f1.2.1, hp] at h2
    refine ⟨hl, s1, s2, h1, h2, ?_⟩
    cases h
    rw [f2.2.1, f1.2.1, f2.2.2.2.2.1, f1.2.2.2.2.1]
  · cases h

/-- The registers that FlushLine leaves alone, and the two it sets. -/
theorem flushLine_frame {s t : State} (h : flushLine s = .next t) :
    t.mode = s.mode ∧ t.address = s.address + s.length.setWidth 32 ∧ t.segment = s.segment ∧ t.lineLength = s.lineLength ∧
    t.length = 0 ∧ t.data = s.data ∧ t.rstate = s.rstate ∧ t.rtype = s.rtype ∧ t.nyb = s.nyb ∧ t.sum = s.sum ∧
    t.segUsed = s.segUsed ∧ t.lensetOk = s.lensetOk ∧ t.evtOpen = false ∧ t.cfg = s.cfg ∧ t.input = s.input ∧
    t.sinkInputs = s.sinkInputs ∧ t.sinkDraws = s.sinkDraws := by
  obtain ⟨-, s1, s2, h1, h2, rfl⟩ := flushLine_inv h
  have f1 := emitElaIfNeeded_frame h1
  have f2 := render_frame h2
  simp [f1, f2]

/-- `if LENGTH > 0: FlushLine()` does nothing or flushes the line. -/
theorem flushPending_inv {s t : State} (h : flushPending s = .next t) :
    (s.length = 0 ∧ t = s) ∨ (s.length ≠ 0 ∧ flushLine s = .next t) := by
  unfold flushPending at h
  split at h
  · next h0 => exact .inl ⟨h0, by cases h; rfl⟩
  · next h0 => exact .inr ⟨h0, h⟩

/-- After a flush no byte is pending, and these registers are as before. -/
theorem flushPending_frame {s t : State} (h : flushPending s = .next t) :
    t.mode = s.mode ∧ t.segment = s.segment ∧ t.lineLength = s.lineLength ∧ t.length = 0 ∧ t.data = s.data ∧
    t.rstate = s.rstate ∧ t.rtype = s.rtype ∧ t.nyb = s.nyb ∧ t.sum = s.sum ∧ t.segUsed = s.segUsed ∧
    t.lensetOk = s.lensetOk ∧ t.cfg = s.cfg ∧ t.input = s.input ∧ t.sinkInputs = s.sinkInputs ∧
    t.sinkDraws = s.sinkDraws := by
  rcases flushPending_inv h with ⟨h0, rfl⟩ | ⟨-, h⟩
  · simp [h0]
  · have f := flushLine_frame h
    simp [f]

/-- A segment change emits one EXTENDED_SEGMENT_ADDRESS record and sets SEGMENT; the same segment does nothing. -/
theorem changeSegment_inv {sg : Half} {s t : State} (h : changeSegment sg s = .next t) :
    (sg = s.segment ∧ t = s) ∨
    (sg ≠ s.segment ∧ ∃ s1, render 0x02 0x0000 (halfBytes sg) s = .next s1 ∧ t = { s1 with segment := sg }) := by
  unfold changeSegment at h
  split at h
  · next hs => exact .inl ⟨hs, by cases h; rfl⟩
  · next hs =>
    obtain ⟨s1, h1, h2⟩ := andThen_eq_next.1 h
    exact .inr ⟨hs, s1, h1, by cases h2; rfl⟩

/-! ## The decoder's handlers -/

/-- What OnStart leaves: a fresh line, after the truncated one was reported in the strict mode. -/
theorem onStart_inv {s t : State} (h : onStart s = .next t) :
    t = restartLine s ∨
      (s.cfg.strictTruncation = true ∧ s.rstate ≠ .waitForStart ∧ ∃ s1, complete true s = .next s1 ∧ t = restartLine s1) := by
  unfold onStart at h
  split at h
  · next hc =>
    obtain ⟨s1, h1, h2⟩ := andThen_eq_next.1 h
    simp only [Bool.and_eq_true, bne_iff_ne, ne_eq] at hc
    exact .inr ⟨hc.1, hc.2, s1, h1, by cases h2; rfl⟩
  · exact .inl (by cases h; rfl)

/-- What CountLow leaves: the declared length, and an overflow delivered at once. -/
theorem countLow_inv {v : Nybble} {s t : State} (h : countLow v s = .next t) :
    (s.cfg.lineMax.toNat < (wireByte v s).toNat ∧
      complete true { s with sum := s.sum + wireByte v s, lineLength := wireByte v s } = .next t) ∨
    ((wireByte v s).toNat ≤ s.cfg.lineMax.toNat ∧
      t = { s with sum := s.sum + wireByte v s, lineLength := wireByte v s, rstate := .addrMsbHigh }) := by
  unfold countLow at h
  simp only at h
  split at h
  · next hb => exact .inl ⟨hb, h⟩
  · next hb => exact .inr ⟨by omega, by cases h; rfl⟩

/-- What TypeLow leaves: the type of the line, or the line dropped. -/
theorem typeLow_cases (v : Nybble) (s : State) :
    (recordTypeOf (wireByte v s) = none ∧ typeLow v s = { s with rstate := .waitForStart, length := 0 }) ∨
    (∃ ty, recordTypeOf (wireByte v s) = some ty ∧
      typeLow v s = { s with rtype := ty, sum := s.sum + wireByte v s, rstate := .dataHigh }) := by
  unfold typeLow
  split
  · next h => exact .inl ⟨h, rfl⟩
  · next ty h => exact .inr ⟨ty, h, rfl⟩

/-- What DataLow leaves: one more data byte, or the line delivered on its checksum byte. -/
theorem dataLow_inv {v : Nybble} {s t : State} (h : dataLow v s = .next t) :
    s.length.toNat ≤ s.cfg.lineMax.toNat ∧
    ((s.length.toNat < s.lineLength.toNat ∧
      t = { s with sum := s.sum + wireByte v s, data := s.data.write s.length.toNat (wireByte v s),
                   length := s.length + 1, rstate := .dataHigh }) ∨
     (s.lineLength.toNat ≤ s.length.toNat ∧
      complete (sumErr (s.sum + wireByte v s))
        { s with sum := s.sum + wireByte v s, data := s.data.write s.length.toNat (wireByte v s) } = .next t)) := by
  unfold dataLow at h
  obtain ⟨s1, h1, h⟩ := andThen_eq_next.1 h
  obtain ⟨hl, rfl⟩ := writeData_inv h1
  refine ⟨hl, ?_⟩
  simp only at h
  split at h
  · next hb => exact .inl ⟨hb, by cases h; rfl⟩
  · next hb => exact .inr ⟨by omega, h⟩

/-- READ_BYTE over a text is one READ_BYTE after another. -/
theorem readText_append (xs ys : List Byte) (s : State) : readText (xs ++ ys) s = andThen (readText xs s) (readText ys) := by
  induction xs generalizing s with
  | nil => rfl
  | cons x xs ih =>
    simp only [List.cons_append, readText, andThen_assoc]
    congr 1
    funext s1
    exact ih s1

/-- An invariant that every READ_BYTE keeps is kept by a whole text. -/
theorem readText_keeps {P : State → Prop} (hP : ∀ c s t, P s → execReadByte c s = .next t → P t)
    (cs : List Byte) {s t : State} (hs : P s) (h : readText cs s = .next t) : P t := by
  induction cs generalizing s with
  | nil => cases h; exact hs
  | cons c cs ih =>
    obtain ⟨s1, h1, h2⟩ := andThen_eq_next.1 h
    exact ih (hP c s s1 hs h1) h2

end Sys2Proof.Machine
end

