-- ==== Sys2Proof/Laws/PerInstr.lean ====
section
/-! SUPPORT. Per instruction: its encoding carries the row of spec/opcode_table.json that its mnemonic names. -/

namespace Sys2Proof.Laws.TableRow

/-- A word has the row's match under the row's mask. -/
def wordRow (w : CmdWord) (mask pattern : Nat) : Prop := w &&& BitVec.ofNat 64 mask = BitVec.ofNat 64 pattern

/-- A line's TYPE byte, its fourth byte, is the row's match; the row's mask is 0xFF. -/
def lineRow (text : List Byte) (pattern : Nat) : Prop :=
  ∃ len ahi alo rest, hexBytes text.tail = some (len :: ahi :: alo :: BitVec.ofNat 8 pattern :: rest)

/-- The encoding of `i` carries its row of the opcode table: match and mask as the table gives them. -/
def Statement (i : Instr) : Prop :=
  match i, encode i with
  | .beginRead, .word w => wordRow w 0xFFFFFFFFFFFFFFFF 0x0000000000000001
  | .beginReadAtAddress _, .word w => wordRow w 0x00000000FFFFFFFF 0x0000000000000002
  | .beginReadAtSegment _, .word w => wordRow w 0xFFFFFFFF0000FFFF 0x0000000000000003
  | .readByte _, .word w => wordRow w 0xFFFFFFFFFFFF00FF 0x0000000000000004
  | .endRead, .word w => wordRow w 0xFFFFFFFFFFFFFFFF 0x0000000000000005
  | .beginWrite, .word w => wordRow w 0xFFFFFFFFFFFFFFFF 0x0000000000000011
  | .writeAtAddress _, .word w => wordRow w 0x00000000FFFFFFFF 0x0000000000000012
  | .writeAtSegment _ _, .word w => wordRow w 0x000000000000FFFF 0x0000000000000013
  | .writeByte _, .word w => wordRow w 0xFFFFFFFFFFFF00FF 0x0000000000000014
  | .setOutputLineLength _, .word w => wordRow w 0xFFFFFFFFFFFF00FF 0x0000000000000015
  | .endWrite, .word w => wordRow w 0xFFFFFFFFFFFFFFFF 0x0000000000000016
  | .recordData _ _ _, .line text => lineRow text 0x00
  | .recordEndOfFile _ _ _, .line text => lineRow text 0x01
  | .recordExtendedSegmentAddress _ _ _, .line text => lineRow text 0x02
  | .recordStartSegmentAddress _ _ _, .line text => lineRow text 0x03
  | .recordExtendedLinearAddress _ _ _, .line text => lineRow text 0x04
  | .recordStartLinearAddress _ _ _, .line text => lineRow text 0x05
  | _, _ => False

/-- A mask taken field by field. -/
theorem commandWord_and (a ma : Addr) (sg ms : Half) (b mb op mo : Byte) :
    commandWord a sg b op &&& commandWord ma ms mb mo = commandWord (a &&& ma) (sg &&& ms) (b &&& mb) (op &&& mo) := by
  have e1 := BitVec.and_append (x₁ := a ++ sg ++ b) (x₂ := ma ++ ms ++ mb) (y₁ := op) (y₂ := mo)
  have e2 := BitVec.and_append (x₁ := a ++ sg) (x₂ := ma ++ ms) (y₁ := b) (y₂ := mb)
  have e3 := BitVec.and_append (x₁ := a) (x₂ := ma) (y₁ := sg) (y₂ := ms)
  exact e1.trans (by rw [e2, e3]; rfl)

/-- A built word carries a row whose mask takes whole fields. -/
theorem wordRow_commandWord (a ma : Addr) (sg ms : Half) (b mb op mo : Byte) {mask pattern : Nat}
    (hm : BitVec.ofNat 64 mask = commandWord ma ms mb mo)
    (hp : BitVec.ofNat 64 pattern = commandWord (a &&& ma) (sg &&& ms) (b &&& mb) (op &&& mo)) :
    wordRow (commandWord a sg b op) mask pattern := by
  rw [wordRow, hm, hp, commandWord_and]

theorem lineRow_lineText (t : Byte) (addr : Half) (data : List Byte) (cks : Byte) {pattern : Nat}
    (ht : t = BitVec.ofNat 8 pattern) : lineRow (lineText t addr data cks) pattern := by
  subst ht
  have h := hexBytes_flatMap_hex2 (recordBytes (BitVec.ofNat 8 pattern) addr data ++ [cks])
  exact ⟨_, _, _, data ++ [cks], h⟩

theorem beginRead : Statement .beginRead := wordRow_commandWord 0 (-1) 0 (-1) 0 (-1) 0x01 (-1) (by decide) (by decide)

theorem beginReadAtAddress (a : Addr) : Statement (.beginReadAtAddress a) :=
  wordRow_commandWord a 0 0 (-1) 0 (-1) 0x02 (-1) (by decide) (by rw [show a &&& 0 = 0 from BitVec.and_zero]; decide)

theorem beginReadAtSegment (sg : Half) : Statement (.beginReadAtSegment sg) :=
  wordRow_commandWord 0 (-1) sg 0 0 (-1) 0x03 (-1) (by decide) (by rw [show sg &&& 0 = 0 from BitVec.and_zero]; decide)

theorem readByte (c : Byte) : Statement (.readByte c) :=
  wordRow_commandWord 0 (-1) 0 (-1) c 0 0x04 (-1) (by decide) (by rw [show c &&& 0 = 0 from BitVec.and_zero]; decide)

theorem endRead : Statement .endRead := wordRow_commandWord 0 (-1) 0 (-1) 0 (-1) 0x05 (-1) (by decide) (by decide)

theorem beginWrite : Statement .beginWrite := wordRow_commandWord 0 (-1) 0 (-1) 0 (-1) 0x11 (-1) (by decide) (by decide)

theorem writeAtAddress (a : Addr) : Statement (.writeAtAddress a) :=
  wordRow_commandWord a 0 0 (-1) 0 (-1) 0x12 (-1) (by decide) (by rw [show a &&& 0 = 0 from BitVec.and_zero]; decide)

theorem writeAtSegment (sg : Half) (a : Addr) : Statement (.writeAtSegment sg a) :=
  wordRow_commandWord a 0 sg 0 0 (-1) 0x13 (-1) (by decide) (by rw [show a &&& 0 = 0 from BitVec.and_zero, show sg &&& 0 = 0 from BitVec.and_zero]; decide)

theorem writeByte (d : Byte) : Statement (.writeByte d) :=
  wordRow_commandWord 0 (-1) 0 (-1) d 0 0x14 (-1) (by decide) (by rw [show d &&& 0 = 0 from BitVec.and_zero]; decide)

theorem setOutputLineLength (n : Byte) : Statement (.setOutputLineLength n) :=
  wordRow_commandWord 0 (-1) 0 (-1) n 0 0x15 (-1) (by decide) (by rw [show n &&& 0 = 0 from BitVec.and_zero]; decide)

theorem endWrite : Statement .endWrite := wordRow_commandWord 0 (-1) 0 (-1) 0 (-1) 0x16 (-1) (by decide) (by decide)

theorem recordData (addr : Half) (data : List Byte) (cks : Byte) : Statement (.recordData addr data cks) :=
  lineRow_lineText _ addr data cks rfl
theorem recordEndOfFile (addr : Half) (data : List Byte) (cks : Byte) : Statement (.recordEndOfFile addr data cks) :=
  lineRow_lineText _ addr data cks rfl
theorem recordExtendedSegmentAddress (addr : Half) (data : List Byte) (cks : Byte) :
    Statement (.recordExtendedSegmentAddress addr data cks) := lineRow_lineText _ addr data cks rfl
theorem recordStartSegmentAddress (addr : Half) (data : List Byte) (cks : Byte) :
    Statement (.recordStartSegmentAddress addr data cks) := lineRow_lineText _ addr data cks rfl
theorem recordExtendedLinearAddress (addr : Half) (data : List Byte) (cks : Byte) :
    Statement (.recordExtendedLinearAddress addr data cks) := lineRow_lineText _ addr data cks rfl
theorem recordStartLinearAddress (addr : Half) (data : List Byte) (cks : Byte) :
    Statement (.recordStartLinearAddress addr data cks) := lineRow_lineText _ addr data cks rfl

end Sys2Proof.Laws.TableRow
end

