-- ==== Sys2Proof/Laws/Safety.lean ====
section
/-! SUPPORT. The states that the statements name, field by field: what a delivered line, a rendered record and a flushed line leave. No
later proof unfolds them. -/

namespace Sys2Proof.Machine

@[simp] theorem emitted_fields (t : Byte) (a16 : Half) (bytes : List Byte) (s : State) :
    (emitted t a16 bytes s).mode = s.mode ∧
    (emitted t a16 bytes s).address = s.address ∧
    (emitted t a16 bytes s).segment = s.segment ∧
    (emitted t a16 bytes s).lineLength = s.lineLength ∧
    (emitted t a16 bytes s).length = s.length ∧
    (emitted t a16 bytes s).data = s.data ∧
    (emitted t a16 bytes s).rstate = s.rstate ∧
    (emitted t a16 bytes s).rtype = s.rtype ∧
    (emitted t a16 bytes s).nyb = s.nyb ∧
    (emitted t a16 bytes s).sum = s.sum ∧
    (emitted t a16 bytes s).elaHigh = s.elaHigh ∧
    (emitted t a16 bytes s).segUsed = s.segUsed ∧
    (emitted t a16 bytes s).elaUsed = s.elaUsed ∧
    (emitted t a16 bytes s).lensetOk = s.lensetOk ∧
    (emitted t a16 bytes s).scratch = s.scratch.writeFrom 0 (scratchPart s.cfg (renderedLine s.cfg t a16 bytes)) ∧
    (emitted t a16 bytes s).evtOpen = false ∧
    (emitted t a16 bytes s).cfg = s.cfg ∧
    (emitted t a16 bytes s).input = s.input ∧
    (emitted t a16 bytes s).sinkInputs = s.sinkInputs ∧
    (emitted t a16 bytes s).sinkDraws = s.sinkDraws ∧
    (emitted t a16 bytes s).flushInputs = s.flushInputs.tail ∧
    (emitted t a16 bytes s).events = s.events ++ [.flush (renderedLine s.cfg t a16 bytes)] :=
  ⟨rfl, rfl, rfl, rfl, rfl, rfl, rfl, rfl, rfl, rfl, rfl, rfl, rfl, rfl, rfl, rfl, rfl, rfl, rfl, rfl, rfl, rfl⟩

/-- EmitElaIfNeeded writes ELA_HIGH and ELA_USED, and the registers of the flush port. -/
@[simp] theorem elaEmitted_fields (s : State) :
    (elaEmitted s).mode = s.mode ∧
    (elaEmitted s).address = s.address ∧
    (elaEmitted s).segment = s.segment ∧
    (elaEmitted s).lineLength = s.lineLength ∧
    (elaEmitted s).length = s.length ∧
    (elaEmitted s).data = s.data ∧
    (elaEmitted s).rstate = s.rstate ∧
    (elaEmitted s).rtype = s.rtype ∧
    (elaEmitted s).nyb = s.nyb ∧
    (elaEmitted s).sum = s.sum ∧
    (elaEmitted s).elaHigh = highHalf s.address ∧
    (elaEmitted s).segUsed = s.segUsed ∧
    (elaEmitted s).lensetOk = s.lensetOk ∧
    (elaEmitted s).cfg = s.cfg ∧
    (elaEmitted s).input = s.input ∧
    (elaEmitted s).sinkInputs = s.sinkInputs ∧
    (elaEmitted s).sinkDraws = s.sinkDraws := by
  unfold elaEmitted
  split
  · next h => simp [h]
  · simp

/-- FlushLine writes ADDRESS and LENGTH, and what its records write. -/
@[simp] theorem lineFlushed_fields (s : State) :
    (lineFlushed s).mode = s.mode ∧
    (lineFlushed s).address = s.address + s.length.setWidth 32 ∧
    (lineFlushed s).segment = s.segment ∧
    (lineFlushed s).lineLength = s.lineLength ∧
    (lineFlushed s).length = 0 ∧
    (lineFlushed s).data = s.data ∧
    (lineFlushed s).rstate = s.rstate ∧
    (lineFlushed s).rtype = s.rtype ∧
    (lineFlushed s).nyb = s.nyb ∧
    (lineFlushed s).sum = s.sum ∧
    (lineFlushed s).elaHigh = highHalf s.address ∧
    (lineFlushed s).segUsed = s.segUsed ∧
    (lineFlushed s).lensetOk = s.lensetOk ∧
    (lineFlushed s).evtOpen = false ∧
    (lineFlushed s).cfg = s.cfg ∧
    (lineFlushed s).input = s.input ∧
    (lineFlushed s).sinkInputs = s.sinkInputs ∧
    (lineFlushed s).sinkDraws = s.sinkDraws := by
  simp [lineFlushed]

/-- A delivered line writes ADDRESS and SEGMENT if an extended-address record was accepted, RSTATE and LENGTH, and the sink port. -/
@[simp] theorem delivered_fields (e : Bool) (s : State) :
    (delivered e s).mode = s.mode ∧
    (delivered e s).lineLength = s.lineLength ∧
    (delivered e s).length = 0 ∧
    (delivered e s).data = s.data ∧
    (delivered e s).rstate = .waitForStart ∧
    (delivered e s).rtype = s.rtype ∧
    (delivered e s).nyb = s.nyb ∧
    (delivered e s).sum = s.sum ∧
    (delivered e s).elaHigh = s.elaHigh ∧
    (delivered e s).segUsed = s.segUsed ∧
    (delivered e s).elaUsed = s.elaUsed ∧
    (delivered e s).lensetOk = s.lensetOk ∧
    (delivered e s).scratch = s.scratch ∧
    (delivered e s).evtOpen = false ∧
    (delivered e s).cfg = s.cfg ∧
    (delivered e s).input = s.input ∧
    (delivered e s).flushInputs = s.flushInputs := by
  unfold delivered closeSinkEvent
  split <;> simp

end Sys2Proof.Machine
end

