-- ==== Sys2Proof/Tests/Slice0.lean ====
section
/-! SUPPORT. Small tests: ill-formed terms, words and lines of the spec, one step of each instruction with results taken from
95_test_vectors.md, and for each statement with hypotheses a state that meets them. -/

namespace Sys2Proof.Tests

open Sys2Proof Sys2Proof.Machine

/-! ## Ill-formed terms -/

/-- One byte more than a LEN field can count. -/
def tooLong : List Byte := List.replicate 256 0

theorem test_length_tooLong : tooLong.length = 256 := List.length_replicate

theorem test_wf_recordData : WellFormed (.recordData 0 tooLong 0) = false := by
  rw [WellFormed, dataFits, test_length_tooLong]; decide
theorem test_wf_recordEndOfFile : WellFormed (.recordEndOfFile 0 tooLong 0) = false := by
  rw [WellFormed, dataFits, test_length_tooLong]; decide
theorem test_wf_recordExtendedSegmentAddress : WellFormed (.recordExtendedSegmentAddress 0 tooLong 0) = false := by
  rw [WellFormed, dataFits, test_length_tooLong]; decide
theorem test_wf_recordStartSegmentAddress : WellFormed (.recordStartSegmentAddress 0 tooLong 0) = false := by
  rw [WellFormed, dataFits, test_length_tooLong]; decide
theorem test_wf_recordExtendedLinearAddress : WellFormed (.recordExtendedLinearAddress 0 tooLong 0) = false := by
  rw [WellFormed, dataFits, test_length_tooLong]; decide
theorem test_wf_recordStartLinearAddress : WellFormed (.recordStartLinearAddress 0 tooLong 0) = false := by
  rw [WellFormed, dataFits, test_length_tooLong]; decide

/-- LEN = 255 is a legal value on the wire (30_encoding.md rule R60). -/
theorem test_wf_longest : WellFormed (.recordData 0 (List.replicate 255 0) 0) = true := by
  rw [WellFormed, dataFits, List.length_replicate]; decide

/-! ## Decoding, on words written out from 30_encoding.md rules R68 and R69 and lines from rule R57 -/

/-- The ASCII bytes of a text. -/
def asc (cs : List Char) : List Byte := cs.map fun c => BitVec.ofNat 8 c.toNat

theorem test_decode_beginRead : decode (.word 0x0000000000000001) = .ok .beginRead := by decide
theorem test_decode_beginReadAtAddress :
    decode (.word 0x80000001_0000_00_02) = .ok (.beginReadAtAddress 0x80000001) := by decide
theorem test_decode_beginReadAtSegment : decode (.word 0x00000000_8001_00_03) = .ok (.beginReadAtSegment 0x8001) := by decide
theorem test_decode_readByte : decode (.word 0x00000000_0000_81_04) = .ok (.readByte 0x81) := by decide
theorem test_decode_endRead : decode (.word 0x0000000000000005) = .ok .endRead := by decide
theorem test_decode_beginWrite : decode (.word 0x0000000000000011) = .ok .beginWrite := by decide
theorem test_decode_writeAtAddress : decode (.word 0x80000001_0000_00_12) = .ok (.writeAtAddress 0x80000001) := by decide
theorem test_decode_writeAtSegment :
    decode (.word 0x80000001_4002_00_13) = .ok (.writeAtSegment 0x4002 0x80000001) := by decide
theorem test_decode_writeByte : decode (.word 0x00000000_0000_81_14) = .ok (.writeByte 0x81) := by decide
theorem test_decode_setOutputLineLength : decode (.word 0x00000000_0000_FF_15) = .ok (.setOutputLineLength 0xFF) := by decide
theorem test_decode_endWrite : decode (.word 0x0000000000000016) = .ok .endWrite := by decide

theorem test_decode_recordData :
    decode (.line (asc [':', '0', '3', '0', '0', '3', '0', '0', '0', '0', '2', '3', '3', '7', 'A', '1', 'E'])) =
      .ok (.recordData 0x0030 [0x02, 0x33, 0x7A] 0x1E) := by decide
theorem test_decode_recordEndOfFile :
    decode (.line (asc [':', '0', '0', '0', '0', '0', '0', '0', '1', 'F', 'F'])) = .ok (.recordEndOfFile 0 [] 0xFF) := by decide
theorem test_decode_recordExtendedSegmentAddress :
    decode (.line (asc [':', '0', '2', '0', '0', '0', '0', '0', '2', 'F', 'F', 'F', 'F', 'F', 'E'])) =
      .ok (.recordExtendedSegmentAddress 0 [0xFF, 0xFF] 0xFE) := by decide
theorem test_decode_recordStartSegmentAddress :
    decode (.line (asc [':', '0', '4', '0', '0', '0', '0', '0', '3', '0', '0', '0', '0', '3', '8', '0', '0', 'C', '1'])) =
      .ok (.recordStartSegmentAddress 0 [0x00, 0x00, 0x38, 0x00] 0xC1) := by decide
theorem test_decode_recordExtendedLinearAddress :
    decode (.line (asc [':', '0', '2', '0', '0', '0', '0', '0', '4', '0', '0', '0', '1', 'F', '9'])) =
      .ok (.recordExtendedLinearAddress 0 [0x00, 0x01] 0xF9) := by decide
theorem test_decode_recordStartLinearAddress :
    decode (.line (asc [':', '0', '4', '0', '0', '0', '0', '0', '5', '0', '8', '0', '0', '0', '0', '0', '0', 'E', 'F'])) =
      .ok (.recordStartLinearAddress 0 [0x08, 0x00, 0x00, 0x00] 0xEF) := by decide

/-- V-C-cv7b: reserved opcodes. -/
theorem test_decode_reserved :
    decodeCommand 0x00 = .error .reservedOpcode ∧ decodeCommand 0x06 = .error .reservedOpcode ∧
    decodeCommand 0x10 = .error .reservedOpcode ∧ decodeCommand 0x17 = .error .reservedOpcode ∧
    decodeCommand 0xFF = .error .reservedOpcode ∧ decodeCommand 0x0107 = .error .reservedOpcode := by decide
/-- V-C-cv8a to V-C-cv8d: fields that the opcode does not use. -/
theorem test_decode_fields :
    decodeCommand 0x0000000100000001 = .error .reservedField ∧ decodeCommand 0x0000000000013A04 = .error .reservedField ∧
    decodeCommand 0x0000010000000112 = .error .reservedField ∧
    decodeCommand 0x0000000100000004 = .error .reservedField := by decide
/-- A lower-case digit is no encoder spelling: the line is read character by character (30_encoding.md rules R57, R66). -/
theorem test_decode_lowercase :
    (decodeLine (asc [':', '0', '0', '0', '0', '0', '0', '0', '1', 'f', 'f'])).toOption = none := by decide

/-- The opcode-table words: the row's own bits with every operand zero. -/
theorem test_table_words :
    decodeTableWord 64 0x14 = some (.writeByte 0) ∧ decodeTableWord 64 0x00 = none ∧
    decodeTableWord 8 0x04 = some (.recordExtendedLinearAddress 0 [] 0) ∧ decodeTableWord 8 0x06 = none := by decide

/-! ## Small states -/

/-- LINE_MAX = 16, NEWLINE = LF. -/
def small (strict : Bool) : Config := { lineMax := 16, newline := .one .lf, strictTruncation := strict }

/-- After BEGIN_READ, with a sink that gives the answers. -/
def reading (strict : Bool) (answers : List SinkInput) : State :=
  beginReadState { State.reset with cfg := small strict, sinkInputs := answers }

/-- After BEGIN_WRITE. -/
def writing : State := beginWriteState { State.reset with cfg := small false }

/-- In read mode after `:03003000`, with a sink that gives the answers: the TYPE byte 00 has been read. -/
def inData (strict : Bool) (answers : List SinkInput) : State :=
  { reading strict answers with rstate := .dataHigh, lineLength := 3, address := 0x30, sum := 0x33 }

/-- In read mode at one of the states before the data bytes. -/
def inHead (r : ParseState) (n : Nybble) (len : Byte) (answers : List SinkInput) : State :=
  { reading false answers with rstate := r, nyb := n, lineLength := len, sum := len }

/-- In write mode with two bytes pending, LINE_LENGTH = 4, at an address. -/
def pendingAt (a : Addr) : State := { writing with lineLength := 4, length := 2, data := [(0, 0xAA), (1, 0xBB)], address := a, lensetOk := false }

/-- The same in a segmented stream. -/
def segmentedAt (a : Addr) : State := { pendingAt a with segUsed := true, segment := 0x1000 }

/-- In read mode after `:0300300002337A1`. -/
def lastDigit (answers : List SinkInput) : State :=
  { inData false answers with
    rstate := .dataLow
    length := 3
    nyb := 1
    sum := 0xE2
    data := [(0, 0x02), (1, 0x33), (2, 0x7A)] }

/-- In write mode with LINE_LENGTH = 4 and three bytes pending. -/
def almostFull (a : Addr) : State :=
  { writing with
    lineLength := 4
    length := 3
    data := [(0, 0x21), (1, 0x46), (2, 0x01)]
    address := a
    lensetOk := false }

/-- A value of the next state. -/
def after {α : Type} (r : Result) (f : State → α) : Option α :=
  match r with
  | .next s => some (f s)
  | .fault _ => none
  | .refused _ => none

/-- The refusal. -/
def refusal (r : Result) : Option Refusal :=
  match r with
  | .next _ => none
  | .fault _ => none
  | .refused q => some q

/-! ## One step of each instruction -/

/-- 70_reset_and_hazards.md rule R122. -/
theorem test_beginRead : after (exec .beginRead (pendingAt 5)) (fun s => (s.mode, s.address, s.length, s.lineLength)) =
    some (.read, 0, 0, 0) := by decide
theorem test_beginReadAtAddress : after (exec (.beginReadAtAddress 0x08000000) writing) (fun s => (s.mode, s.address)) =
    some (.read, 0x08000000) := by decide
theorem test_beginReadAtSegment :
    after (exec (.beginReadAtSegment 0x1000) writing) (fun s => (s.mode, s.segment, s.address)) = some (.read, 0x1000, 0) := by
  decide

/-- V-A2: the last digit of the line completes it. -/
theorem test_readByte_completes :
    after (exec (.readByte 0x45) (lastDigit [.answer true])) (fun s => (s.rstate, s.length, s.sum, s.events)) =
      some (.waitForStart, 0, 0, [.sink { rtype := .data, err := false, address := 0x30, segment := 0, linear := 0x30, declared := 3, length := 3, data := [0x02, 0x33, 0x7A] }]) := by decide
/-- V-D-ovf: a LEN above LINE_MAX. -/
theorem test_readByte_overflow :
    after (exec (.readByte 0x30) (inHead .countLow 2 0 [.answer false])) (fun s => (s.rstate, s.lineLength, s.events)) =
      some (.waitForStart, 32, [.sink { rtype := .data, err := true, address := 0, segment := 0, linear := 0, declared := 32, length := 0, data := [] }]) := by decide
/-- V-D-endr. -/
theorem test_endRead :
    after (exec .endRead { inData false [.answer false] with length := 2, data := [(0, 0x02), (1, 0x33)] })
        (fun s => (s.rstate, s.length, s.events)) =
      some (.waitForStart, 0, [.sink { rtype := .data, err := true, address := 0x30, segment := 0, linear := 0x30, declared := 3, length := 2, data := [0x02, 0x33] }]) := by decide
/-- V-D-endr2: no line in progress. -/
theorem test_endRead_idle : after (exec .endRead (reading false [])) (fun s => (s.events, s.mode)) = some ([], .read) := by decide

/-- 41_encoder.md rule R98: DEFAULT_LINE_LENGTH = min(32, 16). -/
theorem test_beginWrite : after (exec .beginWrite (inData false [])) (fun s => (s.mode, s.lineLength, s.lensetOk)) =
    some (.write, 16, true) := by decide
/-- V-E-same: WRITE_AT_ADDRESS flushes. -/
theorem test_writeAtAddress :
    after (exec (.writeAtAddress 2) (pendingAt 0)) (fun s => (s.address, s.length, s.events)) =
      some (2, 0, [.flush (asc [':', '0', '2', '0', '0', '0', '0', '0', '0', 'A', 'A', 'B', 'B', '9', '9', '\n'])]) := by decide
/-- V-E-s1: a segment change emits one record. -/
theorem test_writeAtSegment :
    after (exec (.writeAtSegment 0x1000 0x10) writing) (fun s => (s.address, s.segment, s.segUsed, s.events)) =
      some (0x10, 0x1000, true,
        [.flush (asc [':', '0', '2', '0', '0', '0', '0', '0', '2', '1', '0', '0', '0', 'E', 'C', '\n'])]) := by decide
/-- V-E-cv5c. -/
theorem test_writeAtSegment_mix :
    refusal (exec (.writeAtSegment 0x1000 0) { writing with elaUsed := true, elaHigh := 1 }) = some .segmentLinearMix := by decide
/-- V-A1 as corrected: the fourth byte fills the line. -/
theorem test_writeByte_fills :
    after (exec (.writeByte 0x36) (almostFull 0x100)) (fun s => (s.address, s.length, s.events)) =
      some (0x104, 0, [.flush (asc [':', '0', '4', '0', '1', '0', '0', '0', '0', '2', '1', '4', '6', '0', '1', '3', '6', '5', 'D',
        '\n'])]) := by decide
/-- 41_encoder.md rule R101: no flush before the line is full. -/
theorem test_writeByte_appends :
    after (exec (.writeByte 0xCC) (pendingAt 0)) (fun s => (s.length, s.data, s.lensetOk, s.events)) =
      some (3, [(0, 0xAA), (1, 0xBB), (2, 0xCC)], false, []) := by decide
/-- V-E-lff and V-E-l0. -/
theorem test_setOutputLineLength :
    after (exec (.setOutputLineLength 0xFF) writing) (·.lineLength) = some 16 ∧
    after (exec (.setOutputLineLength 0) { writing with cfg := Config.reference }) (·.lineLength) = some 32 := by decide
/-- V-E-cv4. -/
theorem test_setOutputLineLength_late : refusal (exec (.setOutputLineLength 4) (pendingAt 0)) = some .lineLengthMisplaced := by
  decide
/-- V-P5. -/
theorem test_endWrite :
    after (exec .endWrite writing) (fun s => (s.mode, s.lensetOk, s.events)) =
      some (.ended, false, [.flush (asc [':', '0', '0', '0', '0', '0', '0', '0', '1', 'F', 'F', '\n'])]) := by decide
/-- P2: the record before a line whose high half is not in effect. -/
theorem test_endWrite_ela :
    after (exec .endWrite { writing with lineLength := 4, length := 1, data := [(0, 0xEE)], address := 0x00010002 })
        (fun s => (s.elaHigh, s.elaUsed, s.address, s.events)) =
      some (1, true, 0x00010003,
        [.flush (asc [':', '0', '2', '0', '0', '0', '0', '0', '4', '0', '0', '0', '1', 'F', '9', '\n']),
         .flush (asc [':', '0', '1', '0', '0', '0', '2', '0', '0', 'E', 'E', '0', 'F', '\n']),
         .flush (asc [':', '0', '0', '0', '0', '0', '0', '0', '1', 'F', 'F', '\n'])]) := by decide

/-- V-A3: a wrong checksum. -/
theorem test_recordData :
    after (exec (.recordData 0x0030 [0x02, 0x33, 0x7A] 0x1F) (reading false [.answer false])) (fun s => (s.sum, s.events)) =
      some (1, [.sink { rtype := .data, err := true, address := 0x30, segment := 0, linear := 0x30, declared := 3, length := 3, data := [0x02, 0x33, 0x7A] }]) := by decide
/-- P3, its fourth line. -/
theorem test_recordEndOfFile :
    after (exec (.recordEndOfFile 0 [] 0xFF) { reading false [.answer true] with address := 0x00010030 })
        (fun s => (s.address, s.rtype, s.nyb, s.mode)) = some (0x00010000, .endOfFile, 0xF, .read) := by decide
/-- V-D-esa. -/
theorem test_recordExtendedSegmentAddress :
    after (exec (.recordExtendedSegmentAddress 0 [0xFF, 0xFF] 0xFE) (reading false [.answer true])) (·.segment) = some 0xFFFF := by
  decide
/-- 30_encoding.md rule R62: the event and nothing more. -/
theorem test_recordStartSegmentAddress :
    after (exec (.recordStartSegmentAddress 0 [0x00, 0x00, 0x38, 0x00] 0xC1) (reading false [.answer true]))
        (fun s => (s.segment, s.address, s.events.length)) = some (0, 0, 1) := by decide
/-- V-D-ela and V-D-ela-rej. -/
theorem test_recordExtendedLinearAddress :
    after (exec (.recordExtendedLinearAddress 0 [0x00, 0x01] 0xF9) (reading false [.answer true])) (·.address) = some 0x00010000 ∧
    after (exec (.recordExtendedLinearAddress 0 [0x00, 0x01] 0xF9) (reading false [.answer false])) (·.address) = some 0 := by decide
/-- 30_encoding.md rule R62. -/
theorem test_recordStartLinearAddress :
    after (exec (.recordStartLinearAddress 0 [0x08, 0x00, 0x00, 0x00] 0xEF) (reading false [.answer true]))
        (fun s => (s.segment, s.address, s.events.length)) = some (0, 0, 1) := by decide

/-! ## Steps, and the state after reset -/

/-- V-C-cv1a, V-C-ok. -/
theorem test_reset_step :
    refusal (step (State.reset.withFetchWord 64 0x3A04)) = some .notInitialised ∧
    after (step (State.reset.withFetchWord 64 0x01)) (fun s => (s.mode, s.input)) = some (.read, []) := by decide
/-- V-C-cv7c. -/
theorem test_step_reserved : refusal (step (State.reset.withFetchWord 64 0x0107)) = some .reservedOpcode := by decide
/-- 00_scope.md rule R10 with LINE_MAX = 1 and NL_LEN = 1: the line has 16 bytes, SCRATCH 14. -/
theorem test_scratch_size :
    after (exec (.writeAtSegment 0x1000 0) (beginWriteState { State.reset with cfg := { small false with lineMax := 1 } }))
        (fun s => (s.scratch.length, s.scratch.read 13, s.scratch.read 14, s.events)) =
      some (14, 0x45, 0, [.flush (asc [':', '0', '2', '0', '0', '0', '0', '0', '2', '1', '0', '0', '0', 'E', 'C', '\n'])]) := by
  decide
/-- V-C-cv6: the sink issues BEGIN_READ during its event. -/
theorem test_step_reentrant :
    refusal (exec .endRead (inData false [.command 0x01])) = some .reentrantCommand := by decide
/-- V-D-case: lower-case digits in a READ_LINE. -/
theorem test_step_raw_line :
    after (step { reading false [.answer true] with input := [.line (asc [':', '0', '0', '0', '0', '0', '0', '0', '1', 'f', 'f'])] }) (fun s => (s.sum, s.events.length)) =
      some (0, 1) := by decide
/-- V-D-status. -/
theorem test_status :
    ({ inData false [] with evtOpen := true, length := 3, data := [(0, 0x02), (1, 0x33), (2, 0x7A)] } : State).readableData =
      some [0x02, 0x33, 0x7A] ∧ (inData false []).status.mode = 1 ∧ (inData false []).status.address = 0x30 := by decide
/-- 30_encoding.md rule R71. -/
theorem test_textualForm : textualForm (.writeAtSegment 0x1000 0x10) = "WRITE_AT_SEGMENT 0x1000, 0x00000010" := by decide

/-! ## Witnesses: for each statement with hypotheses, states and operands that meet them together -/

/-- In read mode with sixteen data bytes read, as many as LINE_MAX, before the checksum's low digit. -/
def lastDigitMax (answers : List SinkInput) : State :=
  { inData false answers with rstate := .dataLow, lineLength := 16, length := 16, data := [(0, 1), (15, 2)] }

/-- In read mode with one data byte of three read, before the next one's low digit. -/
def inByte : State := { inData false [.answer true] with rstate := .dataLow, length := 1, nyb := 3, data := [(0, 2)] }

/-- LINE_MAX = 1. -/
def writingOne : State := beginWriteState { State.reset with cfg := { small false with lineMax := 1 } }

/-- In write mode with fifteen bytes pending and LINE_LENGTH = LINE_MAX = 16. -/
def almostMax : State := { writing with length := 15, data := [(0, 1)], lensetOk := false }

theorem witness_inv_reading : Inv (reading false [.answer true]) := by constructor <;> decide
theorem witness_inv_reading_strict : Inv (reading true [.answer true]) := by constructor <;> decide
theorem witness_inv_inData : Inv (inData false [.answer true]) := by constructor <;> decide
theorem witness_inv_inData_strict : Inv (inData true [.answer true]) := by constructor <;> decide
theorem witness_inv_inData_reentrant : Inv (inData false [.command 0x01]) := by constructor <;> decide
theorem witness_inv_inByte : Inv inByte := by constructor <;> decide
theorem witness_inv_lastDigit : Inv (lastDigit [.answer true]) := by constructor <;> decide
theorem witness_inv_lastDigitMax : Inv (lastDigitMax [.answer true]) := by constructor <;> decide
theorem witness_inv_countLow : Inv (inHead .countLow 1 0 [.answer true]) := by constructor <;> decide
theorem witness_inv_writing : Inv writing := by constructor <;> decide
theorem witness_inv_writingOne : Inv writingOne := by constructor <;> decide
theorem witness_inv_pendingAt : Inv (pendingAt 0) ∧ Inv (pendingAt 0x10000) := by constructor <;> constructor <;> decide
theorem witness_inv_segmentedAt : Inv (segmentedAt 0x10000) := by constructor <;> decide
theorem witness_inv_almostFull : Inv (almostFull 0x100) := by constructor <;> decide
theorem witness_inv_almostFull_segmented : Inv { almostFull 0x10000 with segUsed := true, segment := 0x1000 } := by
  constructor <;> decide
theorem witness_inv_almostMax : Inv almostMax := by constructor <;> decide

theorem witness_StepRunsDecodedInstruction :
    ({ State.reset with input := [.word 0x01] } : State).input = .word 0x01 :: [] ∧
    ({ State.reset with input := [.word 0x01] } : State).evtOpen = false ∧ decode (.word 0x01) = .ok .beginRead ∧
    ({ State.reset with input := [.line (lineText 1 0 [] 0xFF)] } : State).input = .line (lineText 1 0 [] 0xFF) :: [] ∧
    decode (.line (lineText 1 0 [] 0xFF)) = .ok (.recordEndOfFile 0 [] 0xFF) := by decide
theorem witness_IdleHoldsState : State.reset.input = [] := rfl
theorem witness_ReadLineIsItsReadBytes :
    ({ State.reset with input := [.line [0x3A]] } : State).input = .line [0x3A] :: [] ∧
    ({ State.reset with input := readBytes [0x3A, 0x30] } : State).input = readBytes [0x3A, 0x30] ++ [] := by decide
theorem witness_ReservedWordsRefused :
    opField 0x00 ∉ commandOpcodes ∧ opField 0x06 ∉ commandOpcodes ∧ opField 0x10 ∉ commandOpcodes ∧
    opField 0x17 ∉ commandOpcodes ∧
    (opField 0x0000000100000001 ∈ commandOpcodes ∧ aField 0x0000000100000001 ≠ 0 ∧
      opField 0x0000000100000001 ∉ opcodesUsingA) ∧
    (opField 0x0000000000013A04 ∈ commandOpcodes ∧ sField 0x0000000000013A04 ≠ 0 ∧
      opField 0x0000000000013A04 ∉ opcodesUsingS) ∧
    (opField 0x0000010000000112 ∈ commandOpcodes ∧ bField 0x0000010000000112 ≠ 0 ∧
      opField 0x0000010000000112 ∉ opcodesUsingB) ∧
    ({ State.reset with input := [.word 0x00] } : State).input = .word 0x00 :: [] ∧
    ({ State.reset with input := [.word 0x00] } : State).evtOpen = false := by decide
theorem witness_OpenEventRefusesCommands :
    ({ writing with evtOpen := true, input := [.word 0x01] } : State).evtOpen = true ∧
    ({ writing with evtOpen := true, input := [.word 0x01] } : State).input = .word 0x01 :: [] := by decide
/-- A flush device that issues a command. -/
def flushReentrant (s : State) : State := { s with flushInputs := [.command 0x01] }

theorem witness_inv_reentrant :
    Inv (inData true [.command 0x01]) ∧ Inv (inHead .countLow 1 0 [.command 0x01]) ∧ Inv (lastDigitMax [.command 0x01]) ∧
    Inv (reading false [.command 0x01]) ∧ Inv (flushReentrant (almostFull 0x100)) ∧ Inv (flushReentrant (pendingAt 0)) ∧
    Inv (flushReentrant writing) := by
  refine ⟨?_, ?_, ?_, ?_, ?_, ?_, ?_⟩ <;> constructor <;> decide

/-- Complete with LENGTH = LINE_MAX + 1, and Render with LINE_MAX data bytes, and with two where LINE_MAX = 1. -/
theorem witness_DeviceCommandEndsTheCommand_procedures :
    (({ inData false [.command 0x01] with length := 17 } : State).length.toNat ≤ (inData false []).cfg.lineMax.toNat + 1 ∧
      sinkReenters { inData false [.command 0x01] with length := 17 } = true) ∧
    ((List.replicate 16 (0 : Byte)).length ≤ (flushReentrant writing).cfg.lineMax.toNat ∧
      flushReenters (flushReentrant writing) = true) ∧
    (halfBytes 1).length ≤ 2 ∧ flushReenters (flushReentrant writingOne) = true := by decide
/-- A line in progress, without and with STRICT_TRUNCATION; LEN = 17 with LINE_MAX = 16; the checksum after 16 bytes; and no line in
progress, for a record of any length. -/
theorem witness_DeviceCommandEndsTheCommand_reading :
    (Inv (inData false [.command 0x01]) ∧ (inData false [.command 0x01]).mode = .read ∧
      sinkReenters (inData false [.command 0x01]) = true ∧ (inData false [.command 0x01]).rstate ≠ .waitForStart) ∧
    (Inv (inData true [.command 0x01]) ∧ (inData true [.command 0x01]).mode = .read ∧
      sinkReenters (inData true [.command 0x01]) = true ∧ (inData true [.command 0x01]).rstate ≠ .waitForStart ∧
      (inData true [.command 0x01]).cfg.strictTruncation = true) ∧
    (Inv (inHead .countLow 1 0 [.command 0x01]) ∧ (inHead .countLow 1 0 [.command 0x01]).mode = .read ∧
      sinkReenters (inHead .countLow 1 0 [.command 0x01]) = true ∧
      (inHead .countLow 1 0 [.command 0x01]).rstate = .countLow ∧ charClass 0x31 = .hex ∧
      (inHead .countLow 1 0 [.command 0x01]).cfg.lineMax.toNat <
        (joinNybbles (inHead .countLow 1 0 [.command 0x01]).nyb (hexval 0x31)).toNat) ∧
    (Inv (lastDigitMax [.command 0x01]) ∧ (lastDigitMax [.command 0x01]).mode = .read ∧
      sinkReenters (lastDigitMax [.command 0x01]) = true ∧ (lastDigitMax [.command 0x01]).rstate = .dataLow ∧
      (lastDigitMax [.command 0x01]).length = (lastDigitMax [.command 0x01]).lineLength) ∧
    (Inv (reading false [.command 0x01]) ∧ (reading false [.command 0x01]).mode = .read ∧
      sinkReenters (reading false [.command 0x01]) = true ∧ (List.replicate 255 (0 : Byte)).length ≤ 255) :=
  ⟨⟨witness_inv_inData_reentrant, by decide⟩, ⟨witness_inv_reentrant.1, by decide⟩,
    ⟨witness_inv_reentrant.2.1, by decide⟩, ⟨witness_inv_reentrant.2.2.1, by decide⟩,
    witness_inv_reentrant.2.2.2.1, by decide, by decide, by rw [List.length_replicate]⟩
theorem witness_DeviceCommandEndsTheCommand_writing :
    (Inv (flushReentrant (almostFull 0x100)) ∧ (flushReentrant (almostFull 0x100)).mode = .write ∧
      flushReenters (flushReentrant (almostFull 0x100)) = true ∧
      (flushReentrant (almostFull 0x100)).length + 1 = (flushReentrant (almostFull 0x100)).lineLength ∧
      ¬FlushMixes (flushReentrant (almostFull 0x100))) ∧
    (Inv (flushReentrant (pendingAt 0)) ∧ (flushReentrant (pendingAt 0)).mode = .write ∧
      flushReenters (flushReentrant (pendingAt 0)) = true ∧ (flushReentrant (pendingAt 0)).length ≠ 0 ∧
      ¬FlushMixes (flushReentrant (pendingAt 0))) ∧
    (Inv (flushReentrant writing) ∧ (flushReentrant writing).mode = .write ∧ flushReenters (flushReentrant writing) = true ∧
      (flushReentrant writing).length = 0 ∧ (flushReentrant writing).elaUsed = false ∧
      (1 : Half) ≠ (flushReentrant writing).segment) :=
  ⟨⟨witness_inv_reentrant.2.2.2.2.1, by decide, by decide, by decide, by unfold FlushMixes; decide⟩,
    ⟨witness_inv_reentrant.2.2.2.2.2.1, by decide, by decide, by decide, by unfold FlushMixes; decide⟩,
    witness_inv_reentrant.2.2.2.2.2.2, by decide⟩
theorem witness_WrongModeCommandsRefused :
    (State.reset.evtOpen = false ∧ State.reset.mode = .uninit ∧ isReadCommand .endRead = true ∧
      isWriteCommand .endWrite = true) ∧
    (writing.evtOpen = false ∧ writing.mode = .write) ∧
    ((reading false []).evtOpen = false ∧ (reading false []).mode = .read) ∧
    (({ writing with mode := .ended } : State).evtOpen = false ∧ ({ writing with mode := .ended } : State).mode = .ended) ∧
    ((pendingAt 0).evtOpen = false ∧ (pendingAt 0).mode = .write ∧ (pendingAt 0).lensetOk = false) := by decide
theorem witness_DecodeOfEncode : WellFormed (.recordData 0xFFFF (List.replicate 255 0) 0xFF) = true := by
  rw [WellFormed, dataFits, List.length_replicate]; decide
theorem witness_EncodeOfDecode : decode (.word 0x1004) = .ok (.readByte 0x10) := by decide
theorem witness_HexDigitValues :
    (0x30 ≤ (0x30 : Byte).toNat ∧ (0x30 : Byte).toNat ≤ 0x39) ∧ (0x30 ≤ (0x39 : Byte).toNat ∧ (0x39 : Byte).toNat ≤ 0x39) ∧
    (0x41 ≤ (0x41 : Byte).toNat ∧ (0x41 : Byte).toNat ≤ 0x46) ∧ (0x41 ≤ (0x46 : Byte).toNat ∧ (0x46 : Byte).toNat ≤ 0x46) ∧
    (0x61 ≤ (0x61 : Byte).toNat ∧ (0x61 : Byte).toNat ≤ 0x66) ∧ (0x61 ≤ (0x66 : Byte).toNat ∧ (0x66 : Byte).toNat ≤ 0x66) := by
  decide
theorem witness_ChecksumFormula : ([] : List Byte).length ≤ 255 ∧ (List.replicate 255 (0 : Byte)).length ≤ 255 := by
  rw [List.length_replicate]; decide
theorem witness_LineFormat :
    ([0xAA] : List Byte).length ≤ 255 ∧
    ([BitVec.ofNat 8 1, (0 : Half).extractLsb' 8 8, (0 : Half).extractLsb' 0 8, (0 : Byte)] ++ [0xAA] ++ [0x55])[0]? = some 0x01 ∧
    ([BitVec.ofNat 8 1, (0 : Half).extractLsb' 8 8, (0 : Half).extractLsb' 0 8, (0 : Byte)] ++ [0xAA] ++ [0x55])[5]? = some 0x55 := by
  decide
theorem witness_PowerOn : isReadCommand (.readByte 0x3A) = true ∧ isWriteCommand (.writeByte 1) = true := by decide
theorem witness_BeginReadStartsStream : (pendingAt 5).evtOpen = false ∧ State.reset.evtOpen = false := by decide
theorem witness_BeginWriteStartsStream : (inData false []).evtOpen = false ∧ State.reset.evtOpen = false := by decide
theorem witness_BeginForgetsRegisters :
    isReadCommand .beginRead = false ∧ isWriteCommand .beginRead = false ∧ (pendingAt 5).evtOpen = false ∧
    (inData false []).evtOpen = false ∧ (pendingAt 5).cfg = (inData false []).cfg ∧
    (pendingAt 5).input = (inData false []).input ∧ (pendingAt 5).sinkInputs = (inData false []).sinkInputs ∧
    (pendingAt 5).sinkDraws = (inData false []).sinkDraws ∧ (pendingAt 5).flushInputs = (inData false []).flushInputs ∧
    (pendingAt 5).events = (inData false []).events := by decide

theorem witness_IgnoredBytesChangeNothing :
    ReadReady inByte ∧ charClass 0x20 = .other ∧ charClass 0xBA = .other ∧ ReadReady (reading false []) ∧
    (reading false []).rstate = .waitForStart ∧ charClass 0x30 = .hex ∧ charClass 0x00 = .term :=
  ⟨⟨rfl, rfl⟩, by decide, by decide, ⟨rfl, rfl⟩, by decide⟩
theorem witness_StartRestartsLine :
    (Inv (inData false [.answer true]) ∧ (inData false [.answer true]).mode = .read ∧
      (inData false [.answer true]).cfg.strictTruncation = false) ∧
    (Inv (reading true [.answer true]) ∧ (reading true [.answer true]).mode = .read ∧
      (reading true [.answer true]).rstate = .waitForStart) ∧
    (Inv (inData true [.answer true]) ∧ (inData true [.answer true]).mode = .read ∧
      (inData true [.answer true]).cfg.strictTruncation = true ∧ (inData true [.answer true]).rstate ≠ .waitForStart ∧
      sinkReenters (inData true [.answer true]) = false) :=
  ⟨⟨witness_inv_inData, by decide⟩, ⟨witness_inv_reading_strict, by decide⟩, witness_inv_inData_strict, by decide⟩
theorem witness_TerminatorAndEndReadCompleteEarly :
    (Inv (reading false [.answer true]) ∧ (reading false [.answer true]).mode = .read ∧
      (reading false [.answer true]).rstate = .waitForStart) ∧
    (Inv (inData false [.answer true]) ∧ (inData false [.answer true]).mode = .read ∧
      (inData false [.answer true]).rstate ≠ .waitForStart ∧ sinkReenters (inData false [.answer true]) = false) :=
  ⟨⟨witness_inv_reading, by decide⟩, witness_inv_inData, by decide⟩
theorem witness_HighDigitWaitsInNyb :
    charClass 0x66 = .hex ∧ (ReadReady (inHead .countHigh 0 0 []) ∧ (inHead .countHigh 0 0 []).rstate = .countHigh) ∧
    (ReadReady (inHead .addrMsbHigh 3 3 []) ∧ (inHead .addrMsbHigh 3 3 []).rstate = .addrMsbHigh) ∧
    (ReadReady (inHead .addrLsbHigh 3 3 []) ∧ (inHead .addrLsbHigh 3 3 []).rstate = .addrLsbHigh) ∧
    (ReadReady (inHead .recordTypeHigh 3 3 []) ∧ (inHead .recordTypeHigh 3 3 []).rstate = .recordTypeHigh) ∧
    (ReadReady (inData false []) ∧ (inData false []).rstate = .dataHigh) :=
  ⟨by decide, ⟨⟨rfl, rfl⟩, rfl⟩, ⟨⟨rfl, rfl⟩, rfl⟩, ⟨⟨rfl, rfl⟩, rfl⟩, ⟨⟨rfl, rfl⟩, rfl⟩, ⟨rfl, rfl⟩, rfl⟩
/-- LEN = 16 is LINE_MAX; LEN = 17 is the first above it. -/
theorem witness_CountByteDeclaresLength :
    Inv (inHead .countLow 1 0 [.answer true]) ∧ (inHead .countLow 1 0 [.answer true]).mode = .read ∧
    (inHead .countLow 1 0 [.answer true]).rstate = .countLow ∧ charClass 0x30 = .hex ∧ charClass 0x31 = .hex ∧
    (joinNybbles (inHead .countLow 1 0 [.answer true]).nyb (hexval 0x30)).toNat ≤
      (inHead .countLow 1 0 [.answer true]).cfg.lineMax.toNat ∧
    (inHead .countLow 1 0 [.answer true]).cfg.lineMax.toNat <
      (joinNybbles (inHead .countLow 1 0 [.answer true]).nyb (hexval 0x31)).toNat ∧
    sinkReenters (inHead .countLow 1 0 [.answer true]) = false :=
  ⟨witness_inv_countLow, by decide⟩
theorem witness_AddressBytesTracked :
    (ReadReady (inHead .addrMsbLow 0xF 3 []) ∧ (inHead .addrMsbLow 0xF 3 []).rstate = .addrMsbLow) ∧
    (ReadReady (inHead .addrLsbLow 0xF 3 []) ∧ (inHead .addrLsbLow 0xF 3 []).rstate = .addrLsbLow) ∧ charClass 0x46 = .hex :=
  ⟨⟨⟨rfl, rfl⟩, rfl⟩, ⟨⟨rfl, rfl⟩, rfl⟩, by decide⟩
/-- TYPE = 6 is the first unknown type; TYPE = 5 is the last known one. -/
theorem witness_TypeByteSetsOrDrops :
    ReadReady (inHead .recordTypeLow 0 3 []) ∧ (inHead .recordTypeLow 0 3 []).rstate = .recordTypeLow ∧
    charClass 0x36 = .hex ∧ charClass 0x35 = .hex ∧
    5 < (joinNybbles (inHead .recordTypeLow 0 3 []).nyb (hexval 0x36)).toNat ∧
    (joinNybbles (inHead .recordTypeLow 0 3 []).nyb (hexval 0x35)).toNat ≤ 5 :=
  ⟨⟨rfl, rfl⟩, by decide⟩
theorem witness_DataByteStoredOrLineChecked :
    charClass 0x45 = .hex ∧
    (Inv inByte ∧ inByte.mode = .read ∧ inByte.rstate = .dataLow ∧ inByte.length.toNat < inByte.lineLength.toNat) ∧
    (Inv (lastDigitMax [.answer true]) ∧ (lastDigitMax [.answer true]).mode = .read ∧
      (lastDigitMax [.answer true]).rstate = .dataLow ∧
      (lastDigitMax [.answer true]).length = (lastDigitMax [.answer true]).lineLength ∧
      sinkReenters (lastDigitMax [.answer true]) = false) :=
  ⟨by decide, ⟨witness_inv_inByte, by decide⟩, witness_inv_lastDigitMax, by decide⟩
theorem witness_CompleteDeliversLine :
    (lastDigitMax [.answer true]).evtOpen = false ∧
    (lastDigitMax [.answer true]).length.toNat ≤ (lastDigitMax [.answer true]).cfg.lineMax.toNat + 1 ∧
    sinkReenters (lastDigitMax [.answer true]) = false := by decide
theorem witness_ReadByteTotal :
    Inv (lastDigit [.answer true]) ∧ (lastDigit [.answer true]).mode = .read ∧ sinkReenters (lastDigit [.answer true]) = false :=
  ⟨witness_inv_lastDigit, by decide⟩
theorem witness_ReadCommandsFrame :
    (isReadCommand .endRead = true ∧ after (exec .endRead (inData false [.answer true])) (·.mode) = some .read) ∧
    (isReadCommand (.readByte 0x45) = true ∧ after (exec (.readByte 0x45) inByte) (·.mode) = some .read ∧
      inByte.data.wf ∧ 0 ≠ inByte.length.toNat ∧ (inData false []).rstate ≠ .dataLow) := by decide
theorem witness_RecordLineDelivered :
    Inv (reading false [.answer true]) ∧ (reading false [.answer true]).mode = .read ∧
    (reading false [.answer true]).rstate = .waitForStart ∧ sinkReenters (reading false [.answer true]) = false ∧
    ([0x00, 0x01] : List Byte).length ≤ (reading false [.answer true]).cfg.lineMax.toNat ∧
    (List.replicate 16 (0 : Byte)).length ≤ (reading false [.answer true]).cfg.lineMax.toNat ∧
    Inv (inData false [.answer true]) ∧ (inData false [.answer true]).mode = .read ∧
    (inData false [.answer true]).cfg.strictTruncation = false ∧ sinkReenters (inData false [.answer true]) = false :=
  ⟨witness_inv_reading, by decide, by decide, by decide, by decide, by decide, witness_inv_inData, by decide⟩
theorem witness_OverlongRecordLine :
    Inv (reading false [.answer true]) ∧ (reading false [.answer true]).mode = .read ∧
    (reading false [.answer true]).rstate = .waitForStart ∧ sinkReenters (reading false [.answer true]) = false ∧
    (reading false [.answer true]).cfg.lineMax.toNat < (List.replicate 17 (0 : Byte)).length ∧
    (List.replicate 17 (0 : Byte)).length ≤ 255 :=
  ⟨witness_inv_reading, by decide⟩
theorem witness_StrictRecordLineReportsTruncation :
    Inv (inData true [.answer true]) ∧ (inData true [.answer true]).mode = .read ∧
    (inData true [.answer true]).rstate ≠ .waitForStart ∧ (inData true [.answer true]).cfg.strictTruncation = true ∧
    sinkReenters (inData true [.answer true]) = false :=
  ⟨witness_inv_inData_strict, by decide⟩
/-- The last byte of ADDR differs, and the CHECKSUM byte. -/
theorem witness_SingleByteErrorReported_ends :
    ((0xFD : Byte) = checksum RecordType.data.typeByte 0 [0x02] ∧
      (halfBytes 0 ++ [0x02] ++ [0xFD])[1]? ≠ (halfBytes 1 ++ [0x02] ++ [0xFD])[1]? ∧
      ∀ j, j ≠ 1 → (halfBytes 0 ++ [0x02] ++ [0xFD])[j]? = (halfBytes 1 ++ [0x02] ++ [0xFD])[j]?) ∧
    ((halfBytes 0 ++ [0x02] ++ [0xFD])[3]? ≠ (halfBytes 0 ++ [0x02] ++ [0xFC])[3]? ∧
      ∀ j, j ≠ 3 → (halfBytes 0 ++ [0x02] ++ [0xFD])[j]? = (halfBytes 0 ++ [0x02] ++ [0xFC])[j]?) :=
  ⟨⟨by decide, by decide, fun j hj =>
    match j, hj with
    | 0, _ => rfl
    | 2, _ => rfl
    | 3, _ => rfl
    | _ + 4, _ => rfl⟩, by decide, fun j hj =>
    match j, hj with
    | 0, _ => rfl
    | 1, _ => rfl
    | 2, _ => rfl
    | _ + 4, _ => rfl⟩
/-- The data byte differs: 0x02 is read as 0x03. -/
theorem witness_SingleByteErrorReported :
    Inv (reading false [.answer true]) ∧ (reading false [.answer true]).mode = .read ∧
    (reading false [.answer true]).rstate = .waitForStart ∧ sinkReenters (reading false [.answer true]) = false ∧
    ([0x03] : List Byte).length ≤ (reading false [.answer true]).cfg.lineMax.toNat ∧
    (0xFD : Byte) = checksum RecordType.data.typeByte 0 [0x02] ∧ ([0x03] : List Byte).length = ([0x02] : List Byte).length ∧
    (halfBytes 0 ++ [0x02] ++ [0xFD])[2]? ≠ (halfBytes 0 ++ [0x03] ++ [0xFD])[2]? ∧
    ∀ j, j ≠ 2 → (halfBytes 0 ++ [0x02] ++ [0xFD])[j]? = (halfBytes 0 ++ [0x03] ++ [0xFD])[j]? :=
  ⟨witness_inv_reading, by decide, by decide, by decide, by decide, by decide, by decide, by decide, fun j hj =>
    match j, hj with
    | 0, _ => rfl
    | 1, _ => rfl
    | 3, _ => rfl
    | _ + 4, _ => rfl⟩

theorem witness_FlushDutiful (s : State) (h : s.flushInputs = []) : FlushDutiful s := by
  intro w hw; rw [h] at hw; exact absurd hw (List.not_mem_nil)

theorem witness_RenderEmitsOneLine :
    Inv writing ∧ flushReenters writing = false ∧ (List.replicate 16 (0 : Byte)).length ≤ writing.cfg.lineMax.toNat :=
  ⟨witness_inv_writing, by decide⟩
theorem witness_ScratchKeepsLine :
    Inv writing ∧ flushReenters writing = false ∧ (List.replicate 16 (0 : Byte)).length ≤ writing.cfg.lineMax.toNat :=
  witness_RenderEmitsOneLine
theorem witness_ExtendedRecordRenders : Inv writingOne ∧ flushReenters writingOne = false := ⟨witness_inv_writingOne, by decide⟩
theorem witness_FlushLineEmitsDataLine :
    (Inv (pendingAt 0x10000) ∧ (pendingAt 0x10000).mode = .write ∧ FlushDutiful (pendingAt 0x10000) ∧
      ¬FlushMixes (pendingAt 0x10000)) ∧
    (Inv (segmentedAt 0x10000) ∧ (segmentedAt 0x10000).mode = .write ∧ FlushDutiful (segmentedAt 0x10000) ∧
      FlushMixes (segmentedAt 0x10000)) :=
  ⟨⟨witness_inv_pendingAt.2, rfl, witness_FlushDutiful _ rfl, by unfold FlushMixes; decide⟩,
    witness_inv_segmentedAt, rfl, witness_FlushDutiful _ rfl, by unfold FlushMixes; decide⟩
theorem witness_WriteByteAppendsAndFlushes :
    (Inv (pendingAt 0) ∧ (pendingAt 0).mode = .write ∧ (pendingAt 0).length + 1 ≠ (pendingAt 0).lineLength) ∧
    (Inv (almostFull 0x100) ∧ (almostFull 0x100).mode = .write ∧
      (almostFull 0x100).length + 1 = (almostFull 0x100).lineLength ∧ FlushDutiful (almostFull 0x100) ∧
      ¬FlushMixes (almostFull 0x100)) ∧
    (Inv almostMax ∧ almostMax.length + 1 = almostMax.lineLength ∧ FlushDutiful almostMax ∧ ¬FlushMixes almostMax) ∧
    (Inv { almostFull 0x10000 with segUsed := true, segment := 0x1000 } ∧
      FlushDutiful { almostFull 0x10000 with segUsed := true, segment := 0x1000 } ∧
      FlushMixes { almostFull 0x10000 with segUsed := true, segment := 0x1000 }) :=
  ⟨⟨witness_inv_pendingAt.1, by decide⟩,
    ⟨witness_inv_almostFull, by decide, by decide, witness_FlushDutiful _ rfl, by unfold FlushMixes; decide⟩,
    ⟨witness_inv_almostMax, by decide, witness_FlushDutiful _ rfl, by unfold FlushMixes; decide⟩,
    witness_inv_almostFull_segmented, witness_FlushDutiful _ rfl, by unfold FlushMixes; decide⟩
theorem witness_WriteAtAddressFlushesAndMoves :
    (Inv writing ∧ writing.mode = .write ∧ FlushDutiful writing ∧ writing.length = 0) ∧
    (Inv (pendingAt 0) ∧ FlushDutiful (pendingAt 0) ∧ ¬FlushMixes (pendingAt 0)) ∧
    (Inv (segmentedAt 0x10000) ∧ FlushDutiful (segmentedAt 0x10000) ∧ (segmentedAt 0x10000).length ≠ 0 ∧
      FlushMixes (segmentedAt 0x10000)) :=
  ⟨⟨witness_inv_writing, rfl, witness_FlushDutiful _ rfl, rfl⟩,
    ⟨witness_inv_pendingAt.1, witness_FlushDutiful _ rfl, by unfold FlushMixes; decide⟩,
    witness_inv_segmentedAt, witness_FlushDutiful _ rfl, by decide, by unfold FlushMixes; decide⟩
/-- Segment 0 is the one in effect, segment 1 is a change, a stream that has needed an EXTENDED_LINEAR_ADDRESS record, and a segmented one
that would need it. -/
theorem witness_WriteAtSegmentEmitsOnChange :
    (Inv (pendingAt 0) ∧ (pendingAt 0).mode = .write ∧ FlushDutiful (pendingAt 0) ∧ ¬FlushMixes (pendingAt 0) ∧
      (pendingFlushed (pendingAt 0)).elaUsed = false ∧ (0 : Half) = (pendingAt 0).segment ∧
      (1 : Half) ≠ (pendingAt 0).segment) ∧
    (Inv (pendingAt 0x10000) ∧ FlushDutiful (pendingAt 0x10000) ∧ ¬FlushMixes (pendingAt 0x10000) ∧
      (pendingFlushed (pendingAt 0x10000)).elaUsed = true) ∧
    (Inv (segmentedAt 0x10000) ∧ (segmentedAt 0x10000).mode = .write ∧ FlushDutiful (segmentedAt 0x10000) ∧
      (segmentedAt 0x10000).length ≠ 0 ∧ FlushMixes (segmentedAt 0x10000)) :=
  ⟨⟨witness_inv_pendingAt.1, rfl, witness_FlushDutiful _ rfl, by unfold FlushMixes; decide, by decide, by decide, by decide⟩,
    ⟨witness_inv_pendingAt.2, witness_FlushDutiful _ rfl, by unfold FlushMixes; decide, by decide⟩,
    witness_inv_segmentedAt, rfl, witness_FlushDutiful _ rfl, by decide, by unfold FlushMixes; decide⟩
theorem witness_SetOutputLineLengthClamps : WriteReady writing ∧ writing.lensetOk = true := ⟨⟨rfl, rfl⟩, rfl⟩
theorem witness_EndWriteEmitsEndOfFile :
    (Inv writing ∧ writing.mode = .write ∧ FlushDutiful writing ∧ writing.length = 0) ∧
    (Inv (pendingAt 0x10000) ∧ FlushDutiful (pendingAt 0x10000) ∧ ¬FlushMixes (pendingAt 0x10000)) ∧
    (Inv (segmentedAt 0x10000) ∧ FlushDutiful (segmentedAt 0x10000) ∧ (segmentedAt 0x10000).length ≠ 0 ∧
      FlushMixes (segmentedAt 0x10000)) :=
  ⟨⟨witness_inv_writing, rfl, witness_FlushDutiful _ rfl, rfl⟩,
    ⟨witness_inv_pendingAt.2, witness_FlushDutiful _ rfl, by unfold FlushMixes; decide⟩,
    witness_inv_segmentedAt, witness_FlushDutiful _ rfl, by decide, by unfold FlushMixes; decide⟩
theorem witness_WriteCommandsFrame :
    (isWriteCommand (.writeByte 1) = true ∧ after (exec (.writeByte 1) (pendingAt 0)) (·.mode) = some .write ∧
      (pendingAt 0).data.wf ∧ 0 ≠ (pendingAt 0).length.toNat) ∧
    after (exec (.setOutputLineLength 4) writing) (·.mode) = some .write ∧
    after (exec (.writeAtSegment 1 2) (pendingAt 0)) (·.mode) = some .write ∧
    after (exec (.writeAtAddress 2) (pendingAt 0)) (·.mode) = some .write ∧
    after (exec .endWrite (pendingAt 0)) (·.mode) = some .ended := by decide

theorem witness_WriteCommandsEmitRecords :
    Inv (pendingAt 0x10000) ∧ isWriteCommand (.writeAtAddress 0) = true ∧
    after (exec (.writeAtAddress 0) (pendingAt 0x10000)) (fun s => s.events.length) = some 2 ∧
    isWriteCommand .endWrite = true ∧ after (exec .endWrite (pendingAt 0x10000)) (fun s => s.events.length) = some 3 ∧
    isWriteCommand (.writeAtSegment 1 0) = true ∧
    after (exec (.writeAtSegment 1 0) (pendingAt 0)) (fun s => s.events.length) = some 2 :=
  ⟨witness_inv_pendingAt.2, by decide⟩
theorem witness_StatusReadGivesRegisters : (reading false []).mode = .read ∧ (reading false []).evtOpen = false := by decide

theorem witness_InvariantKept :
    Inv { reading false [.answer true] with input := [.word 0x3A04] } ∧
    after (step { reading false [.answer true] with input := [.word 0x3A04] }) (·.rstate) = some .countHigh :=
  ⟨by constructor <;> decide, by decide⟩
theorem witness_NoStepFaults : Inv { writing with input := [.word 0xAA14] } := by constructor <;> decide
theorem witness_OnlyBeginAndEndWriteMode :
    after (exec .beginRead writing) (·.mode) = some .read ∧ after (exec .beginWrite (reading false [])) (·.mode) = some .write ∧
    after (exec .endWrite writing) (·.mode) = some .ended ∧ after (exec (.writeByte 1) writing) (·.mode) = some .write := by
  decide
theorem witness_EventsOnlyAppended :
    after (step { writing with input := [.word 0x16] }) (fun s => s.events.length) = some 1 := by decide
/-- The two states differ in DATA[2], above LENGTH = 2, and in SCRATCH[0]. -/
theorem witness_UnspecifiedBytesNeverMatter :
    SameButUnspecified (pendingAt 0)
      { pendingAt 0 with data := [(0, 0xAA), (1, 0xBB), (2, 0xCC)], scratch := [(0, 0x3A)] } ∧
    (pendingAt 0).data.wf ∧ Memory.wf [(0, 0xAA), (1, 0xBB), (2, 0xCC)] ∧ (pendingAt 0).scratch.wf ∧ Memory.wf [(0, 0x3A)] :=
  ⟨⟨by decide, by decide⟩, by decide, by decide, by decide, by decide⟩
theorem witness_RenderedLineReadsBack :
    Inv (reading true [.answer true]) ∧ (reading true [.answer true]).mode = .read ∧
    (reading true [.answer true]).rstate = .waitForStart ∧ sinkReenters (reading true [.answer true]) = false ∧
    (List.replicate 16 (0 : Byte)).length ≤ (reading true [.answer true]).cfg.lineMax.toNat :=
  ⟨witness_inv_reading_strict, by decide⟩

/-- A write stream of two bytes on both sides of 0x10000. -/
def twoBytes : List Instr := [.writeByte 0xAA, .writeAtAddress 0x10000, .writeByte 0xBB]

theorem witness_WriteStreamReadsBack :
    Inv writing ∧ FlushDutiful writing ∧ (∀ i ∈ twoBytes, isWriteCommand i = true ∧ i ≠ .endWrite) ∧
    (∃ t es, execAll (.beginWrite :: twoBytes ++ [.endWrite]) writing = .next t ∧ t.events = writing.events ++ es ∧
      es.length ≤ 4) ∧
    Inv (reading false (List.replicate 4 (.answer true))) ∧
    (reading false (List.replicate 4 (.answer true))).mode = .read ∧
    (reading false (List.replicate 4 (.answer true))).rstate = .waitForStart ∧
    (reading false (List.replicate 4 (.answer true))).address = 0 ∧
    (reading false (List.replicate 4 (.answer true))).segment = 0 ∧
    writing.cfg.lineMax.toNat ≤ (reading false (List.replicate 4 (.answer true))).cfg.lineMax.toNat ∧
    2 ≤ (reading false (List.replicate 4 (.answer true))).cfg.lineMax.toNat ∧
    (reading false (List.replicate 4 (.answer true))).sinkInputs = List.replicate 4 (.answer true) ++ [] :=
  ⟨witness_inv_writing, witness_FlushDutiful _ rfl, by decide, ⟨_, _, rfl, rfl, by decide⟩, by constructor <;> decide,
    by decide⟩
theorem witness_CanonicalMemoriesEqual :
    Memory.wf [(3, 1)] ∧ ∀ i, Memory.read [(3, 1)] i = Memory.read (Memory.write [] 3 1) i := ⟨by decide, fun _ => rfl⟩

end Sys2Proof.Tests
end

section
/-! The family of 00_scope.md: the command port, the parameters, the status read. -/

namespace Sys2Proof.Proofs.Scope

open Sys2Proof Sys2Proof.Machine

/-! ## The command port -/

/-- A word that decodes is run when no event is open: past CV6 the fetch asks the decoder only. -/
theorem fetchWord_of_decode {w : CmdWord} {i : Instr} {s : State} (hopen : s.evtOpen = false)
    (hd : decode (.word w) = .ok i) : fetchWord w s = .run i s := by
  simp [fetchWord, hopen, decode_word_eq_ok.1 hd]

/-- A text that decodes is run whether or not an event is open. -/
theorem fetchLine_of_decode {text : List Byte} {i : Instr} (s : State) (hd : decode (.line text) = .ok i) :
    fetchLine text s = .run i s := by
  simp [fetchLine, decode_line_eq_ok.1 hd]

theorem fetch_word {w : CmdWord} {rest : List HostInput} {s : State} (h : s.input = .word w :: rest) :
    fetch s = fetchWord w { s with input := rest } := by
  rw [fetch, h]

theorem fetch_line {text : List Byte} {rest : List HostInput} {s : State} (h : s.input = .line text :: rest) :
    fetch s = fetchLine text { s with input := rest } := by
  rw [fetch, h]

theorem step_of_fetch_run {i : Instr} {s s1 : State} (h : fetch s = .run i s1) : step s = exec i s1 := by
  rw [step, h]

/-- Settles O1: the head of the input is fetched as the instruction it decodes to, and a step runs what was fetched. -/
theorem stepRunsDecodedInstruction : Obligations.StepRunsDecodedInstruction := by
  intro s rest i
  constructor
  · intro w hin hopen hd
    exact step_of_fetch_run ((fetch_word hin).trans (fetchWord_of_decode hopen hd))
  · intro text hin hd
    exact step_of_fetch_run ((fetch_line hin).trans (fetchLine_of_decode _ hd))

/-! ## The parameters -/

theorem toNat_defaultLineLength (c : Config) : (defaultLineLength c).toNat = min 32 c.lineMax.toNat := by
  unfold defaultLineLength
  split
  · next hlt => rw [Nat.min_eq_right hlt.le]
  · next hge => exact (Nat.min_eq_left (Nat.le_of_not_lt hge)).symm

theorem length_newlineBytes (c : Config) : (newlineBytes c).length = 1 ∨ (newlineBytes c).length = 2 := by
  unfold newlineBytes
  split
  · exact .inl rfl
  · exact .inr rfl

theorem newlineByte_eq (a : NewlineByte) : newlineByte a = 0x0A ∨ newlineByte a = 0x0D := by
  cases a
  · exact .inl rfl
  · exact .inr rfl

theorem eq_of_mem_newlineBytes {c : Config} {b : Byte} (h : b ∈ newlineBytes c) : b = 0x0A ∨ b = 0x0D := by
  unfold newlineBytes at h
  split at h
  · obtain rfl := List.mem_singleton.1 h
    exact newlineByte_eq _
  · obtain rfl | rfl := List.mem_pair.1 h <;> exact newlineByte_eq _

/-- Settles O17: DEFAULT_LINE_LENGTH by the cases LINE_MAX < 32 and 32 ≤ LINE_MAX, NEWLINE by its one or two bytes. LINE_BUF_SIZE is its
own formula, taken at LINE_MAX = 255 and NL_LEN = 1 in the reference configuration. -/
theorem derivedParameters : Obligations.DerivedParameters := fun c =>
  ⟨toNat_defaultLineLength c, rfl, length_newlineBytes c, fun _ => eq_of_mem_newlineBytes, rfl⟩

/-! ## The status read -/

/-- In READ mode the pending bytes are readable while an event is open. -/
theorem readableData_of_open {s : State} (hopen : s.evtOpen = true) (hmode : s.mode = .read) :
    s.readableData = some s.pending := by
  simp [State.readableData, hopen, hmode]

theorem readableData_of_closed {s : State} (hclosed : s.evtOpen = false) : s.readableData = none := by
  simp [State.readableData, hclosed]

/-- What the status read shows is no part of an event: opening one changes EVT_OPEN and the emitted events only. -/
theorem status_openSinkEvent (e : Bool) (s : State) : (openSinkEvent e s).status = s.status := by
  simp [State.status]

/-- The event carries the pending bytes, and its opening leaves DATA and LENGTH, so they are what the sink reads. -/
theorem readableData_openSinkEvent (e : Bool) {s : State} (hmode : s.mode = .read) :
    (openSinkEvent e s).readableData = some (sinkEventOf e s).data := by
  have hpending : (openSinkEvent e s).pending = (sinkEventOf e s).data := by simp [State.pending, sinkEventOf]
  rw [readableData_of_open (by simp) (by simpa using hmode), hpending]

/-- Settles O47: opening a SinkEvent keeps every register of the status read and the bytes pending in DATA. -/
theorem statusReadGivesRegisters : Obligations.StatusReadGivesRegisters := fun e s =>
  ⟨rfl, status_openSinkEvent e s, readableData_openSinkEvent e, readableData_of_closed⟩

end Sys2Proof.Proofs.Scope
end

section
/-! The family of 10_state.md: the derived OVF_PENDING, what writes MODE, what the read-mode commands leave, the invariant between
commands, and the bytes that nothing depends on. -/

namespace Sys2Proof.Proofs.CodecState

open Sys2Proof Sys2Proof.Machine

/-! ## OVF_PENDING -/

theorem toNat_highHalf (a : Addr) : (highHalf a).toNat = a.toNat / 2 ^ 16 := by
  have hlt : a.toNat / 2 ^ 16 < 2 ^ 16 := Nat.div_lt_of_lt_mul a.isLt
  rw [highHalf, BitVec.extractLsb'_toNat, Nat.shiftRight_eq_div_pow, Nat.mod_eq_of_lt hlt]

/-- Settles O16: two 16-bit words differ exactly if their numbers do, and ADDRESS[31:16] is the number ADDRESS div 2^16. -/
theorem overflowPending : Obligations.OverflowPending := by
  intro s
  rw [State.ovfPending, bne_iff_ne, ← toNat_highHalf, ne_eq, ne_eq, BitVec.toNat_inj]

/-! ## What a READ_BYTE can do -/

/-- The parse states of a byte's high digit, each with the one of its low digit (40_decoder.md rule R83). -/
def digitPairs : List (ParseState × ParseState) :=
  [(.countHigh, .countLow), (.addrMsbHigh, .addrMsbLow), (.addrLsbHigh, .addrLsbLow), (.recordTypeHigh, .recordTypeLow),
    (.dataHigh, .dataLow)]

/-- The state in which CountLow has taken the LEN byte (40_decoder.md rule R84). -/
def countByteTaken (v : Nybble) (s : State) : State :=
  { s with sum := s.sum + wireByte v s, lineLength := wireByte v s }

/-- The state in which DataLow has put its byte into DATA and SUM (40_decoder.md rule R88). -/
def dataByteTaken (v : Nybble) (s : State) : State :=
  { s with sum := s.sum + wireByte v s, data := s.data.write s.length.toNat (wireByte v s) }

theorem dataLow_eq (v : Nybble) (s : State) :
    dataLow v s =
      if s.length.toNat ≤ s.cfg.lineMax.toNat then
        if s.length.toNat < s.lineLength.toNat then
          .next { dataByteTaken v s with length := s.length + 1, rstate := .dataHigh }
        else complete (sumErr (s.sum + wireByte v s)) (dataByteTaken v s)
      else .fault .dataIndex := by
  unfold dataLow writeData
  split <;> rfl

/-- The states that the handlers of READ_BYTE c (40_decoder.md rules R78 to R88) can lead to. -/
inductive ByteRead (c : Byte) (s : State) : State → Prop
  | ignored : ByteRead c s s
  | started : ByteRead c s (restartLine s)
  | truncated {u : State} : complete true s = .next u → ByteRead c s (restartLine u)
  | ended {t : State} : complete true s = .next t → ByteRead c s t
  | highDigit {low : ParseState} (v : Nybble) : (s.rstate, low) ∈ digitPairs → ByteRead c s (highNybble v low s)
  | overlong {t : State} (v : Nybble) : complete true (countByteTaken v s) = .next t → ByteRead c s t
  | declared (v : Nybble) : s.rstate = .countLow → (wireByte v s).toNat ≤ s.cfg.lineMax.toNat →
      ByteRead c s { countByteTaken v s with rstate := .addrMsbHigh }
  | addressHigh (v : Nybble) : s.rstate = .addrMsbLow → ByteRead c s (addrMsbLow v s)
  | addressLow (v : Nybble) : s.rstate = .addrLsbLow → ByteRead c s (addrLsbLow v s)
  | dropped : ByteRead c s { s with rstate := .waitForStart, length := 0 }
  | typed (v : Nybble) (ty : RecordType) : s.rstate = .recordTypeLow →
      ByteRead c s { s with rtype := ty, sum := s.sum + wireByte v s, rstate := .dataHigh }
  | stored (v : Nybble) : charClass c = .hex → s.rstate = .dataLow → s.length.toNat ≤ s.cfg.lineMax.toNat →
      s.length.toNat < s.lineLength.toNat →
      ByteRead c s { dataByteTaken v s with length := s.length + 1, rstate := .dataHigh }
  | checked {t : State} (v : Nybble) (e : Bool) : charClass c = .hex → s.rstate = .dataLow →
      s.length.toNat ≤ s.cfg.lineMax.toNat → complete e (dataByteTaken v s) = .next t → ByteRead c s t

theorem onHex_inv {c : Byte} {v : Nybble} {s t : State} (hc : charClass c = .hex) (h : onHex v s = .next t) :
    ByteRead c s t := by
  unfold onHex at h
  split at h
  case h_1 => cases h; exact .ignored
  case h_3 hr =>
    rcases countLow_inv h with ⟨-, h⟩ | ⟨hle, rfl⟩
    · exact .overlong v h
    · exact .declared v hr hle
  case h_5 hr => cases h; exact .addressHigh v hr
  case h_7 hr => cases h; exact .addressLow v hr
  case h_9 hr =>
    cases h
    rcases typeLow_cases v s with ⟨-, ht⟩ | ⟨ty, -, ht⟩
    · rw [ht]; exact .dropped
    · rw [ht]; exact .typed v ty hr
  case h_11 hr =>
    obtain ⟨hle, ⟨hlt, rfl⟩ | ⟨-, h⟩⟩ := dataLow_inv h
    · exact .stored v hc hr hle hlt
    · exact .checked v _ hc hr hle h
  all_goals
    next hr =>
    cases h
    exact .highDigit v (by simp [hr, digitPairs])

/-- READ_BYTE has no other next state: the handler of the byte's class, and in a HEX byte's the parse state, decide which it is. -/
theorem readChar_inv {c : Byte} {s t : State} (h : readChar c s = .next t) : ByteRead c s t := by
  unfold readChar at h
  split at h
  · rcases onStart_inv h with rfl | ⟨-, -, u, hu, rfl⟩
    · exact .started
    · exact .truncated hu
  · unfold onTerm at h
    split at h
    · cases h; exact .ignored
    · exact .ended h
  · next hc => exact onHex_inv hc h
  · cases h; exact .ignored

theorem execReadByte_inv {c : Byte} {s t : State} (h : execReadByte c s = .next t) : ReadReady s ∧ ByteRead c s t := by
  obtain ⟨hc, h⟩ := guarded_eq_next.1 h
  exact ⟨readCheck_eq_none.1 hc, readChar_inv h⟩

theorem execEndRead_inv {s t : State} (h : execEndRead s = .next t) :
    ReadReady s ∧ (t = s ∨ complete true s = .next t) := by
  obtain ⟨hc, h⟩ := guarded_eq_next.1 h
  refine ⟨readCheck_eq_none.1 hc, ?_⟩
  split at h
  · cases h; exact .inl rfl
  · exact .inr h

theorem readText_singleton (c : Byte) (s : State) : readText [c] s = execReadByte c s := by
  unfold readText
  cases execReadByte c s <;> rfl

/-- Every read-mode command is READ_BYTES over a text: a record row over its line (30_encoding.md rule R72), and END_READ, which ends a
line in progress as a terminator does (40_decoder.md rule R92), over a line feed. -/
theorem exec_readCommand {i : Instr} (h : isReadCommand i = true) (s : State) : ∃ text, exec i s = readText text s := by
  cases i with
  | readByte c => exact ⟨[c], (readText_singleton c s).symm⟩
  | endRead => exact ⟨[0x0A], (readText_singleton 0x0A s).symm⟩
  | recordData addr data cks => exact ⟨_, rfl⟩
  | recordEndOfFile addr data cks => exact ⟨_, rfl⟩
  | recordExtendedSegmentAddress addr data cks => exact ⟨_, rfl⟩
  | recordStartSegmentAddress addr data cks => exact ⟨_, rfl⟩
  | recordExtendedLinearAddress addr data cks => exact ⟨_, rfl⟩
  | recordStartLinearAddress addr data cks => exact ⟨_, rfl⟩
  | _ => cases h

/-! ## What the read-mode commands leave -/

/-- The registers and ports that no read-mode command writes. -/
def readFrame (s : State) :=
  (s.mode, s.elaHigh, s.segUsed, s.elaUsed, s.lensetOk, s.scratch, s.evtOpen, s.cfg, s.input, s.flushInputs)

theorem complete_readFrame {e : Bool} {s t : State} (hclosed : s.evtOpen = false) (h : complete e s = .next t) :
    readFrame t = readFrame s := by
  obtain ⟨-, -, rfl⟩ := complete_inv h
  simp [readFrame, hclosed]

theorem ByteRead.frame {c : Byte} {s t : State} (hclosed : s.evtOpen = false) (h : ByteRead c s t) :
    readFrame t = readFrame s := by
  cases h with
  | truncated h => exact (complete_readFrame hclosed h :)
  | ended h => exact complete_readFrame hclosed h
  | overlong v h => exact complete_readFrame (s := countByteTaken v s) hclosed h
  | checked v e _ _ _ h => exact complete_readFrame (s := dataByteTaken v s) hclosed h
  | _ => rfl

/-- DATA after a byte: as before, or with the byte at LENGTH written by a hex digit in DATA_LOW. -/
theorem ByteRead.data {c : Byte} {s t : State} (h : ByteRead c s t) :
    t.data = s.data ∨ (charClass c = .hex ∧ s.rstate = .dataLow ∧ s.length.toNat ≤ s.cfg.lineMax.toNat ∧
      ∃ b, t.data = s.data.write s.length.toNat b) := by
  have hcomplete {e : Bool} {u w : State} (h : complete e u = .next w) : w.data = u.data := by
    obtain ⟨-, -, rfl⟩ := complete_inv h
    simp
  cases h with
  | truncated h => exact .inl (hcomplete h :)
  | ended h => exact .inl (hcomplete h)
  | overlong v h => exact .inl (hcomplete h :)
  | stored v hc hr hle _ => exact .inr ⟨hc, hr, hle, _, rfl⟩
  | checked v e hc hr hle h => exact .inr ⟨hc, hr, hle, _, hcomplete h⟩
  | _ => exact .inl rfl

theorem readText_readFrame {text : List Byte} {s t : State} (h : readText text s = .next t) : readFrame t = readFrame s :=
  readText_keeps (P := fun u => readFrame u = readFrame s)
    (fun _ _ _ hu h => by
      obtain ⟨⟨hclosed, -⟩, h⟩ := execReadByte_inv h
      exact (h.frame hclosed).trans hu)
    text rfl h

theorem exec_readFrame {i : Instr} {s t : State} (hi : isReadCommand i = true) (h : exec i s = .next t) :
    readFrame t = readFrame s := by
  obtain ⟨text, ht⟩ := exec_readCommand hi s
  exact readText_readFrame (ht ▸ h)

/-- Settles O32: every read-mode command keeps `readFrame`; END_READ is at most a Complete, whose frame keeps the rest; and a READ_BYTE
that writes DATA does so at LENGTH, on a hex digit in DATA_LOW. -/
theorem readCommandsFrame : Obligations.ReadCommandsFrame := by
  intro i s t hi h
  refine ⟨by simpa only [readFrame, Prod.mk.injEq] using exec_readFrame hi h, ?_, ?_⟩
  · rintro rfl
    obtain ⟨-, rfl | h⟩ := execEndRead_inv h
    · exact ⟨rfl, rfl, rfl, rfl, rfl⟩
    · obtain ⟨-, -, rfl⟩ := complete_inv h
      simp
  · rintro c rfl
    obtain ⟨-, h⟩ := execReadByte_inv h
    rcases h.data with hd | ⟨hc, hr, -, b, hd⟩
    · exact ⟨fun _ k _ => by rw [hd], fun _ => hd⟩
    · exact ⟨fun hwf k hk => by rw [hd, Memory.read_write_other _ hwf _ _ _ hk], fun hn => hn.elim (absurd hr) (absurd hc)⟩

/-! ## What the write-mode commands can do -/

theorem execWriteAtAddress_inv {a : Addr} {s t : State} (h : execWriteAtAddress a s = .next t) :
    WriteReady s ∧ ∃ u, flushPending s = .next u ∧ t = { u with address := a, lensetOk := true } := by
  obtain ⟨hc, h⟩ := guarded_eq_next.1 h
  obtain ⟨u, hu, h⟩ := andThen_eq_next.1 h
  exact ⟨writeCheck_eq_none.1 hc, u, hu, by cases h; rfl⟩

theorem execWriteAtSegment_inv {sg : Half} {a : Addr} {s t : State} (h : execWriteAtSegment sg a s = .next t) :
    WriteReady s ∧ ∃ u v, flushPending s = .next u ∧ u.elaUsed = false ∧ changeSegment sg u = .next v ∧
      t = { v with segUsed := true, address := a, lensetOk := true } := by
  obtain ⟨hc, h⟩ := guarded_eq_next.1 h
  obtain ⟨u, hu, h⟩ := andThen_eq_next.1 h
  split at h
  · cases h
  · next hela =>
    obtain ⟨v, hv, h⟩ := andThen_eq_next.1 h
    exact ⟨writeCheck_eq_none.1 hc, u, v, hu, by simpa using hela, hv, by cases h; rfl⟩

/-- The state in which WRITE_BYTE has put its byte into DATA (41_encoder.md rule R101). -/
def byteAppended (d : Byte) (s : State) : State :=
  { s with data := s.data.write s.length.toNat d, length := s.length + 1, lensetOk := false }

theorem execWriteByte_eq (d : Byte) (s : State) :
    execWriteByte d s =
      guarded (writeCheck s)
        (if s.length.toNat ≤ s.cfg.lineMax.toNat then
          if s.length + 1 = s.lineLength then flushLine (byteAppended d s) else .next (byteAppended d s)
        else .fault .dataIndex) := by
  unfold execWriteByte writeData
  split <;> rfl

theorem execWriteByte_inv {d : Byte} {s t : State} (h : execWriteByte d s = .next t) :
    WriteReady s ∧ s.length.toNat ≤ s.cfg.lineMax.toNat ∧
      ((s.length + 1 = s.lineLength ∧ flushLine (byteAppended d s) = .next t) ∨
       (s.length + 1 ≠ s.lineLength ∧ t = byteAppended d s)) := by
  rw [execWriteByte_eq] at h
  obtain ⟨hc, h⟩ := guarded_eq_next.1 h
  split at h
  · next hle =>
    refine ⟨writeCheck_eq_none.1 hc, hle, ?_⟩
    split at h
    · next heq => exact .inl ⟨heq, h⟩
    · next hne => exact .inr ⟨hne, by cases h; rfl⟩
  · cases h

theorem execSetOutputLineLength_inv {n : Byte} {s t : State} (h : execSetOutputLineLength n s = .next t) :
    WriteReady s ∧ s.lensetOk = true ∧
      t = { s with lineLength := if n = 0 then defaultLineLength s.cfg else clampLineLength s.cfg n } := by
  obtain ⟨hc, h⟩ := guarded_eq_next.1 h
  split at h
  · next hok => exact ⟨writeCheck_eq_none.1 hc, hok, by cases h; rfl⟩
  · cases h

theorem execEndWrite_inv {s t : State} (h : execEndWrite s = .next t) :
    WriteReady s ∧ ∃ u v, flushPending s = .next u ∧ render 0x01 0x0000 [] u = .next v ∧
      t = { v with mode := .ended, lensetOk := false } := by
  obtain ⟨hc, h⟩ := guarded_eq_next.1 h
  obtain ⟨u, hu, h⟩ := andThen_eq_next.1 h
  obtain ⟨v, hv, h⟩ := andThen_eq_next.1 h
  exact ⟨writeCheck_eq_none.1 hc, u, v, hu, hv, by cases h; rfl⟩

/-- The registers that a segment change leaves alone. -/
theorem changeSegment_frame {sg : Half} {s t : State} (h : changeSegment sg s = .next t) :
    t.mode = s.mode ∧ t.lineLength = s.lineLength ∧ t.length = s.length ∧ t.data = s.data ∧ t.elaHigh = s.elaHigh ∧
    t.elaUsed = s.elaUsed ∧ t.cfg = s.cfg ∧ (s.evtOpen = false → t.evtOpen = false) := by
  rcases changeSegment_inv h with ⟨-, rfl⟩ | ⟨-, u, hu, rfl⟩
  · simp
  · obtain ⟨-, -, rfl⟩ := render_inv hu
    simp

/-! ## MODE -/

theorem execBegin_inv {s t u : State} (h : guarded (beginCheck s) (.next u) = .next t) : s.evtOpen = false ∧ t = u := by
  obtain ⟨hc, h⟩ := guarded_eq_next.1 h
  exact ⟨beginCheck_eq_none.1 hc, by cases h; rfl⟩

theorem mode_writeCommand {i : Instr} {s t : State} (hi : isWriteCommand i = true) (hend : i ≠ .endWrite)
    (h : exec i s = .next t) : t.mode = s.mode := by
  cases i with
  | writeAtAddress a =>
    obtain ⟨-, u, hu, rfl⟩ := execWriteAtAddress_inv h
    exact (flushPending_frame hu).1
  | writeAtSegment sg a =>
    obtain ⟨-, u, v, hu, -, hv, rfl⟩ := execWriteAtSegment_inv h
    exact (changeSegment_frame hv).1.trans (flushPending_frame hu).1
  | writeByte d =>
    obtain ⟨-, -, ⟨-, ht⟩ | ⟨-, rfl⟩⟩ := execWriteByte_inv h
    · exact (flushLine_frame ht).1
    · rfl
  | setOutputLineLength n =>
    obtain ⟨-, -, rfl⟩ := execSetOutputLineLength_inv h
    rfl
  | endWrite => exact absurd rfl hend
  | _ => cases hi

/-- Settles O51: BEGIN_* and END_WRITE end in a state that names MODE; the read-mode commands keep it with `readFrame`, the other
write-mode ones by the frames of what they call. -/
theorem onlyBeginAndEndWriteMode : Obligations.OnlyBeginAndEndWriteMode := by
  refine ⟨⟨rfl, rfl, rfl, rfl⟩, fun i s t h => ⟨?_, ?_, ?_, ?_⟩⟩
  · rintro (rfl | ⟨a, rfl⟩ | ⟨sg, rfl⟩)
    all_goals
      obtain ⟨-, rfl⟩ := execBegin_inv h
      rfl
  · rintro rfl
    obtain ⟨-, rfl⟩ := execBegin_inv h
    rfl
  · rintro rfl
    obtain ⟨-, u, v, -, -, rfl⟩ := execEndWrite_inv h
    rfl
  · rintro hend (hi | hi)
    · exact congrArg Prod.fst (exec_readFrame hi h)
    · exact mode_writeCommand hi hend h

/-! ## The parts of the invariant -/

/-- What the invariant says of DATA and SCRATCH. -/
structure MemoriesOk (s : State) : Prop where
  dataWf : s.data.wf
  dataBelow : s.data.below (s.cfg.lineMax.toNat + 1)
  scratchWf : s.scratch.wf
  scratchBelow : s.scratch.below (lineBufSize s.cfg)

/-- What the invariant says of the parse registers in READ mode. -/
structure ParseOk (s : State) : Prop where
  readLength : s.length.toNat ≤ s.lineLength.toNat ∧ s.length.toNat ≤ s.cfg.lineMax.toNat
  readDeclared : s.lineLength.toNat ≤ s.cfg.lineMax.toNat ∨ s.rstate = .waitForStart
  readEmpty : s.rstate ≠ .dataHigh → s.rstate ≠ .dataLow → s.length = 0
  readType : s.rstate ≠ .waitForStart → s.rstate ≠ .dataHigh → s.rstate ≠ .dataLow → s.rtype = .data
  readFresh : s.rstate = .countHigh ∨ s.rstate = .countLow → s.lineLength = 0 ∧ s.sum = 0

/-- What the invariant says of the line buffer's lengths in WRITE mode. -/
structure BufferOk (s : State) : Prop where
  writeLength : 1 ≤ s.lineLength.toNat ∧ s.lineLength.toNat ≤ s.cfg.lineMax.toNat ∧ s.length.toNat < s.lineLength.toNat
  writeLenset : s.lensetOk = true → s.length = 0

/-- What the invariant says of segmented and linear addressing in WRITE mode. -/
structure AddressingOk (s : State) : Prop where
  writeNotMixed : ¬(s.segUsed = true ∧ s.elaUsed = true)
  writeElaHigh : s.elaUsed = false → s.elaHigh = 0
  writeSegment : s.segUsed = false → s.segment = 0

theorem memoriesOk_of_inv {s : State} (h : Inv s) : MemoriesOk s := { h with }

theorem parseOk_of_inv {s : State} (h : Inv s) (hm : s.mode = .read) : ParseOk s :=
  ⟨h.readLength hm, h.readDeclared hm, h.readEmpty hm, h.readType hm, h.readFresh hm⟩

theorem bufferOk_of_inv {s : State} (h : Inv s) (hm : s.mode = .write) : BufferOk s := ⟨h.writeLength hm, h.writeLenset hm⟩

theorem addressingOk_of_inv {s : State} (h : Inv s) (hm : s.mode = .write) : AddressingOk s :=
  ⟨h.writeNotMixed hm, h.writeElaHigh hm, h.writeSegment hm⟩

/-- The invariant from its parts, each in the MODE that it speaks of. -/
theorem inv_of_parts {s : State} (hcfg : s.cfg.wf = true) (hclosed : s.evtOpen = false) (hmem : MemoriesOk s)
    (hread : s.mode = .read → ParseOk s) (hwrite : s.mode = .write → BufferOk s ∧ AddressingOk s) : Inv s where
  cfgOk := hcfg
  eventClosed := hclosed
  dataWf := hmem.dataWf
  dataBelow := hmem.dataBelow
  scratchWf := hmem.scratchWf
  scratchBelow := hmem.scratchBelow
  readLength hm := (hread hm).readLength
  readDeclared hm := (hread hm).readDeclared
  readEmpty hm := (hread hm).readEmpty
  readType hm := (hread hm).readType
  readFresh hm := (hread hm).readFresh
  writeLength hm := (hwrite hm).1.writeLength
  writeLenset hm := (hwrite hm).1.writeLenset
  writeNotMixed hm := (hwrite hm).2.writeNotMixed
  writeElaHigh hm := (hwrite hm).2.writeElaHigh
  writeSegment hm := (hwrite hm).2.writeSegment

theorem inv_of_read {s : State} (hcfg : s.cfg.wf = true) (hclosed : s.evtOpen = false) (hmem : MemoriesOk s)
    (hm : s.mode = .read) (hparse : ParseOk s) : Inv s :=
  inv_of_parts hcfg hclosed hmem (fun _ => hparse) fun hw => by simp [hm] at hw

theorem inv_of_write {s : State} (hcfg : s.cfg.wf = true) (hclosed : s.evtOpen = false) (hmem : MemoriesOk s)
    (hm : s.mode = .write) (hbuf : BufferOk s) (haddr : AddressingOk s) : Inv s :=
  inv_of_parts hcfg hclosed hmem (fun hr => by simp [hm] at hr) fun _ => ⟨hbuf, haddr⟩

/-- The invariant says nothing of the commands issued and not yet taken. -/
theorem inv_input {s : State} (h : Inv s) (rest : List HostInput) : Inv { s with input := rest } := { h with }

/-- Settles O48: MODE is UNINIT, no event is open, and the memories list no cell. -/
theorem invariantAtReset : Obligations.InvariantAtReset :=
  inv_of_parts (by decide) rfl ⟨by decide, by decide, by decide, by decide⟩ nofun nofun

/-! ## The invariant in READ mode -/

/-- Between lines the parse registers say nothing more than that LENGTH is 0. -/
theorem parseOk_of_waiting {s : State} (hr : s.rstate = .waitForStart) (hl : s.length = 0) : ParseOk s := by
  constructor <;> simp [hr, hl]

theorem parseOk_complete {e : Bool} {s t : State} (h : complete e s = .next t) : ParseOk t := by
  obtain ⟨-, -, rfl⟩ := complete_inv h
  exact parseOk_of_waiting (by simp) (by simp)

theorem parseOk_restartLine (s : State) : ParseOk (restartLine s) := by constructor <;> simp

/-- A byte's two digits stand in one field of the line; only the LEN byte's are of the count, only a data byte's of the data. -/
theorem digitPairs_fields : ∀ p ∈ digitPairs,
    p.1 ≠ .waitForStart ∧ p.1 ≠ .dataLow ∧ (p.1 = .dataHigh → p.2 = .dataLow) ∧
      (p.2 = .countHigh ∨ p.2 = .countLow → p.1 = .countHigh) := by decide

/-- A high digit only moves RSTATE to the low digit of the same byte, of which the invariant says the same. -/
theorem parseOk_highNybble {s : State} {low : ParseState} (v : Nybble) (h : ParseOk s)
    (hp : (s.rstate, low) ∈ digitPairs) : ParseOk (highNybble v low s) := by
  obtain ⟨hwait, hlow, hdata, hcount⟩ := digitPairs_fields _ hp
  exact
    { readLength := h.readLength
      readDeclared := .inl (h.readDeclared.resolve_right hwait)
      readEmpty := fun _ hn => h.readEmpty (fun hr => hn (hdata hr)) hlow
      readType := fun _ _ hn => h.readType hwait (fun hr => hn (hdata hr)) hlow
      readFresh := fun hc => h.readFresh (.inl (hcount hc)) }

/-- In a line's header, before its TYPE byte is complete. -/
theorem parseOk_header {s : State} (h : ParseOk s) (hr : s.rstate ∉ [.waitForStart, .dataHigh, .dataLow]) :
    s.length = 0 ∧ s.rtype = .data ∧ s.lineLength.toNat ≤ s.cfg.lineMax.toNat := by
  simp only [List.mem_cons, List.not_mem_nil, or_false, not_or] at hr
  obtain ⟨hwait, hhigh, hlow⟩ := hr
  exact ⟨h.readEmpty hhigh hlow, h.readType hwait hhigh hlow, h.readDeclared.resolve_right hwait⟩

theorem parseOk_byteRead {c : Byte} {s t : State} (h : ParseOk s) (hr : ByteRead c s t) : ParseOk t := by
  cases hr with
  | ignored => exact h
  | started => exact parseOk_restartLine s
  | truncated => exact parseOk_restartLine _
  | ended ht => exact parseOk_complete ht
  | overlong v ht => exact parseOk_complete ht
  | checked v e _ _ _ ht => exact parseOk_complete ht
  | highDigit v hp => exact parseOk_highNybble v h hp
  | dropped => exact parseOk_of_waiting rfl rfl
  | declared v hr hle =>
    obtain ⟨hlen, htype, -⟩ := parseOk_header h (by simp [hr])
    constructor <;> simp [countByteTaken, hlen, htype, hle]
  | addressHigh v hr =>
    obtain ⟨hlen, htype, hdecl⟩ := parseOk_header h (by simp [hr])
    constructor <;> simp [hlen, htype, hdecl]
  | addressLow v hr =>
    obtain ⟨hlen, htype, hdecl⟩ := parseOk_header h (by simp [hr])
    constructor <;> simp [hlen, htype, hdecl]
  | typed v ty hr =>
    obtain ⟨hlen, -, hdecl⟩ := parseOk_header h (by simp [hr])
    constructor <;> simp [hlen, hdecl]
  | stored v _ hr _ hlt =>
    have hdecl := h.readDeclared.resolve_right (by simp [hr])
    have hsucc : (s.length + 1).toNat = s.length.toNat + 1 := by bv_omega
    constructor <;> simp [dataByteTaken, hdecl]
    omega

theorem memoriesOk_byteRead {c : Byte} {s t : State} (hclosed : s.evtOpen = false) (h : MemoriesOk s)
    (hr : ByteRead c s t) : MemoriesOk t := by
  obtain ⟨hwf, hbelow, hswf, hsbelow⟩ := h
  have hframe := hr.frame hclosed
  simp only [readFrame, Prod.mk.injEq] at hframe
  obtain ⟨-, -, -, -, -, hscratch, -, hcfg, -, -⟩ := hframe
  rcases hr.data with hd | ⟨-, -, hle, b, hd⟩
  · constructor <;> simpa only [hd, hscratch, hcfg]
  · refine ⟨?_, ?_, by rwa [hscratch], by rwa [hscratch, hcfg]⟩
    · rw [hd]
      exact Memory.wf_write _ hwf _ _
    · rw [hd, hcfg]
      exact Memory.below_write hbelow (by omega) _

theorem inv_execReadByte {c : Byte} {s t : State} (hi : Inv s) (h : execReadByte c s = .next t) : Inv t := by
  obtain ⟨⟨hclosed, hm⟩, h⟩ := execReadByte_inv h
  have hframe := h.frame hclosed
  simp only [readFrame, Prod.mk.injEq] at hframe
  obtain ⟨hmode, -, -, -, -, -, hevt, hcfg, -, -⟩ := hframe
  exact inv_of_read (hcfg ▸ hi.cfgOk) (hevt.trans hclosed) (memoriesOk_byteRead hclosed (memoriesOk_of_inv hi) h)
    (hmode.trans hm) (parseOk_byteRead (parseOk_of_inv hi hm) h)

theorem inv_readText {text : List Byte} {s t : State} (hi : Inv s) (h : readText text s = .next t) : Inv t :=
  readText_keeps (fun _ _ _ => inv_execReadByte) text hi h

/-! ## The invariant in WRITE mode -/

/-- What a rendered line writes to SCRATCH keeps `P`. -/
def KeptByLines (c : Config) (P : Memory → Prop) : Prop :=
  ∀ (m : Memory) (line : List Byte), P m → P (m.writeFrom 0 (scratchPart c line))

theorem wf_keptByLines (c : Config) : KeptByLines c Memory.wf := fun m _ hm => Memory.wf_writeFrom _ m hm 0

theorem below_keptByLines (c : Config) : KeptByLines c (Memory.below · (lineBufSize c)) := by
  intro m line hm
  refine Memory.below_writeFrom _ m _ hm 0 ?_
  rw [length_scratchPart]
  omega

section Scratch

variable {P : Memory → Prop} {s t : State} (hP : KeptByLines s.cfg P) (hs : P s.scratch)
include hP hs

theorem scratch_render {ty : Byte} {a16 : Half} {bytes : List Byte} (h : render ty a16 bytes s = .next t) :
    P t.scratch := by
  obtain ⟨-, -, rfl⟩ := render_inv h
  simpa using hP _ _ hs

theorem scratch_emitElaIfNeeded (h : emitElaIfNeeded s = .next t) : P t.scratch := by
  rcases emitElaIfNeeded_inv h with ⟨-, rfl⟩ | ⟨-, -, u, hu, rfl⟩
  · exact hs
  · exact (scratch_render hP hs hu :)

theorem scratch_flushLine (h : flushLine s = .next t) : P t.scratch := by
  obtain ⟨-, u, v, hu, hv, rfl⟩ := flushLine_inv h
  obtain ⟨-, -, -, -, -, -, -, -, -, -, -, -, hcfg, -⟩ := emitElaIfNeeded_frame hu
  exact (scratch_render (hcfg ▸ hP) (scratch_emitElaIfNeeded hP hs hu) hv :)

theorem scratch_flushPending (h : flushPending s = .next t) : P t.scratch := by
  rcases flushPending_inv h with ⟨-, rfl⟩ | ⟨-, h⟩
  · exact hs
  · exact scratch_flushLine hP hs h

theorem scratch_changeSegment {sg : Half} (h : changeSegment sg s = .next t) : P t.scratch := by
  rcases changeSegment_inv h with ⟨-, rfl⟩ | ⟨-, u, hu, rfl⟩
  · exact hs
  · exact (scratch_render hP hs hu :)

end Scratch

/-- An operation whose only writes to a memory are rendered lines keeps what the invariant says of the memories. -/
theorem memoriesOk_of_lines {s t : State} (h : MemoriesOk s) (hdata : t.data = s.data) (hcfg : t.cfg = s.cfg)
    (hscratch : ∀ P, KeptByLines s.cfg P → P s.scratch → P t.scratch) : MemoriesOk t where
  dataWf := hdata ▸ h.dataWf
  dataBelow := hdata ▸ hcfg ▸ h.dataBelow
  scratchWf := hscratch _ (wf_keptByLines _) h.scratchWf
  scratchBelow := hcfg ▸ hscratch _ (below_keptByLines _) h.scratchBelow

/-- Of the registers of addressing FlushLine writes ELA_HIGH and ELA_USED only, and those only in a stream that is not segmented. -/
theorem addressingOk_flushLine {s t : State} (h : AddressingOk s) (hf : flushLine s = .next t) : AddressingOk t := by
  obtain ⟨-, u, v, hu, hv, rfl⟩ := flushLine_inv hf
  obtain ⟨-, -, rfl⟩ := render_inv hv
  rcases emitElaIfNeeded_inv hu with ⟨-, rfl⟩ | ⟨-, hseg, w, hw, rfl⟩
  · exact { h with }
  · obtain ⟨-, -, rfl⟩ := render_inv hw
    exact ⟨by simp [hseg], by simp, by simpa using h.writeSegment⟩

/-- FlushLine empties the line buffer, so that even a full one is in order after it. -/
theorem inv_flushLine {s t : State} (hcfg : s.cfg.wf = true) (hm : s.mode = .write) (hmem : MemoriesOk s)
    (haddr : AddressingOk s) (hline : 1 ≤ s.lineLength.toNat ∧ s.lineLength.toNat ≤ s.cfg.lineMax.toNat)
    (h : flushLine s = .next t) : Inv t := by
  obtain ⟨hmode, -, -, hlineLength, hlength, hdata, -, -, -, -, -, -, hevt, hcfg', -, -, -⟩ := flushLine_frame h
  have hmem' : MemoriesOk t := memoriesOk_of_lines hmem hdata hcfg' fun _ hP hs => scratch_flushLine hP hs h
  refine inv_of_write (hcfg' ▸ hcfg) hevt hmem' (hmode.trans hm) ⟨?_, fun _ => hlength⟩ (addressingOk_flushLine haddr h)
  rw [hlineLength, hcfg', hlength]
  exact ⟨hline.1, hline.2, hline.1⟩

theorem inv_flushPending {s t : State} (hi : Inv s) (hm : s.mode = .write) (h : flushPending s = .next t) :
    Inv t ∧ t.mode = .write ∧ t.length = 0 := by
  obtain ⟨hmode, -, -, hlength, -⟩ := flushPending_frame h
  refine ⟨?_, hmode.trans hm, hlength⟩
  rcases flushPending_inv h with ⟨-, rfl⟩ | ⟨-, h⟩
  · exact hi
  · obtain ⟨hone, hmax, -⟩ := hi.writeLength hm
    exact inv_flushLine hi.cfgOk hm (memoriesOk_of_inv hi) (addressingOk_of_inv hi hm) ⟨hone, hmax⟩ h

theorem inv_execWriteAtAddress {a : Addr} {s t : State} (hi : Inv s) (h : execWriteAtAddress a s = .next t) : Inv t := by
  obtain ⟨⟨-, hm⟩, u, hu, rfl⟩ := execWriteAtAddress_inv h
  obtain ⟨hi, hm, hlength⟩ := inv_flushPending hi hm hu
  exact inv_of_write hi.cfgOk hi.eventClosed { memoriesOk_of_inv hi with } hm ⟨hi.writeLength hm, fun _ => hlength⟩
    { addressingOk_of_inv hi hm with }

theorem inv_execWriteAtSegment {sg : Half} {a : Addr} {s t : State} (hi : Inv s)
    (h : execWriteAtSegment sg a s = .next t) : Inv t := by
  obtain ⟨⟨-, hm⟩, u, v, hu, hela, hv, rfl⟩ := execWriteAtSegment_inv h
  obtain ⟨hi, hm, hlength⟩ := inv_flushPending hi hm hu
  obtain ⟨hmode, hline, hlength', hdata, helaHigh, hela', hcfg, hevt⟩ := changeSegment_frame hv
  have hmem : MemoriesOk v :=
    memoriesOk_of_lines (memoriesOk_of_inv hi) hdata hcfg fun _ hP hs => scratch_changeSegment hP hs hv
  refine inv_of_write (hcfg ▸ hi.cfgOk) (hevt hi.eventClosed) { hmem with } (hmode.trans hm)
    ⟨?_, fun _ => hlength'.trans hlength⟩
    ⟨by simp [hela', hela], fun _ => helaHigh.trans (hi.writeElaHigh hm hela), nofun⟩
  simpa only [hline, hlength', hcfg] using hi.writeLength hm

theorem inv_execWriteByte {d : Byte} {s t : State} (hi : Inv s) (h : execWriteByte d s = .next t) : Inv t := by
  obtain ⟨⟨hclosed, hm⟩, hle, h⟩ := execWriteByte_inv h
  obtain ⟨hone, hmax, hlt⟩ := hi.writeLength hm
  have hmem : MemoriesOk (byteAppended d s) :=
    ⟨Memory.wf_write _ hi.dataWf _ _, Memory.below_write hi.dataBelow (by omega) _, hi.scratchWf, hi.scratchBelow⟩
  have haddr : AddressingOk (byteAppended d s) := { addressingOk_of_inv hi hm with }
  rcases h with ⟨-, h⟩ | ⟨hne, rfl⟩
  · exact inv_flushLine (s := byteAppended d s) hi.cfgOk hm hmem haddr ⟨hone, hmax⟩ h
  · have hfits : (s.length + 1).toNat < s.lineLength.toNat := by bv_omega
    exact inv_of_write (s := byteAppended d s) hi.cfgOk hclosed hmem hm ⟨⟨hone, hmax, hfits⟩, nofun⟩ haddr

/-- The line lengths that BEGIN_WRITE and SET_OUTPUT_LINE_LENGTH write are in 1..LINE_MAX (00_scope.md rule R7, 41_encoder.md
rule R102). -/
theorem defaultLineLength_bounds {c : Config} (h : c.wf = true) :
    1 ≤ (defaultLineLength c).toNat ∧ (defaultLineLength c).toNat ≤ c.lineMax.toNat := by
  have hone : 1 ≤ c.lineMax.toNat := by simpa [Config.wf] using h
  rw [Scope.toNat_defaultLineLength]
  omega

theorem clampLineLength_bounds {c : Config} {n : Byte} (h : c.wf = true) (hn : n ≠ 0) :
    1 ≤ (clampLineLength c n).toNat ∧ (clampLineLength c n).toNat ≤ c.lineMax.toNat := by
  have hone : 1 ≤ c.lineMax.toNat := by simpa [Config.wf] using h
  unfold clampLineLength
  split
  · exact ⟨by bv_omega, by assumption⟩
  · exact ⟨hone, le_rfl⟩

theorem inv_execSetOutputLineLength {n : Byte} {s t : State} (hi : Inv s)
    (h : execSetOutputLineLength n s = .next t) : Inv t := by
  obtain ⟨⟨hclosed, hm⟩, hok, rfl⟩ := execSetOutputLineLength_inv h
  have hlength : s.length = 0 := hi.writeLenset hm hok
  refine inv_of_write hi.cfgOk hclosed { memoriesOk_of_inv hi with } hm ⟨?_, fun _ => hlength⟩ { addressingOk_of_inv hi hm with }
  simp only [hlength]
  split
  · have hb := defaultLineLength_bounds hi.cfgOk
    exact ⟨hb.1, hb.2, hb.1⟩
  · next hn =>
    have hb := clampLineLength_bounds hi.cfgOk hn
    exact ⟨hb.1, hb.2, hb.1⟩

theorem inv_execEndWrite {s t : State} (hi : Inv s) (h : execEndWrite s = .next t) : Inv t := by
  obtain ⟨⟨-, hm⟩, u, v, hu, hv, rfl⟩ := execEndWrite_inv h
  obtain ⟨hi, -, -⟩ := inv_flushPending hi hm hu
  have hscratch : ∀ P, KeptByLines u.cfg P → P u.scratch → P v.scratch := fun _ hP hs => scratch_render hP hs hv
  obtain ⟨-, -, rfl⟩ := render_inv hv
  have hmem := memoriesOk_of_lines (memoriesOk_of_inv hi) (by simp) (by simp) hscratch
  exact inv_of_parts (by simpa using hi.cfgOk) (by simp) { hmem with } nofun nofun

/-! ## The invariant after BEGIN_* and after any step -/

theorem inv_execBeginRead {a : Addr} {sg : Half} {s t : State} (hi : Inv s)
    (h : guarded (beginCheck s) (.next { beginReadState s with address := a, segment := sg }) = .next t) : Inv t := by
  obtain ⟨hclosed, rfl⟩ := execBegin_inv h
  exact inv_of_read hi.cfgOk hclosed { memoriesOk_of_inv hi with } rfl (parseOk_of_waiting rfl rfl)

theorem inv_execBeginWrite {s t : State} (hi : Inv s) (h : execBeginWrite s = .next t) : Inv t := by
  obtain ⟨hclosed, rfl⟩ := execBegin_inv h
  have hb := defaultLineLength_bounds hi.cfgOk
  exact inv_of_write hi.cfgOk hclosed { memoriesOk_of_inv hi with } rfl ⟨⟨hb.1, hb.2, hb.1⟩, fun _ => rfl⟩
    ⟨by simp, fun _ => rfl, fun _ => rfl⟩

theorem inv_exec {i : Instr} {s t : State} (hi : Inv s) (h : exec i s = .next t) : Inv t := by
  cases i with
  | beginRead => exact inv_execBeginRead (a := 0) (sg := 0) hi h
  | beginReadAtAddress a => exact inv_execBeginRead (sg := 0) hi h
  | beginReadAtSegment sg => exact inv_execBeginRead (a := 0) hi h
  | readByte c => exact inv_execReadByte hi h
  | endRead => exact inv_execReadByte (c := 0x0A) hi h
  | beginWrite => exact inv_execBeginWrite hi h
  | writeAtAddress a => exact inv_execWriteAtAddress hi h
  | writeAtSegment sg a => exact inv_execWriteAtSegment hi h
  | writeByte d => exact inv_execWriteByte hi h
  | setOutputLineLength n => exact inv_execSetOutputLineLength hi h
  | endWrite => exact inv_execEndWrite hi h
  | _ => exact inv_readText hi h

/-- What the block does with its input; an instruction and a text come with the state from which the input has been taken. -/
theorem fetch_cases (s : State) :
    fetch s = .idle ∨ (∃ r, fetch s = .refuse r) ∨
      ∃ rest, (∃ i, fetch s = .run i { s with input := rest }) ∨ ∃ text, fetch s = .raw text { s with input := rest } := by
  rcases hin : s.input with _ | ⟨w | text, rest⟩
  · exact .inl (by simp [fetch, hin])
  · rw [Scope.fetch_word hin]
    unfold fetchWord
    split
    · exact .inr (.inl ⟨_, rfl⟩)
    · split
      · exact .inr (.inr ⟨rest, .inl ⟨_, rfl⟩⟩)
      · exact .inr (.inl ⟨_, rfl⟩)
  · rw [Scope.fetch_line hin]
    unfold fetchLine
    split
    · exact .inr (.inr ⟨rest, .inl ⟨_, rfl⟩⟩)
    · exact .inr (.inr ⟨rest, .inr ⟨_, rfl⟩⟩)

theorem step_cases (s : State) :
    step s = .next s ∨ (∃ r, step s = .refused r) ∨
      ∃ rest, (∃ i, step s = exec i { s with input := rest }) ∨ ∃ text, step s = readText text { s with input := rest } := by
  unfold step
  rcases fetch_cases s with h | ⟨r, h⟩ | ⟨rest, ⟨i, h⟩ | ⟨text, h⟩⟩ <;> rw [h]
  · exact .inl rfl
  · exact .inr (.inl ⟨r, rfl⟩)
  · exact .inr (.inr ⟨rest, .inl ⟨i, rfl⟩⟩)
  · exact .inr (.inr ⟨rest, .inr ⟨text, rfl⟩⟩)

/-- Settles O49: the invariant says nothing of the input, so it holds where the input has been taken, and from there every instruction
and every text keeps it. -/
theorem invariantKept : Obligations.InvariantKept := by
  intro s t hi h
  rcases step_cases s with hs | ⟨r, hs⟩ | ⟨rest, ⟨i, hs⟩ | ⟨text, hs⟩⟩ <;> rw [hs] at h
  · cases h; exact hi
  · cases h
  · exact inv_exec (inv_input hi rest) h
  · exact inv_readText (inv_input hi rest) h

/-! ## No fault -/

/-- The result is no fault. -/
def NoFault (r : Result) : Prop := ∀ f, r ≠ .fault f

theorem noFault_next (s : State) : NoFault (.next s) := nofun

theorem noFault_refused (q : Refusal) : NoFault (.refused q) := nofun

theorem noFault_andThen {r : Result} {k : State → Result} (hr : NoFault r) (hk : ∀ u, r = .next u → NoFault (k u)) :
    NoFault (andThen r k) := by
  cases r with
  | next u => exact hk u rfl
  | fault f => exact absurd rfl (hr f)
  | refused q => exact noFault_refused q

theorem noFault_guarded {check : Option Refusal} {r : Result} (h : check = none → NoFault r) :
    NoFault (guarded check r) := by
  cases check with
  | none => exact h rfl
  | some q => exact noFault_refused q

/-! ### In READ mode -/

theorem noFault_complete {e : Bool} {s : State} (h : s.length.toNat ≤ s.cfg.lineMax.toNat + 1) :
    NoFault (complete e s) := by
  unfold complete
  rw [if_pos h]
  split
  · exact noFault_refused _
  · exact noFault_next _

section ReadMode

variable {s : State} (h : s.length.toNat ≤ s.cfg.lineMax.toNat)
include h

theorem noFault_onStart : NoFault (onStart s) := by
  unfold onStart
  split
  · exact noFault_andThen (noFault_complete (by omega)) fun _ _ => noFault_next _
  · exact noFault_next _

theorem noFault_onTerm : NoFault (onTerm s) := by
  unfold onTerm
  split
  · exact noFault_next _
  · exact noFault_complete (by omega)

theorem noFault_countLow (v : Nybble) : NoFault (countLow v s) := by
  unfold countLow
  simp only
  split
  · exact noFault_complete (Nat.le_succ_of_le h)
  · exact noFault_next _

theorem noFault_dataLow (v : Nybble) : NoFault (dataLow v s) := by
  rw [dataLow_eq, if_pos h]
  split
  · exact noFault_next _
  · exact noFault_complete (Nat.le_succ_of_le h)

theorem noFault_onHex (v : Nybble) : NoFault (onHex v s) := by
  unfold onHex
  split
  case h_3 => exact noFault_countLow h v
  case h_11 => exact noFault_dataLow h v
  all_goals exact noFault_next _

theorem noFault_readChar (c : Byte) : NoFault (readChar c s) := by
  unfold readChar
  split
  · exact noFault_onStart h
  · exact noFault_onTerm h
  · exact noFault_onHex h _
  · exact noFault_next _

end ReadMode

theorem noFault_execReadByte {s : State} (hi : Inv s) (c : Byte) : NoFault (execReadByte c s) :=
  noFault_guarded fun hc => noFault_readChar (hi.readLength (readCheck_eq_none.1 hc).2).2 c

theorem noFault_readText {s : State} (hi : Inv s) (text : List Byte) : NoFault (readText text s) := by
  induction text generalizing s with
  | nil => exact noFault_next s
  | cons c text ih => exact noFault_andThen (noFault_execReadByte hi c) fun u hu => ih (inv_execReadByte hi hu)

/-! ### In WRITE mode -/

theorem noFault_render {ty : Byte} {a16 : Half} {bytes : List Byte} {s : State} (h : bytes.length ≤ renderMax s.cfg) :
    NoFault (render ty a16 bytes s) := by
  unfold render
  rw [if_pos h]
  split
  · exact noFault_refused _
  · exact noFault_next _

/-- Render takes an extended-address record for every LINE_MAX (notes/assumptions/11.md). -/
theorem length_halfBytes_le (h : Half) (c : Config) : (halfBytes h).length ≤ renderMax c := Nat.le_max_right _ 2

theorem noFault_emitElaIfNeeded (s : State) : NoFault (emitElaIfNeeded s) := by
  unfold emitElaIfNeeded
  split
  · split
    · exact noFault_refused _
    · exact noFault_andThen (noFault_render (length_halfBytes_le _ _)) fun _ _ => noFault_next _
  · exact noFault_next _

theorem noFault_flushLine {s : State} (h : s.length.toNat ≤ s.cfg.lineMax.toNat) : NoFault (flushLine s) := by
  unfold flushLine
  rw [if_pos (by omega)]
  refine noFault_andThen (noFault_emitElaIfNeeded s) fun u hu => noFault_andThen (noFault_render ?_) fun _ _ => noFault_next _
  obtain ⟨-, -, -, -, hlength, -, -, -, -, -, -, -, hcfg, -⟩ := emitElaIfNeeded_frame hu
  rw [State.pending, Memory.length_readTo, hlength, hcfg]
  exact h.trans (Nat.le_max_left _ 2)

theorem noFault_flushPending {s : State} (h : s.length.toNat ≤ s.cfg.lineMax.toNat) : NoFault (flushPending s) := by
  unfold flushPending
  split
  · exact noFault_next s
  · exact noFault_flushLine h

theorem noFault_changeSegment (sg : Half) (s : State) : NoFault (changeSegment sg s) := by
  unfold changeSegment
  split
  · exact noFault_next s
  · exact noFault_andThen (noFault_render (length_halfBytes_le _ _)) fun _ _ => noFault_next _

section WriteMode

variable {s : State} (hi : Inv s)
include hi

theorem length_le_of_writeCheck (hc : writeCheck s = none) : s.length.toNat ≤ s.cfg.lineMax.toNat := by
  obtain ⟨-, hmax, hlt⟩ := hi.writeLength (writeCheck_eq_none.1 hc).2
  omega

theorem noFault_execWriteAtAddress (a : Addr) : NoFault (execWriteAtAddress a s) :=
  noFault_guarded fun hc =>
    noFault_andThen (noFault_flushPending (length_le_of_writeCheck hi hc)) fun _ _ => noFault_next _

theorem noFault_execWriteAtSegment (sg : Half) (a : Addr) : NoFault (execWriteAtSegment sg a s) := by
  refine noFault_guarded fun hc => noFault_andThen (noFault_flushPending (length_le_of_writeCheck hi hc)) fun u _ => ?_
  split
  · exact noFault_refused _
  · exact noFault_andThen (noFault_changeSegment sg u) fun _ _ => noFault_next _

/-- WRITE_BYTE appends below LINE_LENGTH, so the line it fills has at most LINE_MAX bytes. -/
theorem noFault_execWriteByte (d : Byte) : NoFault (execWriteByte d s) := by
  rw [execWriteByte_eq]
  refine noFault_guarded fun hc => ?_
  obtain ⟨-, hmax, hlt⟩ := hi.writeLength (writeCheck_eq_none.1 hc).2
  rw [if_pos (by omega)]
  split
  · next heq => exact noFault_flushLine (s := byteAppended d s) (by simpa only [byteAppended, heq] using hmax)
  · exact noFault_next _

theorem noFault_execEndWrite : NoFault (execEndWrite s) :=
  noFault_guarded fun hc =>
    noFault_andThen (noFault_flushPending (length_le_of_writeCheck hi hc)) fun _ _ =>
      noFault_andThen (noFault_render (Nat.zero_le _)) fun _ _ => noFault_next _

end WriteMode

theorem noFault_execSetOutputLineLength (n : Byte) (s : State) : NoFault (execSetOutputLineLength n s) := by
  refine noFault_guarded fun _ => ?_
  split
  · exact noFault_next _
  · exact noFault_refused _

theorem noFault_execBegin (s u : State) : NoFault (guarded (beginCheck s) (.next u)) :=
  noFault_guarded fun _ => noFault_next u

theorem noFault_exec {s : State} (hi : Inv s) (i : Instr) : NoFault (exec i s) := by
  cases i with
  | beginRead => exact noFault_execBegin s _
  | beginReadAtAddress a => exact noFault_execBegin s _
  | beginReadAtSegment sg => exact noFault_execBegin s _
  | readByte c => exact noFault_execReadByte hi c
  | endRead => exact noFault_execReadByte hi 0x0A
  | beginWrite => exact noFault_execBegin s _
  | writeAtAddress a => exact noFault_execWriteAtAddress hi a
  | writeAtSegment sg a => exact noFault_execWriteAtSegment hi sg a
  | writeByte d => exact noFault_execWriteByte hi d
  | setOutputLineLength n => exact noFault_execSetOutputLineLength n s
  | endWrite => exact noFault_execEndWrite hi
  | _ => exact noFault_readText hi _

/-- Settles O50: LENGTH is at most LINE_MAX in READ mode and below LINE_LENGTH in WRITE mode, so no command touches DATA above LINE_MAX
and none renders more than LINE_MAX bytes or the two of an extended-address record. -/
theorem noStepFaults : Obligations.NoStepFaults := by
  intro s f hi
  rcases step_cases s with hs | ⟨r, hs⟩ | ⟨rest, ⟨i, hs⟩ | ⟨text, hs⟩⟩ <;> rw [hs]
  · exact noFault_next s f
  · exact noFault_refused r f
  · exact noFault_exec (inv_input hi rest) i f
  · exact noFault_readText (inv_input hi rest) text f

/-! ## Bytes that nothing depends on -/

/-- The state with other bytes in DATA and SCRATCH. -/
def withMemories (data scratch : Memory) (s : State) : State := { s with data := data, scratch := scratch }

/-- DATA's specified bytes are those below LENGTH (10_state.md rule R24). -/
def SameData (s : State) (data : Memory) : Prop := ∀ i, i < s.length.toNat → s.data.read i = data.read i

/-- Two states differ at most in unspecified bytes exactly if one is the other with other memories, of which DATA agrees below LENGTH. -/
theorem sameButUnspecified_iff {s t : State} :
    SameButUnspecified s t ↔ ∃ data scratch, t = withMemories data scratch s ∧ SameData s data := by
  constructor
  · intro h
    refine ⟨t.data, t.scratch, ?_, h.data⟩
    have hrest := h.rest
    simp only [State.mk.injEq, true_and] at hrest
    simp only [withMemories, hrest]
  · rintro ⟨data, scratch, rfl, h⟩
    exact { data := h, rest := rfl }

theorem sameOutcome_next {s : State} {data scratch : Memory} (h : SameData s data) :
    SameOutcome (.next s) (.next (withMemories data scratch s)) :=
  sameButUnspecified_iff.2 ⟨data, scratch, rfl, h⟩

theorem sameOutcome_cases {r r' : Result} (h : SameOutcome r r') :
    (∃ s data scratch, r = .next s ∧ r' = .next (withMemories data scratch s) ∧ SameData s data) ∨
      (∃ f, r = .fault f ∧ r' = .fault f) ∨ ∃ q, r = .refused q ∧ r' = .refused q := by
  unfold SameOutcome at h
  split at h
  · next s t =>
    obtain ⟨data, scratch, rfl, hdata⟩ := sameButUnspecified_iff.1 h
    exact .inl ⟨s, data, scratch, rfl, rfl, hdata⟩
  · next f g => exact .inr (.inl ⟨f, rfl, by rw [h]⟩)
  · next q p => exact .inr (.inr ⟨q, rfl, by rw [h]⟩)
  all_goals exact h.elim

theorem sameOutcome_andThen {r r' : Result} {k : State → Result} (h : SameOutcome r r')
    (hk : ∀ u data scratch, r = .next u → r' = .next (withMemories data scratch u) → SameData u data →
      SameOutcome (k u) (k (withMemories data scratch u))) : SameOutcome (andThen r k) (andThen r' k) := by
  rcases sameOutcome_cases h with ⟨u, data, scratch, rfl, rfl, hu⟩ | ⟨f, rfl, rfl⟩ | ⟨q, rfl, rfl⟩
  · exact hk u data scratch rfl rfl hu
  · rfl
  · rfl

theorem sameOutcome_ite {c : Prop} [Decidable c] {r r' q q' : Result} (hr : SameOutcome r r') (hq : SameOutcome q q') :
    SameOutcome (if c then r else q) (if c then r' else q') := by
  split
  · exact hr
  · exact hq

theorem sameOutcome_guarded {c : Option Refusal} {r r' : Result} (h : SameOutcome r r') :
    SameOutcome (guarded c r) (guarded c r') := by
  cases c with
  | none => exact h
  | some q => rfl

/-! ### The sink port -/

section Complete

variable {s : State} {data scratch : Memory} (h : SameData s data)
include h

theorem pending_withMemories : (withMemories data scratch s).pending = s.pending := (Memory.readTo_congr h).symm

theorem openSinkEvent_withMemories (e : Bool) :
    openSinkEvent e (withMemories data scratch s) = withMemories data scratch (openSinkEvent e s) := by
  unfold openSinkEvent sinkEventOf
  rw [pending_withMemories h]
  rfl

/-- The value of an extended-address record, of at least two bytes, is within LENGTH. -/
theorem extendedValue_withMemories (hlen : 2 ≤ s.length.toNat) :
    extendedValue (withMemories data scratch s) = extendedValue s := by
  unfold extendedValue withMemories
  rw [h 0 (by omega), h 1 (by omega)]

theorem update_withMemories : update (withMemories data scratch s) = withMemories data scratch (update s) := by
  have hrtype : (withMemories data scratch s).rtype = s.rtype := rfl
  have hlength : (withMemories data scratch s).length = s.length := rfl
  by_cases hlen : 2 ≤ s.length.toNat
  · have hvalue := extendedValue_withMemories (scratch := scratch) h hlen
    cases hr : s.rtype <;> simp only [update, hrtype, hlength, hvalue, hr, if_pos hlen] <;> rfl
  · cases hr : s.rtype <;> simp only [update, hrtype, hlength, hr, if_neg hlen]

theorem finishLine_withMemories (accept : Bool) :
    finishLine accept (withMemories data scratch s) = withMemories data scratch (finishLine accept s) := by
  cases accept
  · rfl
  · simp only [finishLine, if_true, update_withMemories h]
    rfl

omit h in
theorem closeSinkEvent_withMemories :
    closeSinkEvent (withMemories data scratch s) = withMemories data scratch (closeSinkEvent s) := by
  have hinputs : (withMemories data scratch s).sinkInputs = s.sinkInputs := rfl
  rcases hs : s.sinkInputs with _ | ⟨x, rest⟩ <;> simp only [closeSinkEvent, hinputs, hs] <;> rfl

theorem sameOutcome_complete (e : Bool) : SameOutcome (complete e s) (complete e (withMemories data scratch s)) := by
  have hopen := openSinkEvent_withMemories (scratch := scratch) h e
  have hdata : SameData (closeSinkEvent (openSinkEvent e s)) data := by simpa [SameData] using h
  unfold complete
  rw [hopen, closeSinkEvent_withMemories, finishLine_withMemories hdata]
  refine sameOutcome_ite (sameOutcome_ite rfl (sameOutcome_next ?_)) rfl
  simp [SameData]

end Complete

/-! ### READ_BYTE -/

/-- A byte written at LENGTH in both DATA memories makes them agree there too. -/
theorem sameData_write {s t : State} {data : Memory} (h : SameData s data) (hwf : s.data.wf) (hwf' : data.wf) (b : Byte)
    (hdata : t.data = s.data.write s.length.toNat b) (hlength : t.length.toNat ≤ s.length.toNat + 1) :
    SameData t (data.write s.length.toNat b) := by
  intro i hi
  rw [hdata, Memory.read_write _ hwf, Memory.read_write _ hwf']
  split
  · rfl
  · exact h i (by omega)

theorem toNat_succ_le (n : Byte) : (n + 1).toNat ≤ n.toNat + 1 := by bv_omega

section ReadByte

variable {s : State} {data : Memory} (h : SameData s data) (scratch : Memory)
include h

theorem sameOutcome_onStart : SameOutcome (onStart s) (onStart (withMemories data scratch s)) :=
  sameOutcome_ite
    (sameOutcome_andThen (sameOutcome_complete h true) fun u _ _ _ _ _ => sameOutcome_next (s := restartLine u) nofun)
    (sameOutcome_next (s := restartLine s) nofun)

theorem sameOutcome_onTerm : SameOutcome (onTerm s) (onTerm (withMemories data scratch s)) :=
  sameOutcome_ite (sameOutcome_next h) (sameOutcome_complete h true)

theorem sameOutcome_countLow (v : Nybble) : SameOutcome (countLow v s) (countLow v (withMemories data scratch s)) :=
  sameOutcome_ite (sameOutcome_complete (s := countByteTaken v s) h true)
    (sameOutcome_next (s := { countByteTaken v s with rstate := .addrMsbHigh }) h)

omit h in
theorem typeLow_withMemories (v : Nybble) :
    typeLow v (withMemories data scratch s) = withMemories data scratch (typeLow v s) := by
  unfold typeLow
  have hbyte : wireByte v (withMemories data scratch s) = wireByte v s := rfl
  rcases ht : recordTypeOf (wireByte v s) with _ | ty <;> simp only [hbyte, ht] <;> rfl

theorem sameOutcome_dataLow (v : Nybble) (hwf : s.data.wf) (hwf' : data.wf) :
    SameOutcome (dataLow v s) (dataLow v (withMemories data scratch s)) := by
  rw [dataLow_eq, dataLow_eq]
  have hwrite := sameData_write (t := dataByteTaken v s) h hwf hwf' (wireByte v s) rfl (Nat.le_succ _)
  have hnext := sameData_write (t := { dataByteTaken v s with length := s.length + 1, rstate := .dataHigh }) h hwf hwf'
    (wireByte v s) rfl (toNat_succ_le _)
  exact sameOutcome_ite (sameOutcome_ite (sameOutcome_next hnext) (sameOutcome_complete hwrite _)) rfl

theorem sameOutcome_onHex (v : Nybble) (hwf : s.data.wf) (hwf' : data.wf) :
    SameOutcome (onHex v s) (onHex v (withMemories data scratch s)) := by
  have hrstate : (withMemories data scratch s).rstate = s.rstate := rfl
  unfold onHex
  rw [hrstate]
  split
  case h_3 => exact sameOutcome_countLow h scratch v
  case h_9 =>
    rw [typeLow_withMemories]
    refine sameOutcome_next ?_
    rcases typeLow_cases v s with ⟨-, ht⟩ | ⟨ty, -, ht⟩ <;> rw [ht]
    · nofun
    · exact h
  case h_11 => exact sameOutcome_dataLow h scratch v hwf hwf'
  case h_1 => exact sameOutcome_next h
  case h_5 => exact sameOutcome_next (s := addrMsbLow v s) h
  case h_7 => exact sameOutcome_next (s := addrLsbLow v s) h
  all_goals exact sameOutcome_next (s := highNybble v _ s) h

theorem sameOutcome_readChar (c : Byte) (hwf : s.data.wf) (hwf' : data.wf) :
    SameOutcome (readChar c s) (readChar c (withMemories data scratch s)) := by
  unfold readChar
  split
  · exact sameOutcome_onStart h scratch
  · exact sameOutcome_onTerm h scratch
  · exact sameOutcome_onHex h scratch _ hwf hwf'
  · exact sameOutcome_next h

theorem sameOutcome_execReadByte (c : Byte) (hwf : s.data.wf) (hwf' : data.wf) :
    SameOutcome (execReadByte c s) (execReadByte c (withMemories data scratch s)) :=
  sameOutcome_guarded (sameOutcome_readChar h scratch c hwf hwf')

end ReadByte

theorem dataWf_execReadByte {c : Byte} {s t : State} (hwf : s.data.wf) (h : execReadByte c s = .next t) : t.data.wf := by
  obtain ⟨-, h⟩ := execReadByte_inv h
  rcases h.data with hd | ⟨-, -, -, b, hd⟩ <;> rw [hd]
  · exact hwf
  · exact Memory.wf_write _ hwf _ _

theorem sameOutcome_readText {s : State} {data : Memory} (h : SameData s data) (scratch : Memory) (text : List Byte)
    (hwf : s.data.wf) (hwf' : data.wf) : SameOutcome (readText text s) (readText text (withMemories data scratch s)) := by
  induction text generalizing s data scratch with
  | nil => exact sameOutcome_next h
  | cons c text ih =>
    refine sameOutcome_andThen (sameOutcome_execReadByte h scratch c hwf hwf') fun u data' scratch' hu hu' hdata => ?_
    have hwf'' : data'.wf := dataWf_execReadByte (s := withMemories data scratch s) hwf' hu'
    exact ih hdata scratch' (dataWf_execReadByte hwf hu) hwf''

/-! ### The flush port -/

section Flush

variable {s : State} {data scratch : Memory} (h : SameData s data) (hwf : s.scratch.wf) (hwf' : scratch.wf)
include h hwf hwf'

omit h in
/-- The FlushEvent is the line, whatever SCRATCH held before Render wrote it (70_reset_and_hazards.md rule R125). -/
theorem openFlushEvent_withMemories (line : List Byte) :
    openFlushEvent line (withMemories data scratch s) =
      withMemories data (scratch.writeFrom 0 (scratchPart s.cfg line)) (openFlushEvent line s) := by
  simp only [openFlushEvent, withMemories, Memory.readTo_writeFrom _ _ hwf, Memory.readTo_writeFrom _ _ hwf']

theorem sameOutcome_render (ty : Byte) (a16 : Half) (bytes : List Byte) :
    SameOutcome (render ty a16 bytes s) (render ty a16 bytes (withMemories data scratch s)) := by
  unfold render
  rw [openFlushEvent_withMemories hwf hwf']
  exact sameOutcome_ite
    (sameOutcome_ite rfl
      (sameOutcome_next (s := closeFlushEvent (openFlushEvent (renderedLine s.cfg ty a16 bytes) s)) h))
    rfl

theorem sameOutcome_emitElaIfNeeded :
    SameOutcome (emitElaIfNeeded s) (emitElaIfNeeded (withMemories data scratch s)) :=
  sameOutcome_ite
    (sameOutcome_ite rfl
      (sameOutcome_andThen (sameOutcome_render h hwf hwf' _ _ _) fun u _ _ _ _ hdata =>
        sameOutcome_next (s := { u with elaHigh := highHalf u.address, elaUsed := true }) hdata))
    (sameOutcome_next h)

theorem sameOutcome_flushLine : SameOutcome (flushLine s) (flushLine (withMemories data scratch s)) := by
  refine sameOutcome_ite ?_ rfl
  refine sameOutcome_andThen (sameOutcome_emitElaIfNeeded h hwf hwf') fun u data' scratch' hu hu' hdata => ?_
  have huwf : u.scratch.wf := scratch_emitElaIfNeeded (wf_keptByLines _) hwf hu
  have huwf' : scratch'.wf := (scratch_emitElaIfNeeded (s := withMemories data scratch s) (wf_keptByLines _) hwf' hu' :)
  rw [pending_withMemories hdata]
  exact sameOutcome_andThen (sameOutcome_render hdata huwf huwf' _ _ _) fun v _ _ _ _ _ =>
    sameOutcome_next (s := { v with address := v.address + v.length.setWidth 32, length := 0 }) nofun

theorem sameOutcome_flushPending : SameOutcome (flushPending s) (flushPending (withMemories data scratch s)) :=
  sameOutcome_ite (sameOutcome_next h) (sameOutcome_flushLine h hwf hwf')

theorem sameOutcome_changeSegment (sg : Half) :
    SameOutcome (changeSegment sg s) (changeSegment sg (withMemories data scratch s)) :=
  sameOutcome_ite (sameOutcome_next h)
    (sameOutcome_andThen (sameOutcome_render h hwf hwf' _ _ _) fun u _ _ _ _ hdata =>
      sameOutcome_next (s := { u with segment := sg }) hdata)

end Flush

/-! ### The instructions -/

section WriteCommands

variable {s : State} {data scratch : Memory} (h : SameData s data) (hwf : s.scratch.wf) (hwf' : scratch.wf)
include h hwf hwf'

theorem sameOutcome_execWriteAtAddress (a : Addr) :
    SameOutcome (execWriteAtAddress a s) (execWriteAtAddress a (withMemories data scratch s)) :=
  sameOutcome_guarded <| sameOutcome_andThen (sameOutcome_flushPending h hwf hwf') fun u _ _ _ _ hdata =>
    sameOutcome_next (s := { u with address := a, lensetOk := true }) hdata

theorem sameOutcome_execWriteAtSegment (sg : Half) (a : Addr) :
    SameOutcome (execWriteAtSegment sg a s) (execWriteAtSegment sg a (withMemories data scratch s)) := by
  refine sameOutcome_guarded <| sameOutcome_andThen (sameOutcome_flushPending h hwf hwf') fun u _ _ hu hu' hdata => ?_
  have huwf := scratch_flushPending (wf_keptByLines _) hwf hu
  have huwf' := scratch_flushPending (s := withMemories data scratch s) (wf_keptByLines _) hwf' hu'
  exact sameOutcome_ite rfl <| sameOutcome_andThen (sameOutcome_changeSegment hdata huwf huwf' sg) fun v _ _ _ _ hv =>
    sameOutcome_next (s := { v with segUsed := true, address := a, lensetOk := true }) hv

theorem sameOutcome_execWriteByte (d : Byte) (hdwf : s.data.wf) (hdwf' : data.wf) :
    SameOutcome (execWriteByte d s) (execWriteByte d (withMemories data scratch s)) := by
  have hdata := sameData_write (t := byteAppended d s) h hdwf hdwf' d rfl (toNat_succ_le _)
  rw [execWriteByte_eq, execWriteByte_eq]
  exact sameOutcome_guarded <| sameOutcome_ite
    (sameOutcome_ite (sameOutcome_flushLine (s := byteAppended d s) hdata hwf hwf') (sameOutcome_next hdata)) rfl

theorem sameOutcome_execEndWrite : SameOutcome (execEndWrite s) (execEndWrite (withMemories data scratch s)) := by
  refine sameOutcome_guarded <| sameOutcome_andThen (sameOutcome_flushPending h hwf hwf') fun u _ _ hu hu' hdata => ?_
  have huwf := scratch_flushPending (wf_keptByLines _) hwf hu
  have huwf' := scratch_flushPending (s := withMemories data scratch s) (wf_keptByLines _) hwf' hu'
  exact sameOutcome_andThen (sameOutcome_render hdata huwf huwf' _ _ _) fun v _ _ _ _ hv =>
    sameOutcome_next (s := { v with mode := .ended, lensetOk := false }) hv

omit hwf hwf' in
theorem sameOutcome_execSetOutputLineLength (n : Byte) :
    SameOutcome (execSetOutputLineLength n s) (execSetOutputLineLength n (withMemories data scratch s)) :=
  sameOutcome_guarded <| sameOutcome_ite (sameOutcome_next (s := { s with lineLength := _ }) h) rfl

end WriteCommands

/-- A BEGIN_* command writes every register but the two memories, and LENGTH is 0 after it. -/
theorem sameOutcome_execBegin (check : Option Refusal) {u : State} (hu : u.length = 0) (data scratch : Memory) :
    SameOutcome (guarded check (.next u)) (guarded check (.next (withMemories data scratch u))) :=
  sameOutcome_guarded <| sameOutcome_next <| by simp [SameData, hu]

/-- Settles O53: the two states are one state with two pairs of memories; every operation reads DATA below LENGTH only, and SCRATCH only
where it has just been written. -/
theorem unspecifiedBytesNeverMatter : Obligations.UnspecifiedBytesNeverMatter := by
  intro i s s' hs hdwf hdwf' hswf hswf'
  obtain ⟨data, scratch, rfl, h⟩ := sameButUnspecified_iff.1 hs
  cases i with
  | beginRead => exact sameOutcome_execBegin (beginCheck s) (u := beginReadState s) rfl data scratch
  | beginReadAtAddress a =>
    exact sameOutcome_execBegin (beginCheck s) (u := { beginReadState s with address := a }) rfl data scratch
  | beginReadAtSegment sg =>
    exact sameOutcome_execBegin (beginCheck s) (u := { beginReadState s with segment := sg }) rfl data scratch
  | readByte c => exact sameOutcome_execReadByte h scratch c hdwf hdwf'
  | endRead => exact sameOutcome_execReadByte h scratch 0x0A hdwf hdwf'
  | beginWrite => exact sameOutcome_execBegin (beginCheck s) (u := beginWriteState s) rfl data scratch
  | writeAtAddress a => exact sameOutcome_execWriteAtAddress h hswf hswf' a
  | writeAtSegment sg a => exact sameOutcome_execWriteAtSegment h hswf hswf' sg a
  | writeByte d => exact sameOutcome_execWriteByte h hswf hswf' d hdwf hdwf'
  | setOutputLineLength n => exact sameOutcome_execSetOutputLineLength h n
  | endWrite => exact sameOutcome_execEndWrite h hswf hswf'
  | _ => exact sameOutcome_readText h scratch _ hdwf hdwf'

end Sys2Proof.Proofs.CodecState
end

section
/-! The family of 20_memory.md: the derived LINEAR, the form of a line on the wire, WRITE_AT_SEGMENT's records, and the events, which only
ever grow. -/

namespace Sys2Proof.Proofs.MemoryModel

open Sys2Proof Sys2Proof.Machine Sys2Proof.Proofs.CodecState

/-! ## LINEAR -/

/-- SEGMENT << 4 fits 32 bits, so that only the sum can wrap. -/
theorem toNat_linearAddress (a : Addr) (sg : Half) :
    (linearAddress a sg).toNat = (a.toNat + sg.toNat * 16) % 2 ^ 32 := by
  unfold linearAddress
  bv_omega

/-- Settles O15: LINEAR is the linear address of ADDRESS and SEGMENT. -/
theorem linearAddressFormula : Obligations.LinearAddressFormula := fun s => toNat_linearAddress s.address s.segment

/-! ## The form of a line -/

theorem length_flatMap_hex2 (bs : List Byte) : (bs.flatMap hex2).length = 2 * bs.length := by
  induction bs with
  | nil => rfl
  | cons b bs ih => simp only [List.flatMap_cons, List.length_append, ih, hex2, List.length_cons, List.length_nil]; omega

theorem length_lineText (t : Byte) (addr : Half) (data : List Byte) (cks : Byte) :
    (lineText t addr data cks).length = 11 + 2 * data.length := by
  simp only [lineText, List.length_cons, length_flatMap_hex2, List.length_append, recordBytes, halfBytes, List.length_nil]
  omega

/-- Byte k's digits are the characters 2k and 2k + 1, the high one first. -/
theorem getElem?_flatMap_hex2 {bs : List Byte} {k : Nat} {b : Byte} (h : bs[k]? = some b) :
    (bs.flatMap hex2)[2 * k]? = some (hexDigit (b.extractLsb' 4 4)) ∧
    (bs.flatMap hex2)[2 * k + 1]? = some (hexDigit (b.extractLsb' 0 4)) := by
  induction bs generalizing k with
  | nil => cases h
  | cons c bs ih =>
    cases k with
    | zero => cases h; exact ⟨rfl, rfl⟩
    | succ k => exact ih h

theorem toNat_joinNybbles (hi lo : Nybble) : hi.toNat * 16 + lo.toNat = (joinNybbles hi lo).toNat := by
  revert hi lo; decide

/-- 30_encoding.md rule R59: the digits the encoder emits are upper case. -/
theorem hexDigit_range (v : Nybble) :
    (0x30 ≤ (hexDigit v).toNat ∧ (hexDigit v).toNat ≤ 0x39) ∨ (0x41 ≤ (hexDigit v).toNat ∧ (hexDigit v).toNat ≤ 0x46) := by
  revert v; decide

/-- Settles O14: the characters after `:` are the digits of the line's bytes, and byte k's are those of its two nybbles. -/
theorem lineFormat : Obligations.LineFormat := by
  intro t addr data cks _
  refine ⟨length_lineText t addr data cks, rfl, fun k b hb => ?_⟩
  obtain ⟨hhi, hlo⟩ := getElem?_flatMap_hex2 hb
  refine ⟨hexDigit (b.extractLsb' 4 4), hexDigit (b.extractLsb' 0 4), ?_, ?_, ?_, ?_⟩
  · rw [Nat.add_comm]; exact hhi
  · rw [Nat.add_comm]; exact hlo
  · rw [hexval_hexDigit, hexval_hexDigit, toNat_joinNybbles, joinNybbles_halves]
  · rintro c (rfl | rfl) <;> exact hexDigit_range _

/-! ## The events only grow -/

/-- From `s` to `t` events are only appended, and the parameters stay. -/
def Appends (s t : State) : Prop := s.events <+: t.events ∧ t.cfg = s.cfg

theorem appends_refl (s : State) : Appends s s := ⟨List.prefix_rfl, rfl⟩

theorem Appends.trans {s t u : State} (h : Appends s t) (h' : Appends t u) : Appends s u :=
  ⟨h.1.trans h'.1, h'.2.trans h.2⟩

/-! ### In READ mode -/

theorem appends_complete {e : Bool} {s t : State} (h : complete e s = .next t) : Appends s t := by
  obtain ⟨-, -, rfl⟩ := complete_inv h
  simp [Appends]

theorem appends_byteRead {c : Byte} {s t : State} (h : ByteRead c s t) : Appends s t := by
  cases h with
  | truncated h => exact (appends_complete h :)
  | ended h => exact appends_complete h
  | overlong v h => exact (appends_complete h :)
  | checked v e _ _ _ h => exact (appends_complete h :)
  | _ => exact appends_refl s

theorem appends_execReadByte {c : Byte} {s t : State} (h : execReadByte c s = .next t) : Appends s t :=
  appends_byteRead (execReadByte_inv h).2

theorem appends_readText {text : List Byte} {s t : State} (h : readText text s = .next t) : Appends s t :=
  readText_keeps (P := Appends s) (fun _ _ _ hs h => hs.trans (appends_execReadByte h)) text (appends_refl s) h

/-! ### In WRITE mode -/

theorem appends_render {ty : Byte} {a16 : Half} {bytes : List Byte} {s t : State} (h : render ty a16 bytes s = .next t) :
    Appends s t := by
  obtain ⟨-, -, rfl⟩ := render_inv h
  simp [Appends]

theorem appends_emitElaIfNeeded {s t : State} (h : emitElaIfNeeded s = .next t) : Appends s t := by
  rcases emitElaIfNeeded_inv h with ⟨-, rfl⟩ | ⟨-, -, u, hu, rfl⟩
  · exact appends_refl t
  · exact (appends_render hu :)

theorem appends_flushLine {s t : State} (h : flushLine s = .next t) : Appends s t := by
  obtain ⟨-, u, v, hu, hv, rfl⟩ := flushLine_inv h
  exact (appends_emitElaIfNeeded hu).trans (appends_render hv :)

theorem appends_flushPending {s t : State} (h : flushPending s = .next t) : Appends s t := by
  rcases flushPending_inv h with ⟨-, rfl⟩ | ⟨-, h⟩
  · exact appends_refl t
  · exact appends_flushLine h

theorem appends_changeSegment {sg : Half} {s t : State} (h : changeSegment sg s = .next t) : Appends s t := by
  rcases changeSegment_inv h with ⟨-, rfl⟩ | ⟨-, u, hu, rfl⟩
  · exact appends_refl t
  · exact (appends_render hu :)

/-! ### For every instruction -/

theorem appends_execBegin {s t u : State} (h : guarded (beginCheck s) (.next u) = .next t) (hu : Appends s u) :
    Appends s t := by
  obtain ⟨-, rfl⟩ := execBegin_inv h
  exact hu

theorem appends_exec {i : Instr} {s t : State} (h : exec i s = .next t) : Appends s t := by
  cases i with
  | beginRead => exact appends_execBegin h (appends_refl s)
  | beginReadAtAddress a => exact appends_execBegin h (appends_refl s)
  | beginReadAtSegment sg => exact appends_execBegin h (appends_refl s)
  | beginWrite => exact appends_execBegin h (appends_refl s)
  | readByte c => exact appends_execReadByte h
  | endRead => exact appends_execReadByte (c := 0x0A) h
  | writeAtAddress a =>
    obtain ⟨-, u, hu, rfl⟩ := execWriteAtAddress_inv h
    exact (appends_flushPending hu :)
  | writeAtSegment sg a =>
    obtain ⟨-, u, v, hu, -, hv, rfl⟩ := execWriteAtSegment_inv h
    exact (appends_flushPending hu).trans (appends_changeSegment hv :)
  | writeByte d =>
    obtain ⟨-, -, ⟨-, ht⟩ | ⟨-, rfl⟩⟩ := execWriteByte_inv h
    · exact (appends_flushLine ht :)
    · exact (appends_refl s :)
  | setOutputLineLength n =>
    obtain ⟨-, -, rfl⟩ := execSetOutputLineLength_inv h
    exact (appends_refl s :)
  | endWrite =>
    obtain ⟨-, u, v, hu, hv, rfl⟩ := execEndWrite_inv h
    exact (appends_flushPending hu).trans (appends_render hv :)
  | _ => exact appends_readText h

theorem appends_step {s t : State} (h : step s = .next t) : Appends s t := by
  rcases step_cases s with hs | ⟨r, hs⟩ | ⟨rest, ⟨i, hs⟩ | ⟨text, hs⟩⟩ <;> rw [hs] at h
  · cases h; exact appends_refl s
  · cases h
  · exact (appends_exec h :)
  · exact (appends_readText h :)

/-- Settles O52: taking the input emits nothing, an event is opened by Complete and Render only, each of which appends one, and nothing
writes the parameters. -/
theorem eventsOnlyAppended : Obligations.EventsOnlyAppended := by
  intro s t h
  obtain ⟨⟨new, hnew⟩, hcfg⟩ := appends_step h
  exact ⟨⟨new, hnew.symm⟩, hcfg⟩

/-! ## What the flush port's procedures answer -/

/-- SCRATCH is canonical and the flush device only takes bytes: every Render goes through. -/
structure FlushReady (s : State) : Prop where
  scratchWf : s.scratch.wf
  dutiful : FlushDutiful s

theorem flushReenters_of_dutiful {s : State} (h : FlushDutiful s) : flushReenters s = false := by
  unfold flushReenters
  split
  · next w _ hs => exact absurd (by simp [hs]) (h w)
  · rfl
  · rfl

theorem flushReady_emitted {s : State} (h : FlushReady s) (ty : Byte) (a16 : Half) (bytes : List Byte) :
    FlushReady (emitted ty a16 bytes s) where
  scratchWf := Memory.wf_writeFrom _ _ h.scratchWf 0
  dutiful w hw := h.dutiful w (List.mem_of_mem_tail hw)

theorem flushReady_elaEmitted {s : State} (h : FlushReady s) : FlushReady (elaEmitted s) := by
  unfold elaEmitted
  split
  · exact h
  · exact { flushReady_emitted h _ _ _ with }

theorem flushReady_lineFlushed {s : State} (h : FlushReady s) : FlushReady (lineFlushed s) :=
  { flushReady_emitted (flushReady_elaEmitted h) _ _ _ with }

theorem flushReady_pendingFlushed {s : State} (h : FlushReady s) : FlushReady (pendingFlushed s) := by
  unfold pendingFlushed
  split
  · exact h
  · exact flushReady_lineFlushed h

theorem closeFlushEvent_openFlushEvent {s : State} (h : s.scratch.wf) (ty : Byte) (a16 : Half) (bytes : List Byte) :
    closeFlushEvent (openFlushEvent (renderedLine s.cfg ty a16 bytes) s) = emitted ty a16 bytes s := by
  have hevents := openFlushEvent_events h (renderedLine s.cfg ty a16 bytes)
  unfold closeFlushEvent emitted
  rw [hevents]
  rfl

theorem render_eq_emitted {s : State} (h : FlushReady s) (ty : Byte) (a16 : Half) {bytes : List Byte}
    (hlen : bytes.length ≤ renderMax s.cfg) : render ty a16 bytes s = .next (emitted ty a16 bytes s) := by
  unfold render
  simp [hlen, flushReenters_of_dutiful h.dutiful, closeFlushEvent_openFlushEvent h.scratchWf]


theorem ovfPending_eq_true {s : State} : s.ovfPending = true ↔ highHalf s.address ≠ s.elaHigh := by
  rw [State.ovfPending, bne_iff_ne]

/-- The bytes of ADDRESS[31:16], high first (20_memory.md rule R46). -/
theorem halfBytes_highHalf (a : Addr) : halfBytes (highHalf a) = [a.extractLsb' 24 8, a.extractLsb' 16 8] := by
  have hhigh (k : Nat) : (highHalf a).extractLsb' k 8 = a.extractLsb' (16 + k) 8 := by
    rw [← extract_append_high (highHalf a) (lowHalf a), ← joinHalves, joinHalves_halves]
  rw [halfBytes, hhigh 8, hhigh 0]

theorem emitElaIfNeeded_eq_elaEmitted {s : State} (h : FlushReady s) (hmix : ¬FlushMixes s) :
    emitElaIfNeeded s = .next (elaEmitted s) := by
  unfold emitElaIfNeeded elaEmitted
  by_cases hova : highHalf s.address = s.elaHigh
  · simp [State.ovfPending, hova]
  · have hseg : s.segUsed = false := by simpa [FlushMixes, hova] using hmix
    have hrender := render_eq_emitted h 0x04 0x0000 (length_halfBytes_le (highHalf s.address) s.cfg)
    rw [if_pos (ovfPending_eq_true.2 hova), hseg, hrender, andThen_next, if_neg hova, ← halfBytes_highHalf]
    rfl

theorem emitElaIfNeeded_of_mixes {s : State} (h : FlushMixes s) : emitElaIfNeeded s = .refused .segmentLinearMix := by
  unfold emitElaIfNeeded
  rw [if_pos (ovfPending_eq_true.2 h.1), if_pos h.2]

/-- FlushLine() of at most LINE_MAX pending bytes: the records of `lineFlushed`, or CV5. -/
theorem flushLine_eq_lineFlushed {s : State} (h : FlushReady s) (hlen : s.length.toNat ≤ s.cfg.lineMax.toNat)
    (hmix : ¬FlushMixes s) : flushLine s = .next (lineFlushed s) := by
  have hbytes : (elaEmitted s).pending.length ≤ renderMax (elaEmitted s).cfg := by
    simpa [State.pending, renderMax] using Or.inl hlen
  have hrender := render_eq_emitted (flushReady_elaEmitted h) 0x00 (lowHalf (elaEmitted s).address) hbytes
  unfold flushLine
  rw [if_pos (by omega), emitElaIfNeeded_eq_elaEmitted h hmix, andThen_next, hrender, andThen_next]
  simp [lineFlushed, State.pending]

theorem flushLine_of_mixes {s : State} (hlen : s.length.toNat ≤ s.cfg.lineMax.toNat) (hmix : FlushMixes s) :
    flushLine s = .refused .segmentLinearMix := by
  unfold flushLine
  rw [if_pos (by omega), emitElaIfNeeded_of_mixes hmix, andThen_refused]

theorem flushPending_eq_pendingFlushed {s : State} (h : FlushReady s) (hlen : s.length.toNat ≤ s.cfg.lineMax.toNat)
    (hmix : s.length = 0 ∨ ¬FlushMixes s) : flushPending s = .next (pendingFlushed s) := by
  unfold flushPending pendingFlushed
  split
  · rfl
  · next hne => exact flushLine_eq_lineFlushed h hlen (hmix.resolve_left hne)

theorem flushPending_of_mixes {s : State} (hlen : s.length.toNat ≤ s.cfg.lineMax.toNat) (hne : s.length ≠ 0)
    (hmix : FlushMixes s) : flushPending s = .refused .segmentLinearMix := by
  rw [flushPending, if_neg hne, flushLine_of_mixes hlen hmix]

theorem pendingFlushed_segment (s : State) : (pendingFlushed s).segment = s.segment := by
  unfold pendingFlushed
  split <;> simp

theorem changeSegment_same {sg : Half} {s : State} (h : sg = s.segment) : changeSegment sg s = .next s := if_pos h

theorem changeSegment_eq_emitted {sg : Half} {s : State} (h : FlushReady s) (hne : sg ≠ s.segment) :
    changeSegment sg s = .next { emitted 0x02 0x0000 (halfBytes sg) s with segment := sg } := by
  rw [changeSegment, if_neg hne, render_eq_emitted h _ _ (length_halfBytes_le sg s.cfg), andThen_next]

/-! ## WRITE_AT_SEGMENT -/

/-- WRITE_AT_SEGMENT once its flush has gone through. -/
theorem execWriteAtSegment_of_flushed {s u : State} (sg : Half) (a : Addr) (hready : WriteReady s)
    (hu : flushPending s = .next u) :
    execWriteAtSegment sg a s =
      if u.elaUsed then .refused .segmentLinearMix
      else andThen (changeSegment sg u) fun v => .next { v with segUsed := true, address := a, lensetOk := true } := by
  rw [execWriteAtSegment, writeCheck_eq_none.2 hready, guarded_none, hu, andThen_next]

/-- Settles O42: the flush is refused or leaves `pendingFlushed`, which keeps SEGMENT; there ELA_USED refuses, and the segment record is
emitted exactly if the segment is a new one. -/
theorem writeAtSegmentEmitsOnChange : Obligations.WriteAtSegmentEmitsOnChange := by
  intro s sg a hi hm hdutiful
  have hflush : FlushReady s := ⟨hi.scratchWf, hdutiful⟩
  have hready : WriteReady s := ⟨hi.eventClosed, hm⟩
  have hlen := length_le_of_writeCheck hi (writeCheck_eq_none.2 hready)
  refine ⟨fun hmix => ?_, fun hne hmix => ?_⟩
  · have hexec := execWriteAtSegment_of_flushed sg a hready (flushPending_eq_pendingFlushed hflush hlen hmix)
    rw [← pendingFlushed_segment s]
    refine ⟨fun hela hsg => ?_, fun hela hsg => ?_, fun hela => ?_⟩
    · rw [hela, changeSegment_same hsg] at hexec
      exact hexec
    · rw [hela, changeSegment_eq_emitted (flushReady_pendingFlushed hflush) hsg] at hexec
      exact hexec
    · rwa [hela] at hexec
  · show execWriteAtSegment sg a s = _
    rw [execWriteAtSegment, writeCheck_eq_none.2 hready, guarded_none, flushPending_of_mixes hlen hne hmix, andThen_refused]

end Sys2Proof.Proofs.MemoryModel
end

section
/-! The family of 30_encoding.md: the round trips of words and lines, the CHECKSUM, and whole lines read by the parse machine. -/

namespace Sys2Proof.Proofs.Encoding

open Sys2Proof Sys2Proof.Machine Sys2Proof.Proofs.CodecState Sys2Proof.Proofs.MemoryModel

/-! ## A record row by its type -/

theorem encode_recordInstr (rt : RecordType) (addr : Half) (data : List Byte) (cks : Byte) :
    encode (recordInstr rt addr data cks) = .line (lineText rt.typeByte addr data cks) := by
  cases rt <;> rfl

theorem wellFormed_recordInstr (rt : RecordType) (addr : Half) (data : List Byte) (cks : Byte) :
    WellFormed (recordInstr rt addr data cks) = true ↔ data.length ≤ 255 := by
  cases rt <;> exact decide_eq_true_iff

theorem exec_recordInstr (rt : RecordType) (addr : Half) (data : List Byte) (cks : Byte) :
    exec (recordInstr rt addr data cks) = readText (lineText rt.typeByte addr data cks) := by
  cases rt <;> rfl

/-! ## Lines -/

/-- LEN, one byte, counts up to 255 data bytes (30_encoding.md rule R60). -/
theorem toNat_lenByte {data : List Byte} (h : data.length ≤ 255) : (BitVec.ofNat 8 data.length).toNat = data.length :=
  Nat.mod_eq_of_lt (by omega)

/-- LEN data bytes and the CHECKSUM byte after TYPE: the split that the decoder makes is the one that the encoder made. -/
theorem decodeRecord_recordBytes (rt : RecordType) (addr : Half) {data : List Byte} (cks : Byte) (h : data.length ≤ 255) :
    decodeRecord (recordBytes rt.typeByte addr data ++ [cks]) = .ok (recordInstr rt addr data cks) := by
  simp [recordBytes, halfBytes, decodeRecord, toNat_lenByte h]

theorem decodeLine_lineText (rt : RecordType) (addr : Half) {data : List Byte} (cks : Byte) (h : data.length ≤ 255) :
    decodeLine (lineText rt.typeByte addr data cks) = .ok (recordInstr rt addr data cks) := by
  rw [lineText, decodeLine, if_pos rfl, hexBytes_flatMap_hex2]
  exact decodeRecord_recordBytes rt addr cks h

/-- Bytes that spell a record are the ones the encoder makes of it. -/
theorem decodeRecord_inv {bs : List Byte} {i : Instr} (h : decodeRecord bs = .ok i) :
    ∃ rt addr data cks, data.length ≤ 255 ∧ i = recordInstr rt addr data cks ∧
      bs = recordBytes rt.typeByte addr data ++ [cks] := by
  unfold decodeRecord at h
  split at h
  · next len ahi alo t rest =>
    split at h
    · next hlen =>
      split at h
      · next rt ht =>
        obtain rfl | ⟨data, cks, rfl⟩ := List.eq_nil_or_concat rest
        · simp at hlen
        · have hdata : data.length = len.toNat := by simpa using hlen
          refine ⟨rt, joinBytes ahi alo, data, cks, by omega, ?_, ?_⟩
          · cases h
            simp [← hdata]
          · simp [recordBytes, halfBytes_joinBytes, hdata, typeByte_of_recordTypeOf ht]
      · cases h
    · cases h
  · cases h

/-- A text that decodes is a record's line in the encoder's spelling. -/
theorem decodeLine_inv {text : List Byte} {i : Instr} (h : decodeLine text = .ok i) :
    ∃ rt addr data cks, data.length ≤ 255 ∧ i = recordInstr rt addr data cks ∧
      text = lineText rt.typeByte addr data cks := by
  unfold decodeLine at h
  split at h
  · cases h
  · next c digits =>
    split at h
    · next hc =>
      split at h
      · next bs hbs =>
        obtain ⟨rt, addr, data, cks, hlen, hi, rfl⟩ := decodeRecord_inv h
        exact ⟨rt, addr, data, cks, hlen, hi, by rw [lineText, flatMap_hex2_of_hexBytes _ _ hbs, hc]⟩
      · cases h
    · cases h

/-! ## Command words -/

theorem needZero_eq_ok {unused : Bool} {i j : Instr} : needZero unused i = .ok j ↔ unused = true ∧ i = j := by
  cases unused <;> simp [needZero]

theorem commandWord_of_fields {w : CmdWord} {a : Addr} {sg : Half} {b op : Byte} (ha : aField w = a) (hs : sField w = sg)
    (hb : bField w = b) (hop : opField w = op) : commandWord a sg b op = w := by
  subst ha hs hb hop
  exact commandWord_fields w

/-- Each opcode's check of its unused fields passes on the word that the encoder makes. -/
theorem decodeCommand_of_encode {i : Instr} {w : CmdWord} (h : encode i = .word w) : decodeCommand w = .ok i := by
  cases i <;> cases h <;> simp [decodeCommand, needZero]

theorem encode_of_decodeCommand {w : CmdWord} {i : Instr} (h : decodeCommand w = .ok i) :
    encode i = .word w ∧ WellFormed i = true := by
  unfold decodeCommand at h
  split at h
  case h_12 => cases h
  all_goals
    next hop =>
    obtain ⟨hz, rfl⟩ := needZero_eq_ok.1 h
    simp only [Bool.and_eq_true, beq_iff_eq] at hz
    refine ⟨congrArg _ (commandWord_of_fields ?_ ?_ ?_ hop), rfl⟩ <;> simp [hz]

/-! ## The round trips -/

/-- The rows whose encoding is a line are the six record types. -/
theorem exists_recordInstr_of_encode {i : Instr} {text : List Byte} (h : encode i = .line text) :
    ∃ rt addr data cks, i = recordInstr rt addr data cks := by
  cases i with
  | recordData addr data cks => exact ⟨.data, addr, data, cks, rfl⟩
  | recordEndOfFile addr data cks => exact ⟨.endOfFile, addr, data, cks, rfl⟩
  | recordExtendedSegmentAddress addr data cks => exact ⟨.extendedSegmentAddress, addr, data, cks, rfl⟩
  | recordStartSegmentAddress addr data cks => exact ⟨.startSegmentAddress, addr, data, cks, rfl⟩
  | recordExtendedLinearAddress addr data cks => exact ⟨.extendedLinearAddress, addr, data, cks, rfl⟩
  | recordStartLinearAddress addr data cks => exact ⟨.startLinearAddress, addr, data, cks, rfl⟩
  | _ => cases h

/-- Settles O9: a command's word keeps each operand in its own field, with zero in the fields that its opcode does not use; a
record's digits spell its bytes, which LEN splits into data and CHECKSUM. -/
theorem decodeOfEncode : Obligations.DecodeOfEncode := by
  intro i hwf
  rcases he : encode i with w | text
  · exact decode_word_eq_ok.2 (decodeCommand_of_encode he)
  · obtain ⟨rt, addr, data, cks, rfl⟩ := exists_recordInstr_of_encode he
    rw [encode_recordInstr] at he
    cases he
    exact decode_line_eq_ok.2 (decodeLine_lineText rt addr cks ((wellFormed_recordInstr rt addr data cks).1 hwf))

/-- Settles O10: a word is its four fields, of which the decoder has checked that the unused ones are zero; a line's digits are
the upper-case ones of the bytes they spell, and these bytes are the record's. -/
theorem encodeOfDecode : Obligations.EncodeOfDecode := by
  rintro (w | text) i hd
  · exact encode_of_decodeCommand (decode_word_eq_ok.1 hd)
  · obtain ⟨rt, addr, data, cks, hlen, rfl, rfl⟩ := decodeLine_inv (decode_line_eq_ok.1 hd)
    exact ⟨encode_recordInstr rt addr data cks, (wellFormed_recordInstr rt addr data cks).2 hlen⟩

/-- Settles O8: the words of the commands by the decoder's table; each line is the encoder's line of its record. -/
theorem specWordsDecode : Obligations.SpecWordsDecode := by
  unfold Obligations.SpecWordsDecode
  decide

/-! ## Reserved words -/

theorem decodeCommand_of_reservedOpcode {w : CmdWord} (h : opField w ∉ commandOpcodes) :
    decodeCommand w = .error .reservedOpcode := by
  unfold decodeCommand
  split
  case h_12 => rfl
  all_goals
    next hop =>
    exact absurd (by rw [hop]; decide) h

/-- Some field that the word's opcode does not use is nonzero (30_encoding.md rule R70). -/
def UsesReservedField (w : CmdWord) : Prop :=
  (aField w ≠ 0 ∧ opField w ∉ opcodesUsingA) ∨ (sField w ≠ 0 ∧ opField w ∉ opcodesUsingS) ∨
    (bField w ≠ 0 ∧ opField w ∉ opcodesUsingB)

theorem decodeCommand_of_usesReservedField {w : CmdWord} (hop : opField w ∈ commandOpcodes) (h : UsesReservedField w) :
    decodeCommand w = .error .reservedField := by
  unfold decodeCommand
  split
  case h_12 => simp_all [commandOpcodes]
  all_goals
    next hw =>
    simp only [UsesReservedField, hw, opcodesUsingA, opcodesUsingS, opcodesUsingB] at h
    refine if_neg fun hz => ?_
    simp only [Bool.and_eq_true, beq_iff_eq] at hz
    simp [hz] at h

theorem step_of_decodeCommand_error {s : State} {w : CmdWord} {rest : List HostInput} {e : CommandError}
    (hin : s.input = .word w :: rest) (hclosed : s.evtOpen = false) (hd : decodeCommand w = .error e) :
    step s = .refused (wordRefusal e) := by
  rw [step, Scope.fetch_word hin]
  simp [fetchWord, hclosed, hd]

/-- Settles O4: the decoder's table has an arm for each opcode of R69, which checks the fields its opcode does not use, and the
default arm refuses every other opcode. -/
theorem reservedWordsRefused : Obligations.ReservedWordsRefused := by
  intro s w rest hin hclosed
  exact ⟨fun hop => step_of_decodeCommand_error hin hclosed (decodeCommand_of_reservedOpcode hop),
    fun hop hfield => step_of_decodeCommand_error hin hclosed (decodeCommand_of_usesReservedField hop hfield)⟩

/-! ## Characters -/

/-- Settles O11: the model's tests are those of the rule, in its order, on the byte instead of on its number. -/
theorem characterClasses : Obligations.CharacterClasses := by
  intro c
  simp only [charClass, isHex, ← BitVec.toNat_inj, Bool.or_eq_true, Bool.and_eq_true, decide_eq_true_eq, or_assoc]
  rfl

/-- Settles O12: each range selects one arm of `hexval`, whose difference is below 16 and so fits a nybble. -/
theorem hexDigitValues : Obligations.HexDigitValues := by
  intro c
  refine ⟨fun h1 h2 => ?_, fun h1 h2 => ?_, fun h1 h2 => ?_⟩
  · rw [hexval, if_pos h2]; bv_omega
  · rw [hexval, if_neg (by omega), if_pos h2]; bv_omega
  · rw [hexval, if_neg (by omega), if_neg (by omega)]; bv_omega

/-! ## The CHECKSUM -/

theorem toNat_byteSum (bs : List Byte) : (byteSum bs).toNat = (bs.map BitVec.toNat).sum % 256 := by
  induction bs with
  | nil => rfl
  | cons b bs ih => simp [ih]

theorem byteSum_with_checksum (t : Byte) (addr : Half) (data : List Byte) :
    byteSum (recordBytes t addr data ++ [checksum t addr data]) = 0 := by
  simp [byteSum_append, checksum]

theorem toNat_halfBytes (h : Half) : (halfBytes h).map BitVec.toNat = [h.toNat / 256, h.toNat % 256] := by
  have hhigh : (h.extractLsb' 8 8).toNat = h.toNat / 256 := by
    rw [BitVec.extractLsb'_toNat, Nat.shiftRight_eq_div_pow]
    omega
  simp [halfBytes, hhigh]

/-- The sum that rule R58 takes, as numbers. -/
theorem toNat_byteSum_recordBytes (t : Byte) (addr : Half) {data : List Byte} (h : data.length ≤ 255) :
    (byteSum (recordBytes t addr data)).toNat =
      (data.length + addr.toNat / 256 + addr.toNat % 256 + t.toNat + (data.map BitVec.toNat).sum) % 256 := by
  simp only [toNat_byteSum, recordBytes, List.map_cons, List.map_append, toNat_halfBytes, toNat_lenByte h,
    List.cons_append, List.nil_append, List.sum_cons, Nat.add_assoc]

/-- Settles O13: the two's complement of the sum of the preceding bytes, each taken as a number; added to that sum it gives 0. -/
theorem checksumFormula : Obligations.ChecksumFormula := by
  intro t addr data h
  refine ⟨?_, byteSum_with_checksum t addr data⟩
  rw [checksum, BitVec.toNat_sub, toNat_byteSum_recordBytes t addr h]
  rfl

/-- Lists of the same length that differ in exactly one place have different sums. -/
theorem byteSum_ne_of_differ_once {xs ys : List Byte} {k : Nat} (hlen : xs.length = ys.length) (hk : xs[k]? ≠ ys[k]?)
    (hrest : ∀ j, j ≠ k → xs[j]? = ys[j]?) : byteSum xs ≠ byteSum ys := by
  induction xs generalizing ys k with
  | nil =>
    obtain rfl := List.length_eq_zero_iff.1 hlen.symm
    exact absurd rfl hk
  | cons x xs ih =>
    obtain ⟨y, ys, rfl⟩ := List.exists_cons_of_length_eq_add_one hlen.symm
    rw [byteSum_cons, byteSum_cons]
    cases k with
    | zero =>
      have htail : xs = ys := List.ext_getElem? fun j => by simpa using hrest (j + 1) (by omega)
      simpa [htail] using hk
    | succ k =>
      have hhead : x = y := by simpa using hrest 0 (by omega)
      have htail := ih (by simpa using hlen) (by simpa using hk) fun j hj => by simpa using hrest (j + 1) (by omega)
      simpa [hhead] using htail

/-! ## Characters read -/

section Characters

variable {s : State} (h : ReadReady s)
include h

theorem execReadByte_of_ready (c : Byte) : execReadByte c s = readChar c s := by
  rw [execReadByte, readCheck_eq_none.2 h, guarded_none]

theorem execReadByte_hexDigit (v : Nybble) : execReadByte (hexDigit v) s = onHex v s := by
  simp [execReadByte_of_ready h, readChar]

/-- While no line is in progress only `:` does anything (40_decoder.md rules R79, R80, R82). -/
theorem execReadByte_of_waiting (hr : s.rstate = .waitForStart) {c : Byte} (hc : charClass c ≠ .start) :
    execReadByte c s = .next s := by
  rw [execReadByte_of_ready h, readChar]
  split
  · contradiction
  · exact if_pos hr
  · rw [onHex, hr]
  · rfl

theorem readText_of_waiting (hr : s.rstate = .waitForStart) {text : List Byte} (ht : ∀ c ∈ text, charClass c ≠ .start) :
    readText text s = .next s := by
  induction text with
  | nil => rfl
  | cons c text ih =>
    rw [readText, execReadByte_of_waiting h hr (ht c List.mem_cons_self), andThen_next]
    exact ih fun d hd => ht d (List.mem_cons_of_mem c hd)

/-- `:` where no line in progress is reported (40_decoder.md rule R78). -/
theorem execReadByte_start (hr : s.rstate = .waitForStart ∨ s.cfg.strictTruncation = false) :
    execReadByte 0x3A s = .next (restartLine s) := by
  have hquiet : ¬(s.cfg.strictTruncation && s.rstate != .waitForStart) = true := by
    rcases hr with hr | hr <;> simp [hr]
  rw [execReadByte_of_ready h]
  exact if_neg hquiet

end Characters

theorem charClass_of_mem_digits {bs : List Byte} {c : Byte} (h : c ∈ bs.flatMap hex2) : charClass c = .hex := by
  obtain ⟨b, -, hc⟩ := List.mem_flatMap.1 h
  obtain rfl | rfl := List.mem_pair.1 hc <;> exact charClass_hexDigit _

theorem charClass_of_mem_newline {c : Config} {b : Byte} (h : b ∈ newlineBytes c) : charClass b = .term := by
  obtain rfl | rfl := Scope.eq_of_mem_newlineBytes h <;> rfl

/-! ## Bytes read -/

theorem andThen_readText_nil (r : Result) : andThen r (readText []) = r := by
  cases r <;> rfl

/-- The byte's first digit waits in NYB. -/
def firstDigitRead (b : Byte) (low : ParseState) (s : State) : State := highNybble (b.extractLsb' 4 4) low s

@[simp] theorem wireByte_firstDigitRead (b : Byte) (low : ParseState) (s : State) :
    wireByte (b.extractLsb' 0 4) (firstDigitRead b low s) = b := joinNybbles_halves b

theorem onHex_highDigit {s : State} {low : ParseState} (hp : (s.rstate, low) ∈ digitPairs) (v : Nybble) :
    onHex v s = .next (highNybble v low s) := by
  simp only [digitPairs, List.mem_cons, Prod.mk.injEq, List.not_mem_nil, or_false] at hp
  rcases hp with ⟨hr, rfl⟩ | ⟨hr, rfl⟩ | ⟨hr, rfl⟩ | ⟨hr, rfl⟩ | ⟨hr, rfl⟩ <;> rw [onHex, hr]

/-- A byte's two digits: the first waits in NYB, the second is the handler's of the byte's field. -/
theorem readText_hex2 {s : State} {low : ParseState} (h : ReadReady s) (hp : (s.rstate, low) ∈ digitPairs) (b : Byte)
    (rest : List Byte) :
    readText (hex2 b ++ rest) s =
      andThen (onHex (b.extractLsb' 0 4) (firstDigitRead b low s)) (readText rest) := by
  have h' : ReadReady (firstDigitRead b low s) := h
  simp only [hex2, List.cons_append, List.nil_append, readText]
  rw [execReadByte_hexDigit h, onHex_highDigit hp, andThen_next]
  exact congrArg (andThen · _) (execReadByte_hexDigit h' _)

/-! ## Fields read -/

/-- The state after LEN, where it is at most LINE_MAX (40_decoder.md rule R84). -/
def lenRead (len : Byte) (s : State) : State :=
  { s with rstate := .addrMsbHigh, lineLength := len, sum := s.sum + len, nyb := len.extractLsb' 4 4 }

/-- The state in which a LEN byte above LINE_MAX has been taken and the line is about to be delivered (40_decoder.md rule R84). -/
def overlongLenRead (len : Byte) (s : State) : State :=
  { s with rstate := .countLow, lineLength := len, sum := s.sum + len, nyb := len.extractLsb' 4 4 }

/-- The state after ADDR (40_decoder.md rules R85, R86). -/
def addrRead (addr : Half) (s : State) : State :=
  { s with
    rstate := .recordTypeHigh
    address := joinHalves (highHalf s.address) addr
    sum := s.sum + byteSum (halfBytes addr)
    nyb := (addr.extractLsb' 0 8).extractLsb' 4 4 }

/-- The state after a known TYPE (40_decoder.md rule R87). -/
def typeRead (rt : RecordType) (s : State) : State :=
  { s with rstate := .dataHigh, rtype := rt, sum := s.sum + rt.typeByte, nyb := rt.typeByte.extractLsb' 4 4 }

/-- The state in which the data bytes and the CHECKSUM byte, the last that LINE_LENGTH declares, have been taken (40_decoder.md
rule R88). -/
def dataRead (data : List Byte) (cks : Byte) (s : State) : State :=
  { s with
    rstate := .dataLow
    length := s.lineLength
    data := s.data.writeFrom s.length.toNat (data ++ [cks])
    sum := s.sum + byteSum (data ++ [cks])
    nyb := cks.extractLsb' 4 4 }

/-- The state in which a line's `:`, LEN, ADDR and TYPE have been taken. -/
def headerRead (len : Byte) (addr : Half) (rt : RecordType) (s : State) : State :=
  typeRead rt (addrRead addr (lenRead len (restartLine s)))

/-- The state in which a whole line has been taken and is about to be delivered. -/
def lineRead (rt : RecordType) (addr : Half) (data : List Byte) (cks : Byte) (s : State) : State :=
  dataRead data cks (headerRead (BitVec.ofNat 8 data.length) addr rt s)

theorem countLow_firstDigitRead (len : Byte) (s : State) :
    countLow (len.extractLsb' 0 4) (firstDigitRead len .countLow s) =
      if s.cfg.lineMax.toNat < len.toNat then complete true (overlongLenRead len s) else .next (lenRead len s) := by
  unfold countLow
  simp only [wireByte_firstDigitRead]
  rfl

section Len

variable {s : State} (h : ReadReady s) (hr : s.rstate = .countHigh) {len : Byte}
include h hr

theorem readText_len (hlen : len.toNat ≤ s.cfg.lineMax.toNat) (rest : List Byte) :
    readText (hex2 len ++ rest) s = readText rest (lenRead len s) := by
  rw [readText_hex2 h (low := .countLow) (by simp [hr, digitPairs])]
  exact congrArg (andThen · _) ((countLow_firstDigitRead len s).trans (if_neg (Nat.not_lt.2 hlen)))

theorem readText_overlongLen (hlen : s.cfg.lineMax.toNat < len.toNat) (rest : List Byte) :
    readText (hex2 len ++ rest) s = andThen (complete true (overlongLenRead len s)) (readText rest) := by
  rw [readText_hex2 h (low := .countLow) (by simp [hr, digitPairs])]
  exact congrArg (andThen · _) ((countLow_firstDigitRead len s).trans (if_pos hlen))

end Len

/-- The two bytes of ADDR, the high one first, write ADDRESS[15:0] and leave ADDRESS[31:16]. -/
theorem addrLsbLow_addrMsbLow (addr : Half) (s : State) :
    addrLsbLow ((addr.extractLsb' 0 8).extractLsb' 0 4) (firstDigitRead (addr.extractLsb' 0 8) .addrLsbLow
      (addrMsbLow ((addr.extractLsb' 8 8).extractLsb' 0 4) (firstDigitRead (addr.extractLsb' 8 8) .addrMsbLow s))) =
    addrRead addr s := by
  simp only [addrLsbLow, addrMsbLow, wireByte_firstDigitRead]
  simp [addrRead, firstDigitRead, highNybble, halfBytes, extract_joinHalves_high, BitVec.add_assoc]

theorem readText_addr {s : State} (h : ReadReady s) (hr : s.rstate = .addrMsbHigh) (addr : Half) (rest : List Byte) :
    readText ((halfBytes addr).flatMap hex2 ++ rest) s = readText rest (addrRead addr s) := by
  simp only [halfBytes, List.flatMap_cons, List.flatMap_nil, List.append_nil, List.append_assoc]
  rw [readText_hex2 h (low := .addrMsbLow) (by simp [hr, digitPairs]), ← addrLsbLow_addrMsbLow]
  exact readText_hex2 (s := addrMsbLow _ (firstDigitRead (addr.extractLsb' 8 8) .addrMsbLow s)) (low := .addrLsbLow) h
    (by simp [digitPairs]) _ rest

theorem typeLow_typeByte (rt : RecordType) (s : State) :
    typeLow (rt.typeByte.extractLsb' 0 4) (firstDigitRead rt.typeByte .recordTypeLow s) = typeRead rt s := by
  unfold typeLow
  simp only [wireByte_firstDigitRead, recordTypeOf_typeByte]
  rfl

theorem readText_type {s : State} (h : ReadReady s) (hr : s.rstate = .recordTypeHigh) (rt : RecordType)
    (rest : List Byte) : readText (hex2 rt.typeByte ++ rest) s = readText rest (typeRead rt s) := by
  rw [readText_hex2 h (low := .recordTypeLow) (by simp [hr, digitPairs]), ← typeLow_typeByte]
  rfl

/-- The state after a data byte that is not the last byte of the line (40_decoder.md rule R88). -/
def dataByteRead (b : Byte) (s : State) : State :=
  { s with
    rstate := .dataHigh
    length := s.length + 1
    data := s.data.write s.length.toNat b
    sum := s.sum + b
    nyb := b.extractLsb' 4 4 }

/-- The state in which the last byte of the line has been taken. -/
def lastByteRead (b : Byte) (s : State) : State :=
  { s with rstate := .dataLow, data := s.data.write s.length.toNat b, sum := s.sum + b, nyb := b.extractLsb' 4 4 }

theorem dataLow_firstDigitRead (b : Byte) (s : State) :
    dataLow (b.extractLsb' 0 4) (firstDigitRead b .dataLow s) =
      if s.length.toNat ≤ s.cfg.lineMax.toNat then
        if s.length.toNat < s.lineLength.toNat then .next (dataByteRead b s)
        else complete (sumErr (s.sum + b)) (lastByteRead b s)
      else .fault .dataIndex := by
  simp only [dataLow_eq, dataByteTaken, wireByte_firstDigitRead]
  rfl

theorem readText_dataDigits {s : State} (h : ReadReady s) (hr : s.rstate = .dataHigh) (b : Byte) (rest : List Byte) :
    readText (hex2 b ++ rest) s =
      andThen (dataLow (b.extractLsb' 0 4) (firstDigitRead b .dataLow s)) (readText rest) :=
  readText_hex2 h (low := .dataLow) (by simp [hr, digitPairs]) b rest

section Data

variable {s : State} (h : ReadReady s) (hr : s.rstate = .dataHigh) (hmax : s.lineLength.toNat ≤ s.cfg.lineMax.toNat)
include h hr hmax

theorem readText_dataByte (hlt : s.length.toNat < s.lineLength.toNat) (b : Byte) (rest : List Byte) :
    readText (hex2 b ++ rest) s = readText rest (dataByteRead b s) := by
  rw [readText_dataDigits h hr, dataLow_firstDigitRead, if_pos (by omega), if_pos hlt, andThen_next]

theorem readText_checksumByte (heq : s.length = s.lineLength) (cks : Byte) :
    readText (hex2 cks) s = complete (sumErr (s.sum + cks)) (dataRead [] cks s) := by
  have hlast : lastByteRead cks s = dataRead [] cks s := by simp [lastByteRead, dataRead, heq, Memory.writeFrom]
  rw [← List.append_nil (hex2 cks), readText_dataDigits h hr, dataLow_firstDigitRead, heq, if_pos hmax,
    if_neg (Nat.lt_irrefl _), andThen_readText_nil, hlast]

end Data

/-- The data bytes are stored one after another until LENGTH = LINE_LENGTH; the CHECKSUM byte completes the line. -/
theorem readText_data {data : List Byte} {s : State} (h : ReadReady s) (hr : s.rstate = .dataHigh)
    (hmax : s.lineLength.toNat ≤ s.cfg.lineMax.toNat) (hlen : s.length.toNat + data.length = s.lineLength.toNat) (cks : Byte) :
    readText ((data ++ [cks]).flatMap hex2) s =
      complete (sumErr (s.sum + byteSum (data ++ [cks]))) (dataRead data cks s) := by
  induction data generalizing s with
  | nil =>
    have heq : s.length = s.lineLength := BitVec.eq_of_toNat_eq (by simpa using hlen)
    simpa using readText_checksumByte h hr hmax heq cks
  | cons b data ih =>
    rw [List.length_cons] at hlen
    have hsucc : (s.length + 1).toNat = s.length.toNat + 1 := by bv_omega
    have htail : (dataByteRead b s).length.toNat + data.length = (dataByteRead b s).lineLength.toNat := by
      simp only [dataByteRead, hsucc]
      omega
    rw [List.cons_append, List.flatMap_cons, readText_dataByte h hr hmax (by omega),
      ih (s := dataByteRead b s) h rfl hmax htail]
    simp only [dataByteRead, dataRead, byteSum_cons, List.cons_append, Memory.writeFrom, BitVec.add_assoc, hsucc]

/-! ## A line delivered -/

/-- The tracker after an accepted line (40_decoder.md rule R91). -/
theorem update_eq (s : State) :
    update s =
      if s.rtype = .extendedLinearAddress ∧ 2 ≤ s.length.toNat then
        { s with address := joinHalves (extendedValue s) (lowHalf s.address) }
      else if s.rtype = .extendedSegmentAddress ∧ 2 ≤ s.length.toNat then { s with segment := extendedValue s }
      else s := by
  unfold update
  split <;> next hr => simp [hr]

theorem closeSinkEvent_openSinkEvent (e : Bool) (s : State) :
    closeSinkEvent (openSinkEvent e s) =
      { closeSinkEvent s with evtOpen := false, events := s.events ++ [.sink (sinkEventOf e s)] } := by
  simp only [closeSinkEvent, openSinkEvent_fields]
  split <;> rfl

theorem finishLine_eq_delivered (e : Bool) (s : State) :
    finishLine (sinkAccept s) (closeSinkEvent (openSinkEvent e s)) = delivered e s := by
  rw [closeSinkEvent_openSinkEvent, finishLine]
  cases ha : sinkAccept s
  · simp [delivered, ha, sinkEventOf, State.pending, State.linear]
  · simp only [if_true, update_eq, delivered, ha, sinkEventOf, State.pending, State.linear, closeSinkEvent_frame,
      extendedValue, true_and]
    split
    · next hl => simp [hl]
    · next hl =>
      split
      · next hs => simp [hs]
      · simp

/-- Complete(e) is CV6, if the sink device issues a command, or delivers the line. -/
theorem complete_eq (e : Bool) (s : State) :
    complete e s =
      if s.length.toNat ≤ s.cfg.lineMax.toNat + 1 then
        if sinkReenters s then .refused .reentrantCommand else .next (delivered e s)
      else .fault .dataIndex := by
  rw [complete, sinkReenters_openSinkEvent, sinkAccept_openSinkEvent, finishLine_eq_delivered]

theorem complete_eq_delivered {e : Bool} {s : State} (hlen : s.length.toNat ≤ s.cfg.lineMax.toNat + 1)
    (hquiet : sinkReenters s = false) : complete e s = .next (delivered e s) := by
  rw [complete_eq, if_pos hlen, if_neg (by simp [hquiet])]

/-! ## A line read -/

theorem flatMap_hex2_recordBytes (t : Byte) (addr : Half) (data : List Byte) (cks : Byte) :
    (recordBytes t addr data ++ [cks]).flatMap hex2 = hex2 (BitVec.ofNat 8 data.length) ++
      ((halfBytes addr).flatMap hex2 ++ (hex2 t ++ (data ++ [cks]).flatMap hex2)) := by
  simp [recordBytes]

theorem readText_header {s : State} (h : ReadReady s) {len : Byte} (hlen : len.toNat ≤ s.cfg.lineMax.toNat) (addr : Half)
    (rt : RecordType) (rest : List Byte) :
    readText (hex2 len ++ ((halfBytes addr).flatMap hex2 ++ (hex2 rt.typeByte ++ rest))) (restartLine s) =
      readText rest (headerRead len addr rt s) := by
  rw [readText_len (s := restartLine s) h rfl hlen, readText_addr (s := lenRead len (restartLine s)) h rfl,
    readText_type (s := addrRead addr (lenRead len (restartLine s))) h rfl]
  rfl

theorem lineRead_sum (rt : RecordType) (addr : Half) (data : List Byte) (cks : Byte) (s : State) :
    (lineRead rt addr data cks s).sum = byteSum (recordBytes rt.typeByte addr data) + cks := by
  simp [lineRead, dataRead, headerRead, typeRead, addrRead, lenRead, recordBytes, byteSum_append, BitVec.add_assoc]

/-- SUM is 0 after the CHECKSUM byte of rule R58 and after no other. -/
theorem sumErr_byteSum (t : Byte) (addr : Half) (data : List Byte) (cks : Byte) :
    sumErr (byteSum (recordBytes t addr data) + cks) = (cks != checksum t addr data) := by
  have hzero : byteSum (recordBytes t addr data) + cks = 0 ↔ cks = checksum t addr data := by
    unfold checksum
    generalize byteSum (recordBytes t addr data) = x
    constructor
    · intro h; bv_omega
    · rintro rfl; bv_omega
  rw [sumErr, Bool.eq_iff_iff, bne_iff_ne, bne_iff_ne]
  exact not_congr hzero

/-- A line of at most LINE_MAX data bytes is taken whole, and then delivered. -/
theorem readText_lineText {s : State} (h : ReadReady s) (hr : s.rstate = .waitForStart ∨ s.cfg.strictTruncation = false)
    (rt : RecordType) (addr : Half) {data : List Byte} (cks : Byte) (hlen : data.length ≤ s.cfg.lineMax.toNat) :
    readText (lineText rt.typeByte addr data cks) s =
      complete (cks != checksum rt.typeByte addr data) (lineRead rt addr data cks s) := by
  have hnat := toNat_lenByte (data := data) (by omega)
  have hmax : (BitVec.ofNat 8 data.length).toNat ≤ s.cfg.lineMax.toNat := by omega
  have hdata : 0 + data.length = (BitVec.ofNat 8 data.length).toNat := by omega
  rw [lineText, readText, execReadByte_start h hr, andThen_next, flatMap_hex2_recordBytes, readText_header h hmax,
    readText_data (s := headerRead (BitVec.ofNat 8 data.length) addr rt s) h rfl hmax hdata, ← sumErr_byteSum,
    ← lineRead_sum]
  rfl

theorem lineRead_data (rt : RecordType) (addr : Half) (data : List Byte) (cks : Byte) {s : State} (hwf : s.data.wf)
    (k : Nat) :
    (lineRead rt addr data cks s).data.read k =
      if k < data.length then data.getD k 0 else if k = data.length then cks else s.data.read k := by
  show (s.data.writeFrom 0 (data ++ [cks])).read k = _
  rw [Memory.read_writeFrom _ _ hwf, List.length_append, List.length_singleton, Nat.sub_zero]
  rcases Nat.lt_trichotomy k data.length with hk | rfl | hk
  · rw [if_pos (by omega), if_pos hk, List.getD_append _ _ _ _ hk]
  · simp
  · rw [if_neg (by omega), if_neg (by omega), if_neg (by omega)]

@[simp] theorem lineRead_fields (rt : RecordType) (addr : Half) (data : List Byte) (cks : Byte) (s : State) :
    (lineRead rt addr data cks s).mode = s.mode ∧
    (lineRead rt addr data cks s).address = joinHalves (highHalf s.address) addr ∧
    (lineRead rt addr data cks s).segment = s.segment ∧
    (lineRead rt addr data cks s).lineLength = BitVec.ofNat 8 data.length ∧
    (lineRead rt addr data cks s).length = BitVec.ofNat 8 data.length ∧
    (lineRead rt addr data cks s).rtype = rt ∧
    (lineRead rt addr data cks s).nyb = cks.extractLsb' 4 4 ∧
    (lineRead rt addr data cks s).elaHigh = s.elaHigh ∧
    (lineRead rt addr data cks s).segUsed = s.segUsed ∧
    (lineRead rt addr data cks s).elaUsed = s.elaUsed ∧
    (lineRead rt addr data cks s).lensetOk = s.lensetOk ∧
    (lineRead rt addr data cks s).scratch = s.scratch ∧
    (lineRead rt addr data cks s).cfg = s.cfg ∧
    (lineRead rt addr data cks s).input = s.input ∧
    (lineRead rt addr data cks s).sinkInputs = s.sinkInputs ∧
    (lineRead rt addr data cks s).sinkDraws = s.sinkDraws ∧
    (lineRead rt addr data cks s).flushInputs = s.flushInputs ∧
    (lineRead rt addr data cks s).events = s.events :=
  ⟨rfl, rfl, rfl, rfl, rfl, rfl, rfl, rfl, rfl, rfl, rfl, rfl, rfl, rfl, rfl, rfl, rfl, rfl⟩

theorem lineRead_readTo (rt : RecordType) (addr : Half) (data : List Byte) (cks : Byte) {s : State} (hwf : s.data.wf) :
    (lineRead rt addr data cks s).data.readTo data.length = data := by
  refine List.ext_getElem (Memory.length_readTo _ _) fun k _ hk => ?_
  simp [Memory.readTo, lineRead_data _ _ _ _ hwf, hk]

/-- The value of an extended-address record is that of its first two data bytes. -/
theorem extendedValue_lineRead (rt : RecordType) (addr : Half) {data : List Byte} (cks : Byte) {s : State} (hwf : s.data.wf)
    (h2 : 2 ≤ data.length) :
    joinBytes ((lineRead rt addr data cks s).data.read 0) ((lineRead rt addr data cks s).data.read 1) =
      joinBytes (data.getD 0 0) (data.getD 1 0) := by
  rw [lineRead_data _ _ _ _ hwf, lineRead_data _ _ _ _ hwf, if_pos (by omega), if_pos (by omega)]

@[simp] theorem sinkAccept_lineRead (rt : RecordType) (addr : Half) (data : List Byte) (cks : Byte) (s : State) :
    sinkAccept (lineRead rt addr data cks s) = sinkAccept s := rfl

theorem delivered_sink (e : Bool) (s : State) :
    (delivered e s).sinkInputs = (closeSinkEvent s).sinkInputs ∧ (delivered e s).sinkDraws = (closeSinkEvent s).sinkDraws :=
  ⟨rfl, rfl⟩

theorem closeSinkEvent_sink (s : State) :
    (closeSinkEvent s).sinkInputs = s.sinkInputs.tail ∧
    (closeSinkEvent s).sinkDraws = if s.sinkInputs = [] then s.sinkDraws + 1 else s.sinkDraws := by
  unfold closeSinkEvent
  split <;> next hs => simp [hs]

section Delivered

variable (rt : RecordType) (addr : Half) {data : List Byte} (cks : Byte) {s : State} (hwf : s.data.wf)
  (hlen : data.length ≤ 255) (e : Bool)
include hwf hlen

theorem delivered_lineRead_events :
    (delivered e (lineRead rt addr data cks s)).events = s.events ++ [.sink
      { rtype := rt, err := e, address := joinHalves (highHalf s.address) addr, segment := s.segment,
        linear := linearAddress (joinHalves (highHalf s.address) addr) s.segment,
        declared := BitVec.ofNat 8 data.length, length := BitVec.ofNat 8 data.length, data := data }] := by
  simp only [delivered, lineRead_fields, toNat_lenByte hlen, lineRead_readTo _ _ _ _ hwf]

theorem delivered_lineRead_address :
    (delivered e (lineRead rt addr data cks s)).address =
      if sinkAccept s = true ∧ rt = .extendedLinearAddress ∧ 2 ≤ data.length
      then joinHalves (joinBytes (data.getD 0 0) (data.getD 1 0)) addr else joinHalves (highHalf s.address) addr := by
  simp only [delivered, lineRead_fields, sinkAccept_lineRead, toNat_lenByte hlen, lowHalf_joinHalves]
  refine if_ctx_congr Iff.rfl (fun hc => ?_) fun _ => rfl
  rw [extendedValue_lineRead rt addr cks hwf hc.2.2]

theorem delivered_lineRead_segment :
    (delivered e (lineRead rt addr data cks s)).segment =
      if sinkAccept s = true ∧ rt = .extendedSegmentAddress ∧ 2 ≤ data.length
      then joinBytes (data.getD 0 0) (data.getD 1 0) else s.segment := by
  simp only [delivered, lineRead_fields, sinkAccept_lineRead, toNat_lenByte hlen]
  exact if_ctx_congr Iff.rfl (fun hc => extendedValue_lineRead rt addr cks hwf hc.2.2) fun _ => rfl

end Delivered

/-- The record's row leaves what delivering its line leaves. -/
theorem exec_recordInstr_eq_delivered {s : State} (h : ReadReady s)
    (hr : s.rstate = .waitForStart ∨ s.cfg.strictTruncation = false) (hquiet : sinkReenters s = false)
    (rt : RecordType) (addr : Half) {data : List Byte} (cks : Byte) (hlen : data.length ≤ s.cfg.lineMax.toNat) :
    exec (recordInstr rt addr data cks) s =
      .next (delivered (cks != checksum rt.typeByte addr data) (lineRead rt addr data cks s)) := by
  have hfits : (lineRead rt addr data cks s).length.toNat ≤ (lineRead rt addr data cks s).cfg.lineMax.toNat + 1 := by
    simp only [lineRead_fields, toNat_lenByte (data := data) (by omega)]
    omega
  rw [exec_recordInstr, readText_lineText h hr rt addr cks hlen, complete_eq_delivered hfits hquiet]

/-- Settles O33: the parse machine takes LEN, ADDR, TYPE, each data byte and CHECKSUM into the state `lineRead`, with SUM the sum
of the line's bytes; Complete then delivers it. -/
theorem recordLineDelivered : Obligations.RecordLineDelivered := by
  intro rt addr data cks s hi hm hr hquiet hlen
  have hbyte : data.length ≤ 255 := by omega
  refine ⟨_, exec_recordInstr_eq_delivered ⟨hi.eventClosed, hm⟩ hr hquiet rt addr cks hlen,
    delivered_lineRead_events rt addr cks hi.dataWf hbyte _, delivered_lineRead_address rt addr cks hi.dataWf hbyte _,
    delivered_lineRead_segment rt addr cks hi.dataWf hbyte _, ?_⟩
  simp only [delivered_fields, lineRead_fields, lineRead_sum, lineRead_data _ _ _ _ hi.dataWf, delivered_sink,
    closeSinkEvent_sink, implies_true, and_true]

/-- Settles O54: the rendered line is the record's text with its CHECKSUM, so that err is 0, and NEWLINE, which finds no line in
progress. -/
theorem renderedLineReadsBack : Obligations.RenderedLineReadsBack := by
  intro c rt addr data s hi hm hr hquiet hlen
  have hline := exec_recordInstr_eq_delivered ⟨hi.eventClosed, hm⟩ hr hquiet rt addr (checksum rt.typeByte addr data) hlen
  rw [exec_recordInstr, bne_self_eq_false] at hline
  have hready : ReadReady (delivered false (lineRead rt addr data (checksum rt.typeByte addr data) s)) := by
    simp [ReadReady, hm]
  have hnewline := readText_of_waiting hready (by simp) (text := newlineBytes c) fun b hb => by
    simp [charClass_of_mem_newline hb]
  refine ⟨_, ?_, by simp, delivered_lineRead_events rt addr (checksum rt.typeByte addr data) hi.dataWf (by omega) false⟩
  rw [renderedLine, readText_append, hline, andThen_next, hnewline]

/-- The sum over a line's bytes, LEN and TYPE apart. -/
theorem byteSum_recordBytes (t : Byte) (addr : Half) (data : List Byte) (cks : Byte) :
    byteSum (recordBytes t addr data ++ [cks]) =
      BitVec.ofNat 8 data.length + t + byteSum (halfBytes addr ++ data ++ [cks]) := by
  simp only [recordBytes, List.cons_append, byteSum_cons, byteSum_append]
  ac_rfl

/-- One byte that differs spoils a correct line's CHECKSUM (90_conflicts.md C9). -/
theorem checksum_ne_of_differ_once {t : Byte} {addr addr' : Half} {data data' : List Byte} {cks' : Byte} {k : Nat}
    (hlen : data'.length = data.length)
    (hk : (halfBytes addr ++ data ++ [checksum t addr data])[k]? ≠ (halfBytes addr' ++ data' ++ [cks'])[k]?)
    (hrest : ∀ j, j ≠ k →
      (halfBytes addr ++ data ++ [checksum t addr data])[j]? = (halfBytes addr' ++ data' ++ [cks'])[j]?) :
    cks' ≠ checksum t addr' data' := by
  rintro rfl
  have hsum := (byteSum_with_checksum t addr data).trans (byteSum_with_checksum t addr' data').symm
  rw [byteSum_recordBytes, byteSum_recordBytes, hlen, BitVec.add_right_inj] at hsum
  exact byteSum_ne_of_differ_once (by simp [halfBytes, hlen]) hk hrest hsum

/-- Settles O36: both lines have the same LEN and TYPE, so the other line's sum, with one other byte, is not 0. -/
theorem singleByteErrorReported : Obligations.SingleByteErrorReported := by
  intro rt addr addr' data data' cks cks' k s hi hm hr hquiet hmax hcks hlen hk hrest
  subst hcks
  have herr : (cks' != checksum rt.typeByte addr' data') = true := bne_iff_ne.2 (checksum_ne_of_differ_once hlen hk hrest)
  exact ⟨_, _, exec_recordInstr_eq_delivered ⟨hi.eventClosed, hm⟩ hr hquiet rt addr' cks' hmax,
    delivered_lineRead_events rt addr' cks' hi.dataWf (by omega) _, herr, rfl, rfl⟩

/-! ## A line reported before its end -/

theorem delivered_overlongLenRead (len : Byte) (s : State) :
    delivered true (overlongLenRead len (restartLine s)) = { closeSinkEvent s with
      evtOpen := false
      events := s.events ++ [.sink
        { rtype := .data, err := true, address := s.address, segment := s.segment,
          linear := linearAddress s.address s.segment, declared := len, length := 0, data := [] }]
      rstate := .waitForStart
      lineLength := len
      length := 0
      rtype := .data
      sum := len
      nyb := len.extractLsb' 4 4 } := by
  simp only [delivered, overlongLenRead]
  simp [closeSinkEvent_sink, Memory.readTo]

/-- Settles O34: the line is delivered at its LEN byte, with no data and RTYPE still 0, and the digits that follow find no line
in progress. -/
theorem overlongRecordLine : Obligations.OverlongRecordLine := by
  intro rt addr data cks s hi hm hr hquiet hmax hbyte
  have hready : ReadReady s := ⟨hi.eventClosed, hm⟩
  have hlen : s.cfg.lineMax.toNat < (BitVec.ofNat 8 data.length).toNat := by
    rwa [toNat_lenByte hbyte]
  have htext : (recordBytes rt.typeByte addr data ++ [cks]).flatMap hex2 = hex2 (BitVec.ofNat 8 data.length) ++
      (halfBytes addr ++ rt.typeByte :: data ++ [cks]).flatMap hex2 := rfl
  have hready' : ReadReady (delivered true (overlongLenRead (BitVec.ofNat 8 data.length) (restartLine s))) :=
    ⟨rfl, (delivered_fields _ _).1.trans hm⟩
  have hrest := readText_of_waiting hready' rfl (text := (halfBytes addr ++ rt.typeByte :: data ++ [cks]).flatMap hex2)
    fun c hc => by simp [charClass_of_mem_digits hc]
  rw [exec_recordInstr, lineText, readText, execReadByte_start hready hr, andThen_next, htext,
    readText_overlongLen (s := restartLine s) hready rfl hlen,
    complete_eq_delivered (s := overlongLenRead _ (restartLine s)) (Nat.zero_le _) hquiet, andThen_next, hrest,
    delivered_overlongLenRead]

theorem execReadByte_start_strict {s : State} (h : ReadReady s) (hr : s.rstate ≠ .waitForStart)
    (hstrict : s.cfg.strictTruncation = true) (hlen : s.length.toNat ≤ s.cfg.lineMax.toNat + 1)
    (hquiet : sinkReenters s = false) : execReadByte 0x3A s = .next (restartLine (delivered true s)) := by
  have htruncates : (s.cfg.strictTruncation && s.rstate != .waitForStart) = true := by simp [hstrict, hr]
  have hstart : execReadByte 0x3A s = onStart s := execReadByte_of_ready h 0x3A
  rw [hstart, onStart, if_pos htruncates, complete_eq_delivered hlen hquiet, andThen_next]

/-- Settles O35: the line's `:` starts a fresh line in the delivered state, as it does there when no line is in progress. -/
theorem strictRecordLineReportsTruncation : Obligations.StrictRecordLineReportsTruncation := by
  intro rt addr data cks s hi hm hr hstrict hquiet
  have hstart := execReadByte_start_strict ⟨hi.eventClosed, hm⟩ hr hstrict (Nat.le_succ_of_le (hi.readLength hm).2) hquiet
  have hready : ReadReady (delivered true s) := ⟨rfl, (delivered_fields _ _).1.trans hm⟩
  refine ⟨rfl, ?_⟩
  rw [exec_recordInstr, lineText, readText, readText, hstart, execReadByte_start hready (.inl rfl)]

/-! ## READ_LINE

### No READ_BYTE reads the commands issued after it -/

/-- The state with other commands issued and not yet taken. -/
def withInput (input : List HostInput) (s : State) : State := { s with input := input }

/-- The same result, but for the commands issued and not yet taken. -/
def SameButInput (input : List HostInput) (r r' : Result) : Prop := r' = andThen r fun t => .next (withInput input t)

section Input

variable {input : List HostInput}

theorem sameButInput_next (s : State) : SameButInput input (.next s) (.next (withInput input s)) := rfl

theorem sameButInput_andThen {r r' : Result} {k : State → Result} (h : SameButInput input r r')
    (hk : ∀ t, SameButInput input (k t) (k (withInput input t))) : SameButInput input (andThen r k) (andThen r' k) := by
  rw [SameButInput, h, andThen_assoc, andThen_assoc]
  exact congrArg (andThen r) (funext hk)

theorem sameButInput_ite {c : Prop} [Decidable c] {r r' q q' : Result} (hr : SameButInput input r r')
    (hq : SameButInput input q q') : SameButInput input (if c then r else q) (if c then r' else q') := by
  split
  · exact hr
  · exact hq

variable (s : State)

theorem closeSinkEvent_withInput : closeSinkEvent (withInput input s) = withInput input (closeSinkEvent s) := by
  have hinputs : (withInput input s).sinkInputs = s.sinkInputs := rfl
  rcases hs : s.sinkInputs with _ | ⟨x, rest⟩ <;> simp only [closeSinkEvent, hinputs, hs] <;> rfl

theorem sameButInput_complete (e : Bool) : SameButInput input (complete e s) (complete e (withInput input s)) := by
  have hdelivered : delivered e (withInput input s) = withInput input (delivered e s) := by
    rw [delivered, closeSinkEvent_withInput]
    rfl
  rw [complete_eq, complete_eq, hdelivered]
  exact sameButInput_ite (sameButInput_ite rfl rfl) rfl

theorem sameButInput_onStart : SameButInput input (onStart s) (onStart (withInput input s)) :=
  sameButInput_ite (sameButInput_andThen (sameButInput_complete s true) fun t => sameButInput_next (restartLine t))
    (sameButInput_next (restartLine s))

theorem sameButInput_onTerm : SameButInput input (onTerm s) (onTerm (withInput input s)) :=
  sameButInput_ite (sameButInput_next s) (sameButInput_complete s true)

theorem sameButInput_countLow (v : Nybble) : SameButInput input (countLow v s) (countLow v (withInput input s)) :=
  sameButInput_ite (sameButInput_complete (countByteTaken v s) true)
    (sameButInput_next { countByteTaken v s with rstate := .addrMsbHigh })

theorem sameButInput_dataLow (v : Nybble) : SameButInput input (dataLow v s) (dataLow v (withInput input s)) := by
  rw [dataLow_eq, dataLow_eq]
  exact sameButInput_ite
    (sameButInput_ite (sameButInput_next { dataByteTaken v s with length := s.length + 1, rstate := .dataHigh })
      (sameButInput_complete (dataByteTaken v s) _)) rfl

theorem typeLow_withInput (v : Nybble) : typeLow v (withInput input s) = withInput input (typeLow v s) := by
  have hbyte : wireByte v (withInput input s) = wireByte v s := rfl
  rcases ht : recordTypeOf (wireByte v s) with _ | ty <;> simp only [typeLow, hbyte, ht] <;> rfl

theorem sameButInput_onHex (v : Nybble) : SameButInput input (onHex v s) (onHex v (withInput input s)) := by
  have hrstate : (withInput input s).rstate = s.rstate := rfl
  unfold onHex
  rw [hrstate]
  split
  case h_3 => exact sameButInput_countLow s v
  case h_9 => rw [typeLow_withInput]; exact sameButInput_next _
  case h_11 => exact sameButInput_dataLow s v
  all_goals rfl

theorem sameButInput_execReadByte (c : Byte) :
    SameButInput input (execReadByte c s) (execReadByte c (withInput input s)) := by
  have hcheck : readCheck (withInput input s) = readCheck s := rfl
  unfold execReadByte readChar
  rw [hcheck]
  cases readCheck s with
  | some q => rfl
  | none =>
    rw [guarded_none, guarded_none]
    split
    · exact sameButInput_onStart s
    · exact sameButInput_onTerm s
    · exact sameButInput_onHex s _
    · exact sameButInput_next s

end Input

/-! ### One step for each character -/

/-- A READ_LINE text is read byte by byte: where it spells a record, as that record's row. -/
theorem step_line {text : List Byte} {rest : List HostInput} {s : State} (h : s.input = .line text :: rest) :
    step s = readText text { s with input := rest } := by
  rcases hd : decodeLine text with e | i
  · rw [step, Scope.fetch_line h, fetchLine, hd]
  · obtain ⟨rt, addr, data, cks, -, rfl, rfl⟩ := decodeLine_inv hd
    rw [Scope.step_of_fetch_run ((Scope.fetch_line h).trans (Scope.fetchLine_of_decode _ (decode_line_eq_ok.2 hd))),
      exec_recordInstr]

theorem step_readByte {c : Byte} {rest : List HostInput} {s : State} (h : s.input = encode (.readByte c) :: rest) :
    step s = execReadByte c { s with input := rest } := by
  by_cases hopen : s.evtOpen = true
  · simp [step, Scope.fetch_word h, fetchWord, execReadByte, readCheck, hopen]
  · exact Scope.step_of_fetch_run ((Scope.fetch_word h).trans
      (Scope.fetchWord_of_decode (Bool.eq_false_iff.2 hopen) (decodeOfEncode (.readByte c) rfl)))

theorem input_execReadByte {c : Byte} {s t : State} (h : execReadByte c s = .next t) : t.input = s.input := by
  have hframe := exec_readFrame (i := .readByte c) rfl h
  simp only [readFrame, Prod.mk.injEq] at hframe
  obtain ⟨-, -, -, -, -, -, -, -, hinput, -⟩ := hframe
  exact hinput

theorem run_succ (k : Nat) (s : State) :
    Host.Core.run Sys2Proof.core (k + 1) s = andThen (step s) (Host.Core.run Sys2Proof.core k) := by
  have hstep : Sys2Proof.core.step s = step s := rfl
  refine (Host.Core.run.eq_2 Sys2Proof.core s k).trans ?_
  rw [hstep]
  cases step s <;> rfl

theorem run_readBytes (text : List Byte) {rest : List HostInput} {s : State} (h : s.input = readBytes text ++ rest) :
    Host.Core.run Sys2Proof.core text.length s = readText text { s with input := rest } := by
  induction text generalizing s with
  | nil =>
    have hrest : s.input = rest := h
    rw [← hrest]
    rfl
  | cons c text ih =>
    have hmoved := sameButInput_execReadByte (input := rest) { s with input := readBytes text ++ rest } c
    change execReadByte c { s with input := rest } = _ at hmoved
    rw [List.length_cons, run_succ, step_readByte (rest := readBytes text ++ rest) h, readText, hmoved]
    cases hu : execReadByte c { s with input := readBytes text ++ rest } with
    | next u => exact ih (input_execReadByte hu)
    | fault f => rfl
    | refused q => rfl

/-- Settles O3: a text that decodes is a record's line, whose row reads it, and any other is read as it is; the words of
READ_BYTES are taken one by one, and what a READ_BYTE does is independent of the words still on the port. -/
theorem readLineIsItsReadBytes : Obligations.ReadLineIsItsReadBytes := fun _ _ text =>
  ⟨step_line, run_readBytes text⟩

/-! ## The END_OF_FILE line -/

/-- Settles O44: the flush is refused or leaves `pendingFlushed`, where the END_OF_FILE record, of no data, always renders. -/
theorem endWriteEmitsEndOfFile : Obligations.EndWriteEmitsEndOfFile := by
  refine ⟨fun s hi hm hdutiful => ?_, by decide⟩
  have hflush : FlushReady s := ⟨hi.scratchWf, hdutiful⟩
  have hready : WriteReady s := ⟨hi.eventClosed, hm⟩
  have hlen := length_le_of_writeCheck hi (writeCheck_eq_none.2 hready)
  have hexec : exec .endWrite s = andThen (flushPending s) fun u =>
      andThen (render 0x01 0x0000 [] u) fun v => .next { v with mode := .ended, lensetOk := false } := by
    show execEndWrite s = _
    rw [execEndWrite, writeCheck_eq_none.2 hready, guarded_none]
  refine ⟨fun hmix => ?_, fun hne hmix => ?_⟩
  · rw [hexec, flushPending_eq_pendingFlushed hflush hlen hmix, andThen_next,
      render_eq_emitted (flushReady_pendingFlushed hflush) _ _ (Nat.zero_le _), andThen_next]
  · rw [hexec, flushPending_of_mixes hlen hne hmix, andThen_refused]

end Sys2Proof.Proofs.Encoding
end

section
/-! The family of 40_decoder.md: the commands that start a read stream, the handlers of READ_BYTE, each from a state it runs in, and
Complete. -/

namespace Sys2Proof.Proofs.Decoder

open Sys2Proof Sys2Proof.Machine Sys2Proof.Proofs.CodecState Sys2Proof.Proofs.Encoding

/-! ## Complete -/

/-- Settles O30: Complete of at most LINE_MAX + 1 bytes, with a sink that answers, delivers the line. -/
theorem completeDeliversLine : Obligations.CompleteDeliversLine := fun _ _ _ hlen hquiet =>
  complete_eq_delivered hlen hquiet

/-- 10_state.md rule R38: in READ mode every byte below LENGTH has its place in DATA, so Complete can deliver them. -/
theorem length_le_of_inv {s : State} (hi : Inv s) (hm : s.mode = .read) : s.length.toNat ≤ s.cfg.lineMax.toNat + 1 :=
  Nat.le_succ_of_le (hi.readLength hm).2

/-! ## BEGIN_READ -/

/-- Settles O19: past CV6 each of the three commands writes `beginReadState`, and its operand over the zero there. -/
theorem beginReadStartsStream : Obligations.BeginReadStartsStream := by
  intro s a sg hclosed
  have hrun (t : State) : guarded (beginCheck s) (.next t) = .next t := by
    rw [beginCheck_eq_none.2 hclosed, guarded_none]
  exact ⟨hrun _, hrun _, hrun _⟩

/-! ## READ_BYTE by the class of its byte -/

theorem readReady_of_inv {s : State} (hi : Inv s) (hm : s.mode = .read) : ReadReady s := ⟨hi.eventClosed, hm⟩

section Class

variable {s : State} (h : ReadReady s) {c : Byte}
include h

theorem exec_readByte (c : Byte) : exec (.readByte c) s = readChar c s := execReadByte_of_ready h c

theorem exec_readByte_term (hc : charClass c = .term) : exec (.readByte c) s = onTerm s := by
  rw [exec_readByte h, readChar, hc]

theorem exec_readByte_other (hc : charClass c = .other) : exec (.readByte c) s = .next s := by
  rw [exec_readByte h, readChar, hc, onOther]

theorem exec_readByte_hex (hc : charClass c = .hex) : exec (.readByte c) s = onHex (hexval c) s := by
  rw [exec_readByte h, readChar, hc]

end Class

/-! ### Bytes that change nothing -/

/-- Settles O22: an OTHER byte has no handler's effect, and while no line is in progress only `:` has one. -/
theorem ignoredBytesChangeNothing : Obligations.IgnoredBytesChangeNothing := by
  rintro s c h (hc | ⟨hr, hc⟩)
  · exact exec_readByte_other h hc
  · exact execReadByte_of_waiting h hr (by rcases hc with hc | hc <;> simp [hc])

/-! ### `:` -/

/-- Settles O23: a line in progress is delivered first exactly if STRICT_TRUNCATION is set. -/
theorem startRestartsLine : Obligations.StartRestartsLine := by
  intro s hi hm
  have h := readReady_of_inv hi hm
  exact ⟨fun hr => execReadByte_start h hr.symm, fun hstrict hr hquiet =>
    execReadByte_start_strict h hr hstrict (length_le_of_inv hi hm) hquiet⟩

/-! ### Terminators and END_READ -/

theorem charClass_terminator {c : Byte} (hc : c = 0x0A ∨ c = 0x0D ∨ c = 0x00) : charClass c = .term := by
  rcases hc with rfl | rfl | rfl <;> rfl

/-- END_READ ends a line in progress as a terminator does (40_decoder.md rule R92). -/
theorem exec_endRead {s : State} (h : ReadReady s) : exec .endRead s = onTerm s := exec_readByte_term (c := 0x0A) h rfl

theorem onTerm_waiting {s : State} (hr : s.rstate = .waitForStart) : onTerm s = .next s := if_pos hr

theorem onTerm_inProgress {s : State} (hr : s.rstate ≠ .waitForStart) : onTerm s = complete true s := if_neg hr

/-- Settles O24: both are OnTerm, which completes a line in progress. -/
theorem terminatorAndEndReadCompleteEarly : Obligations.TerminatorAndEndReadCompleteEarly := by
  intro s c hi hm hc
  have h := readReady_of_inv hi hm
  rw [exec_readByte_term h (charClass_terminator hc), exec_endRead h]
  refine ⟨fun hr => ?_, fun hr hquiet => ?_⟩
  · exact ⟨onTerm_waiting hr, onTerm_waiting hr⟩
  · rw [onTerm_inProgress hr, complete_eq_delivered (length_le_of_inv hi hm) hquiet]
    exact ⟨rfl, rfl⟩

/-! ### The first digit of a byte -/

/-- Settles O25: each of the five states is the first of a pair of `digitPairs`. -/
theorem highDigitWaitsInNyb : Obligations.HighDigitWaitsInNyb := by
  intro s c h hc
  have hwaits (high low : ParseState) (hp : (high, low) ∈ digitPairs) (hr : s.rstate = high) :
      exec (.readByte c) s = .next (highNybble (hexval c) low s) := by
    rw [exec_readByte_hex h hc, onHex_highDigit (hr ▸ hp)]
  exact ⟨hwaits _ _ (by decide), hwaits _ _ (by decide), hwaits _ _ (by decide), hwaits _ _ (by decide),
    hwaits _ _ (by decide)⟩

/-! ### LEN -/

theorem countLow_eq (v : Nybble) (s : State) :
    countLow v s =
      if s.cfg.lineMax.toNat < (wireByte v s).toNat then complete true (countByteTaken v s)
      else .next { countByteTaken v s with rstate := .addrMsbHigh } := rfl

/-- A line delivered at its LEN byte: RTYPE and LENGTH are still 0, so the event carries no data and the tracker keeps its registers. -/
theorem delivered_countByteTaken (v : Nybble) {s : State} (hlen : s.length = 0) (htype : s.rtype = .data) :
    delivered true (countByteTaken v s) = { closeSinkEvent s with
      sum := s.sum + wireByte v s
      lineLength := wireByte v s
      evtOpen := false
      events := s.events ++ [.sink
        { rtype := .data, err := true, address := s.address, segment := s.segment,
          linear := linearAddress s.address s.segment, declared := wireByte v s, length := 0, data := [] }]
      rstate := .waitForStart } := by
  simp only [delivered, countByteTaken, hlen, htype]
  simp [closeSinkEvent_sink, Memory.readTo, hlen, htype]

/-- Settles O26: before its TYPE byte a line has LENGTH and RTYPE 0 (10_state.md rules R23, R26), and so has the event of an overflow. -/
theorem countByteDeclaresLength : Obligations.CountByteDeclaresLength := by
  rintro s c _ hi hm hr hc rfl
  have hexec : exec (.readByte c) s = countLow (hexval c) s := by
    rw [exec_readByte_hex (readReady_of_inv hi hm) hc, onHex, hr]
  obtain ⟨hlen, htype, -⟩ := parseOk_header (parseOk_of_inv hi hm) (by simp [hr])
  rw [hexec, countLow_eq]
  refine ⟨fun hle => if_neg (Nat.not_lt.2 hle), fun hlt hquiet => ?_⟩
  have hfits := length_le_of_inv hi hm
  refine (if_pos hlt).trans ?_
  rw [complete_eq_delivered (s := countByteTaken (hexval c) s) hfits hquiet,
    delivered_countByteTaken (hexval c) hlen htype]
  rfl

/-! ### ADDR -/

theorem toNat_append {n m : Nat} (x : BitVec n) (y : BitVec m) : (x ++ y).toNat = x.toNat * 2 ^ m + y.toNat := by
  rw [BitVec.toNat_append, ← Nat.shiftLeft_add_eq_or_of_lt y.isLt, Nat.shiftLeft_eq]

/-- ADDRESS with other low bytes, as a number. -/
theorem toNat_joinHalves_joinBytes (a : Addr) (hi lo : Byte) :
    (joinHalves (highHalf a) (joinBytes hi lo)).toNat = a.toNat / 2 ^ 16 * 2 ^ 16 + (hi.toNat * 256 + lo.toNat) := by
  rw [joinHalves, toNat_append, toNat_highHalf, joinBytes, toNat_append]
  rfl

/-- ADDRESS[15:8]. -/
theorem toNat_extract_byte1 (a : Addr) : (a.extractLsb' 8 8).toNat = a.toNat / 256 % 256 := by
  rw [BitVec.extractLsb'_toNat, Nat.shiftRight_eq_div_pow]

/-- Settles O27: each byte is joined to the parts of ADDRESS that its rule keeps; the second keeps bits 31 to 8. -/
theorem addressBytesTracked : Obligations.AddressBytesTracked := by
  rintro s c _ h hc rfl
  rw [exec_readByte_hex h hc, onHex]
  constructor
  · intro hr
    rw [hr]
    refine ⟨_, rfl, ?_⟩
    simp [toNat_joinHalves_joinBytes, wireByte]
  · intro hr
    rw [hr]
    refine ⟨_, rfl, ?_⟩
    rw [toNat_joinHalves_joinBytes, toNat_extract_byte1, wireByte]
    omega

/-! ### TYPE -/

/-- Settles O28: the bytes above 5 are the ones that name no type. -/
theorem typeByteSetsOrDrops : Obligations.TypeByteSetsOrDrops := by
  rintro s c _ h hr hc rfl
  have hexec : exec (.readByte c) s = .next (typeLow (hexval c) s) := by rw [exec_readByte_hex h hc, onHex, hr]
  have hunknown : recordTypeOf (wireByte (hexval c) s) = none ↔ 5 < (joinNybbles s.nyb (hexval c)).toNat :=
    recordTypeOf_eq_none _
  rw [hexec]
  rcases typeLow_cases (hexval c) s with ⟨hnone, ht⟩ | ⟨ty, hty, ht⟩ <;> rw [ht]
  · exact ⟨fun _ => rfl, fun hle => absurd (hunknown.1 hnone) (Nat.not_lt.2 hle)⟩
  · exact ⟨fun hlt => by simp [hunknown.2 hlt] at hty, fun _ => ⟨ty, typeByte_of_recordTypeOf hty, rfl⟩⟩

/-! ### DATA and CHECKSUM -/

/-- Settles O29: LENGTH is at most LINE_MAX in READ mode, so the byte has its place in DATA; what follows is decided by LENGTH and
LINE_LENGTH. -/
theorem dataByteStoredOrLineChecked : Obligations.DataByteStoredOrLineChecked := by
  rintro s c _ hi hm hr hc rfl
  obtain ⟨hle, hmax⟩ := hi.readLength hm
  have hexec : exec (.readByte c) s = dataLow (hexval c) s := by
    rw [exec_readByte_hex (readReady_of_inv hi hm) hc, onHex, hr]
  rw [hexec, dataLow_eq, if_pos hmax]
  refine ⟨Memory.read_write_same _ hi.dataWf _ _, fun hlt => if_pos hlt, fun heq hquiet => ?_, hle⟩
  have hlast : ¬s.length.toNat < s.lineLength.toNat := by simp [heq]
  have hfits := length_le_of_inv hi hm
  rw [if_neg hlast]
  exact complete_eq_delivered (s := dataByteTaken (hexval c) s) hfits hquiet

/-! ### Every byte -/

/-- The command has a next state. -/
def Answers (r : Result) : Prop := ∃ t, r = .next t

theorem answers_next (s : State) : Answers (.next s) := ⟨s, rfl⟩

theorem answers_ite {c : Prop} [Decidable c] {r q : Result} (hr : Answers r) (hq : Answers q) :
    Answers (if c then r else q) := by
  split
  · exact hr
  · exact hq

section Total

variable {s : State} (hlen : s.length.toNat ≤ s.cfg.lineMax.toNat) (hquiet : sinkReenters s = false)
include hlen hquiet

theorem answers_complete (e : Bool) : Answers (complete e s) :=
  ⟨_, complete_eq_delivered (Nat.le_succ_of_le hlen) hquiet⟩

theorem answers_onStart : Answers (onStart s) := by
  obtain ⟨t, ht⟩ := answers_complete hlen hquiet true
  rw [onStart, ht]
  exact answers_ite (answers_next _) (answers_next _)

theorem answers_onTerm : Answers (onTerm s) := answers_ite (answers_next s) (answers_complete hlen hquiet true)

theorem answers_countLow (v : Nybble) : Answers (countLow v s) :=
  answers_ite (answers_complete (s := countByteTaken v s) hlen hquiet true) (answers_next _)

theorem answers_dataLow (v : Nybble) : Answers (dataLow v s) := by
  rw [dataLow_eq, if_pos hlen]
  exact answers_ite (answers_next _) (answers_complete (s := dataByteTaken v s) hlen hquiet _)

theorem answers_onHex (v : Nybble) : Answers (onHex v s) := by
  unfold onHex
  split
  case h_3 => exact answers_countLow hlen hquiet v
  case h_11 => exact answers_dataLow hlen hquiet v
  all_goals exact answers_next _

theorem answers_readChar (c : Byte) : Answers (readChar c s) := by
  unfold readChar
  split
  · exact answers_onStart hlen hquiet
  · exact answers_onTerm hlen hquiet
  · exact answers_onHex hlen hquiet _
  · exact answers_next s

end Total

/-- Settles O31: no handler refuses or faults where the sink answers and DATA has the index LENGTH. -/
theorem readByteTotal : Obligations.ReadByteTotal := by
  intro s c hi hm hquiet
  rw [exec_readByte (readReady_of_inv hi hm)]
  exact answers_readChar (hi.readLength hm).2 hquiet c

end Sys2Proof.Proofs.Decoder
end

section
/-! The family of 41_encoder.md: BEGIN_WRITE, Render, FlushLine, the write-mode commands and the records that they emit, and the round
trip of a whole write stream through a decoder. -/

namespace Sys2Proof.Proofs.Encoder

open Sys2Proof Sys2Proof.Machine Sys2Proof.Proofs.CodecState Sys2Proof.Proofs.MemoryModel Sys2Proof.Proofs.Encoding

/-! ## Line lengths -/

theorem defaultLineLength_eq (c : Config) : defaultLineLength c = BitVec.ofNat 8 (min 32 c.lineMax.toNat) := by
  rw [← Scope.toNat_defaultLineLength, BitVec.ofNat_toNat, BitVec.setWidth_eq]

theorem clampLineLength_eq (c : Config) (n : Byte) :
    clampLineLength c n = BitVec.ofNat 8 (min n.toNat c.lineMax.toNat) := by
  unfold clampLineLength
  split
  · next hle => rw [Nat.min_eq_left hle, BitVec.ofNat_toNat, BitVec.setWidth_eq]
  · next hgt => rw [Nat.min_eq_right (by omega), BitVec.ofNat_toNat, BitVec.setWidth_eq]

/-- Settles O20: BEGIN_WRITE, whose only check is CV6, writes min(32, LINE_MAX) as LINE_LENGTH. -/
theorem beginWriteStartsStream : Obligations.BeginWriteStartsStream := by
  intro s hclosed
  show execBeginWrite s = _
  rw [execBeginWrite, beginCheck_eq_none.2 hclosed, guarded_none, beginWriteState, defaultLineLength_eq]

/-- Settles O43: the two branches of the command are the two of the statement. -/
theorem setOutputLineLengthClamps : Obligations.SetOutputLineLengthClamps := by
  intro s n hready hok
  show execSetOutputLineLength n s = _
  rw [execSetOutputLineLength, writeCheck_eq_none.2 hready, guarded_none, if_pos hok, defaultLineLength_eq,
    clampLineLength_eq, apply_ite (BitVec.ofNat 8)]

/-! ## Render -/

theorem render_eq_emitted_of_quiet {s : State} (hwf : s.scratch.wf) (hquiet : flushReenters s = false) (ty : Byte)
    (a16 : Half) {bytes : List Byte} (hlen : bytes.length ≤ renderMax s.cfg) :
    render ty a16 bytes s = .next (emitted ty a16 bytes s) := by
  rw [render, if_pos hlen, flushReenters_openFlushEvent, if_neg (by simp [hquiet]), closeFlushEvent_openFlushEvent hwf]

/-- Settles O37: a line of at most LINE_MAX data bytes fits SCRATCH, so that SCRATCH takes the whole of it from index 0 on. -/
theorem renderEmitsOneLine : Obligations.RenderEmitsOneLine := by
  intro ty a16 bytes s hi hquiet hlen line opened
  have hfits : line.length ≤ lineBufSize s.cfg := length_renderedLine_le ty a16 hlen
  have hscratch : opened.scratch = s.scratch.writeFrom 0 line := congrArg _ (scratchPart_of_le hfits)
  refine ⟨⟨_, render_eq_emitted_of_quiet hi.scratchWf hquiet ty a16 (le_max_of_le_left hlen), rfl⟩, rfl,
    openFlushEvent_events hi.scratchWf line, ?_, fun k hk => ?_, length_renderedLine _ _ _ _, hfits⟩
  · rw [hscratch, Memory.readTo_writeFrom _ _ hi.scratchWf]
  · rw [hscratch, Memory.read_writeFrom _ _ hi.scratchWf, if_neg (by omega)]

/-! ## FlushLine and the commands that flush -/

section Flush

variable {s : State} (hi : Inv s) (hm : s.mode = .write)
include hi hm

theorem writeReady_of_inv : WriteReady s := ⟨hi.eventClosed, hm⟩

theorem length_le_lineMax : s.length.toNat ≤ s.cfg.lineMax.toNat :=
  length_le_of_writeCheck hi (writeCheck_eq_none.2 (writeReady_of_inv hi hm))

/-- LENGTH < LINE_LENGTH in WRITE mode, so that one byte more does not wrap LENGTH. -/
theorem toNat_length_succ : (s.length + 1).toNat = s.length.toNat + 1 := by
  obtain ⟨-, -, hlt⟩ := hi.writeLength hm
  bv_omega

/-- A byte more still fits the line. -/
theorem length_byteAppended_le (d : Byte) : (byteAppended d s).length.toNat ≤ s.lineLength.toNat := by
  obtain ⟨-, -, hlt⟩ := hi.writeLength hm
  exact (toNat_length_succ hi hm).trans_le hlt

theorem execWriteByte_of_inv (d : Byte) :
    execWriteByte d s =
      if s.length + 1 = s.lineLength then flushLine (byteAppended d s) else .next (byteAppended d s) := by
  rw [execWriteByte_eq, writeCheck_eq_none.2 (writeReady_of_inv hi hm), guarded_none, if_pos (length_le_lineMax hi hm)]

theorem execWriteAtAddress_of_inv (a : Addr) :
    execWriteAtAddress a s = andThen (flushPending s) fun u => .next { u with address := a, lensetOk := true } := by
  rw [execWriteAtAddress, writeCheck_eq_none.2 (writeReady_of_inv hi hm), guarded_none]

end Flush

/-- Settles O39: with at most LINE_MAX bytes pending FlushLine is refused as CV5 or leaves `lineFlushed`. -/
theorem flushLineEmitsDataLine : Obligations.FlushLineEmitsDataLine := fun _ hi hm hdutiful =>
  ⟨flushLine_eq_lineFlushed ⟨hi.scratchWf, hdutiful⟩ (length_le_lineMax hi hm),
    flushLine_of_mixes (length_le_lineMax hi hm)⟩

/-- Settles O40: the appended byte keeps LENGTH at LINE_MAX or below, and whether the flush mixes addressing does not depend on it. -/
theorem writeByteAppendsAndFlushes : Obligations.WriteByteAppendsAndFlushes := by
  intro s d hi hm appended
  obtain ⟨-, hmax, -⟩ := hi.writeLength hm
  have hexec : exec (.writeByte d) s = _ := execWriteByte_of_inv hi hm d
  have hlen : appended.length.toNat ≤ appended.cfg.lineMax.toNat := (length_byteAppended_le hi hm d).trans hmax
  refine ⟨fun hne => ?_, fun heq hdutiful hmix => ?_, fun heq hdutiful hmix => ?_, fun k => Memory.read_write _ hi.dataWf _ k d⟩
  · rw [hexec, if_neg hne]
    rfl
  · rw [hexec, if_pos heq]
    exact flushLine_eq_lineFlushed (s := appended) ⟨hi.scratchWf, hdutiful⟩ hlen hmix
  · rw [hexec, if_pos heq]
    exact flushLine_of_mixes (s := appended) hlen hmix

/-- Settles O41: the flush is refused or leaves `pendingFlushed`. -/
theorem writeAtAddressFlushesAndMoves : Obligations.WriteAtAddressFlushesAndMoves := by
  intro s a hi hm hdutiful
  have hexec : exec (.writeAtAddress a) s = _ := execWriteAtAddress_of_inv hi hm a
  have hlen := length_le_lineMax hi hm
  refine ⟨fun hmix => ?_, fun hne hmix => ?_⟩
  · rw [hexec, flushPending_eq_pendingFlushed ⟨hi.scratchWf, hdutiful⟩ hlen hmix, andThen_next]
  · rw [hexec, flushPending_of_mixes hlen hne hmix, andThen_refused]

/-! ## What the write-mode commands leave -/

/-- The registers and ports that no write-mode command writes. -/
def writeFrame (s : State) :=
  (s.rstate, s.rtype, s.nyb, s.sum, s.evtOpen, s.cfg, s.input, s.sinkInputs, s.sinkDraws)

/-- Those that a segment change leaves alone too. -/
def lineFrame (s : State) := (writeFrame s, s.data, s.lineLength)

/-- Those that a flush leaves alone too. -/
def flushFrame (s : State) := (lineFrame s, s.segment, s.segUsed)

theorem lineFrame_eq {s t : State} (h : lineFrame t = lineFrame s) : t.data = s.data ∧ t.lineLength = s.lineLength := by
  simp only [lineFrame, Prod.mk.injEq] at h
  exact h.2

theorem flushFrame_eq {s t : State} (h : flushFrame t = flushFrame s) :
    t.data = s.data ∧ t.lineLength = s.lineLength ∧ t.segment = s.segment ∧ t.segUsed = s.segUsed := by
  simp only [flushFrame, Prod.mk.injEq] at h
  obtain ⟨hline, hseg, hused⟩ := h
  obtain ⟨hdata, hlen⟩ := lineFrame_eq hline
  exact ⟨hdata, hlen, hseg, hused⟩

section Frames

variable {s t : State} (hclosed : s.evtOpen = false)
include hclosed

theorem flushFrame_render {ty : Byte} {a16 : Half} {bytes : List Byte} (h : render ty a16 bytes s = .next t) :
    flushFrame t = flushFrame s := by
  obtain ⟨-, -, rfl⟩ := render_inv h
  simp [flushFrame, lineFrame, writeFrame, hclosed]

theorem flushFrame_flushLine (h : flushLine s = .next t) : flushFrame t = flushFrame s := by
  simp [flushFrame, lineFrame, writeFrame, flushLine_frame h, hclosed]

theorem flushFrame_flushPending (h : flushPending s = .next t) : flushFrame t = flushFrame s ∧ t.evtOpen = false := by
  rcases flushPending_inv h with ⟨-, rfl⟩ | ⟨-, h⟩
  · exact ⟨rfl, hclosed⟩
  · obtain ⟨-, -, -, -, -, -, -, -, -, -, -, -, hclosed', -⟩ := flushLine_frame h
    exact ⟨flushFrame_flushLine hclosed h, hclosed'⟩

theorem lineFrame_changeSegment {sg : Half} (h : changeSegment sg s = .next t) : lineFrame t = lineFrame s := by
  rcases changeSegment_inv h with ⟨-, rfl⟩ | ⟨-, u, hu, rfl⟩
  · rfl
  · exact congrArg Prod.fst (flushFrame_render hclosed hu)

end Frames

/-- What each write-mode command changes beyond what a flush does. -/
inductive WriteEffect (s : State) : Instr → State → Prop
  | moved {t : State} (a : Addr) : flushFrame t = flushFrame s → WriteEffect s (.writeAtAddress a) t
  | segmented {t : State} (sg : Half) (a : Addr) : lineFrame t = lineFrame s → WriteEffect s (.writeAtSegment sg a) t
  | appended {t : State} (d : Byte) : flushFrame t = flushFrame (byteAppended d s) → WriteEffect s (.writeByte d) t
  | resized (n len : Byte) : WriteEffect s (.setOutputLineLength n) { s with lineLength := len }
  | ended {t : State} : flushFrame t = flushFrame s → WriteEffect s .endWrite t

theorem writeEffect_exec {i : Instr} {s t : State} (hi : isWriteCommand i = true) (h : exec i s = .next t) :
    WriteEffect s i t := by
  cases i with
  | writeAtAddress a =>
    obtain ⟨⟨hclosed, -⟩, u, hu, rfl⟩ := execWriteAtAddress_inv h
    exact .moved a (flushFrame_flushPending hclosed hu).1
  | writeAtSegment sg a =>
    obtain ⟨⟨hclosed, -⟩, u, v, hu, -, hv, rfl⟩ := execWriteAtSegment_inv h
    obtain ⟨hframe, hclosed'⟩ := flushFrame_flushPending hclosed hu
    exact .segmented sg a ((lineFrame_changeSegment hclosed' hv).trans (congrArg Prod.fst hframe))
  | writeByte d =>
    obtain ⟨⟨hclosed, -⟩, -, ⟨-, ht⟩ | ⟨-, rfl⟩⟩ := execWriteByte_inv h
    · exact .appended d (flushFrame_flushLine (s := byteAppended d s) hclosed ht)
    · exact .appended d rfl
  | setOutputLineLength n =>
    obtain ⟨-, -, rfl⟩ := execSetOutputLineLength_inv h
    exact .resized n _
  | endWrite =>
    obtain ⟨⟨hclosed, -⟩, u, v, hu, hv, rfl⟩ := execEndWrite_inv h
    obtain ⟨hframe, hclosed'⟩ := flushFrame_flushPending hclosed hu
    exact .ended ((flushFrame_render hclosed' hv).trans hframe)
  | _ => cases hi

theorem WriteEffect.frame {i : Instr} {s t : State} (h : WriteEffect s i t) : writeFrame t = writeFrame s := by
  cases h with
  | segmented sg a hframe => exact congrArg (·.1) hframe
  | resized n len => rfl
  | moved a hframe | ended hframe | appended d hframe => exact congrArg (·.1.1) hframe

/-- Settles O45: MODE apart, what each command writes beyond a flush is its `WriteEffect`. -/
theorem writeCommandsFrame : Obligations.WriteCommandsFrame := by
  intro i s t hi h
  have heffect := writeEffect_exec hi h
  refine ⟨by simpa only [writeFrame, Prod.mk.injEq] using heffect.frame, ?_⟩
  have hmode (hend : i ≠ .endWrite) : t.mode = s.mode := mode_writeCommand hi hend h
  cases heffect with
  | resized n len => simp
  | segmented sg a hframe =>
    obtain ⟨hdata, hline⟩ := lineFrame_eq hframe
    simp [hmode, hdata, hline]
  | moved a hframe =>
    obtain ⟨hdata, hline, hseg, hused⟩ := flushFrame_eq hframe
    simp [hmode, hdata, hline, hseg, hused]
  | appended d hframe =>
    obtain ⟨hdata, hline, hseg, hused⟩ := flushFrame_eq hframe
    have hread (hwf : s.data.wf) (k : Nat) (hk : k ≠ s.length.toNat) : t.data.read k = s.data.read k := by
      rw [hdata, byteAppended, Memory.read_write_other _ hwf _ _ _ hk]
    simpa [hmode, hline, hseg, hused, byteAppended] using hread
  | ended hframe =>
    obtain ⟨hdata, hline, hseg, hused⟩ := flushFrame_eq hframe
    simp [hdata, hline, hseg, hused]

/-! ## The records that the write-mode commands emit -/

/-- A record as the encoder renders it: its type, ADDR and data; LEN and CHECKSUM follow from them. -/
structure Record where
  type : RecordType
  addr : Half
  data : List Byte

/-- The FlushEvent of a record. -/
def Record.event (c : Config) (x : Record) : PortEvent := .flush (renderedLine c x.type.typeByte x.addr x.data)

/-- EmitElaIfNeeded's record (41_encoder.md rule R96). -/
def elaRecord (s : State) : Record := ⟨.extendedLinearAddress, 0, halfBytes (highHalf s.address)⟩

/-- FlushLine's line (41_encoder.md rule R97). -/
def dataRecord (s : State) : Record := ⟨.data, lowHalf s.address, s.pending⟩

/-- WRITE_AT_SEGMENT's record (41_encoder.md rule R100). -/
def segmentRecord (sg : Half) : Record := ⟨.extendedSegmentAddress, 0, halfBytes sg⟩

/-- END_WRITE's record (41_encoder.md rule R103). -/
def endRecord : Record := ⟨.endOfFile, 0, []⟩

def elaRecords (s : State) : List Record := if s.ovfPending then [elaRecord s] else []

def flushRecords (s : State) : List Record := elaRecords s ++ [dataRecord s]

def pendingRecords (s : State) : List Record := if s.length = 0 then [] else flushRecords s

def segmentRecords (sg : Half) (s : State) : List Record := if sg = s.segment then [] else [segmentRecord sg]

/-- What a write-mode command emits (41_encoder.md rules R99 to R103). -/
def commandRecords (i : Instr) (s : State) : List Record :=
  match i with
  | .writeAtAddress _ => pendingRecords s
  | .writeAtSegment sg _ => pendingRecords s ++ segmentRecords sg s
  | .writeByte d => if s.length + 1 = s.lineLength then flushRecords (byteAppended d s) else []
  | .endWrite => pendingRecords s ++ [endRecord]
  | _ => []

theorem commandRecords_writeByte (d : Byte) (s : State) :
    commandRecords (.writeByte d) s =
      if s.length + 1 = s.lineLength then flushRecords (byteAppended d s) else [] := rfl

/-- From `s` to `t` exactly the records `xs` go out, each with no more data than Render is given. -/
structure Emits (xs : List Record) (s t : State) : Prop where
  events : t.events = s.events ++ xs.map (Record.event s.cfg)
  cfg : t.cfg = s.cfg
  scratchWf : t.scratch.wf
  fits : ∀ x ∈ xs, x.data.length ≤ renderMax s.cfg

theorem emits_nil {s t : State} (hwf : t.scratch.wf) (hevents : t.events = s.events) (hcfg : t.cfg = s.cfg) :
    Emits [] s t where
  events := by simp [hevents]
  cfg := hcfg
  scratchWf := hwf
  fits := nofun

theorem Emits.append {xs ys : List Record} {s t u : State} (h : Emits xs s t) (h' : Emits ys t u) :
    Emits (xs ++ ys) s u where
  events := by simp [h'.events, h.events, h.cfg]
  cfg := h'.cfg.trans h.cfg
  scratchWf := h'.scratchWf
  fits x hx := (List.mem_append.1 hx).elim (h.fits x) fun hx => h.cfg ▸ h'.fits x hx

theorem emits_render (x : Record) {s t : State} (hwf : s.scratch.wf)
    (h : render x.type.typeByte x.addr x.data s = .next t) : Emits [x] s t where
  events := by
    obtain ⟨-, -, rfl⟩ := render_inv h
    exact openFlushEvent_events hwf _
  cfg := by
    obtain ⟨-, -, rfl⟩ := render_inv h
    simp
  scratchWf := scratch_render (wf_keptByLines _) hwf h
  fits y hy := by
    obtain rfl := List.mem_singleton.1 hy
    exact (render_inv h).1

theorem emits_emitElaIfNeeded {s t : State} (hwf : s.scratch.wf) (h : emitElaIfNeeded s = .next t) :
    Emits (elaRecords s) s t := by
  unfold elaRecords
  rcases emitElaIfNeeded_inv h with ⟨hovf, rfl⟩ | ⟨hovf, -, u, hu, rfl⟩
  · rw [hovf]
    exact emits_nil hwf rfl rfl
  · rw [hovf]
    exact { emits_render (elaRecord s) hwf hu with }

theorem emits_flushLine {s t : State} (hwf : s.scratch.wf) (h : flushLine s = .next t) : Emits (flushRecords s) s t := by
  obtain ⟨-, u, v, hu, hv, rfl⟩ := flushLine_inv h
  have hela := emits_emitElaIfNeeded hwf hu
  exact { hela.append (emits_render (dataRecord s) hela.scratchWf hv) with }

theorem emits_flushPending {s t : State} (hwf : s.scratch.wf) (h : flushPending s = .next t) :
    Emits (pendingRecords s) s t := by
  unfold pendingRecords
  rcases flushPending_inv h with ⟨hlen, rfl⟩ | ⟨hlen, h⟩
  · rw [if_pos hlen]
    exact emits_nil hwf rfl rfl
  · rw [if_neg hlen]
    exact emits_flushLine hwf h

theorem emits_changeSegment {sg : Half} {s t : State} (hwf : s.scratch.wf) (h : changeSegment sg s = .next t) :
    Emits (segmentRecords sg s) s t := by
  unfold segmentRecords
  rcases changeSegment_inv h with ⟨hsg, rfl⟩ | ⟨hsg, u, hu, rfl⟩
  · rw [if_pos hsg]
    exact emits_nil hwf rfl rfl
  · rw [if_neg hsg]
    exact { emits_render (segmentRecord sg) hwf hu with }

theorem emits_exec {i : Instr} {s t : State} (hwf : s.scratch.wf) (hi : isWriteCommand i = true)
    (h : exec i s = .next t) : Emits (commandRecords i s) s t := by
  cases i with
  | writeAtAddress a =>
    obtain ⟨-, u, hu, rfl⟩ := execWriteAtAddress_inv h
    exact { emits_flushPending hwf hu with }
  | writeAtSegment sg a =>
    obtain ⟨-, u, v, hu, -, hv, rfl⟩ := execWriteAtSegment_inv h
    obtain ⟨-, hseg, -⟩ := flushPending_frame hu
    have hpending := emits_flushPending hwf hu
    have hsegment : Emits (segmentRecords sg s) u v := by
      simpa only [segmentRecords, hseg] using emits_changeSegment hpending.scratchWf hv
    exact { hpending.append hsegment with }
  | writeByte d =>
    obtain ⟨-, -, ⟨hfull, ht⟩ | ⟨hfull, rfl⟩⟩ := execWriteByte_inv h
    · rw [commandRecords_writeByte, if_pos hfull]
      exact { emits_flushLine (s := byteAppended d s) hwf ht with }
    · rw [commandRecords_writeByte, if_neg hfull]
      exact emits_nil hwf rfl rfl
  | setOutputLineLength n =>
    obtain ⟨-, -, rfl⟩ := execSetOutputLineLength_inv h
    exact emits_nil hwf rfl rfl
  | endWrite =>
    obtain ⟨-, u, v, hu, hv, rfl⟩ := execEndWrite_inv h
    have hpending := emits_flushPending hwf hu
    exact { hpending.append (emits_render endRecord hpending.scratchWf hv) with }
  | _ => cases hi

/-! ### Their kinds and lengths -/

/-- What 41_encoder.md rule R104 allows of a record that the command `i` emits in the state `s`. -/
def RecordAllowed (i : Instr) (s : State) (x : Record) : Prop :=
  (x.type = .data ∧ x.addr = lowHalf s.address ∧ 1 ≤ x.data.length ∧ x.data.length ≤ s.lineLength.toNat) ∨
  (x.type = .endOfFile ∧ x.addr = 0 ∧ x.data = [] ∧ i = .endWrite) ∨
  (x.type = .extendedSegmentAddress ∧ x.addr = 0 ∧
    ∃ sg a, i = .writeAtSegment sg a ∧ sg ≠ s.segment ∧ x.data = halfBytes sg) ∨
  (x.type = .extendedLinearAddress ∧ x.addr = 0 ∧ s.ovfPending = true ∧ x.data = halfBytes (highHalf s.address))

theorem length_pending (s : State) : s.pending.length = s.length.toNat := Memory.length_readTo _ _

theorem recordAllowed_elaRecords (i : Instr) {s : State} {x : Record} (hx : x ∈ elaRecords s) : RecordAllowed i s x := by
  unfold elaRecords at hx
  split at hx
  · next hovf =>
    obtain rfl := List.mem_singleton.1 hx
    exact .inr (.inr (.inr ⟨rfl, rfl, hovf, rfl⟩))
  · cases hx

theorem recordAllowed_dataRecord (i : Instr) {s u : State} (haddr : u.address = s.address) (hne : 1 ≤ u.length.toNat)
    (hle : u.length.toNat ≤ s.lineLength.toNat) : RecordAllowed i s (dataRecord u) := by
  rw [← length_pending] at hne hle
  exact .inl ⟨rfl, congrArg lowHalf haddr, hne, hle⟩

theorem recordAllowed_pendingRecords (i : Instr) {s : State} (hlen : s.length.toNat ≤ s.lineLength.toNat) {x : Record}
    (hx : x ∈ pendingRecords s) : RecordAllowed i s x := by
  unfold pendingRecords at hx
  split at hx
  · cases hx
  · next hne =>
    have hpos : 1 ≤ s.length.toNat := by bv_omega
    rcases List.mem_append.1 hx with hx | hx
    · exact recordAllowed_elaRecords i hx
    · obtain rfl := List.mem_singleton.1 hx
      exact recordAllowed_dataRecord i rfl hpos hlen

theorem recordAllowed_commandRecords {i : Instr} {s : State} (hi : Inv s) (hm : s.mode = .write) {x : Record}
    (hx : x ∈ commandRecords i s) : RecordAllowed i s x := by
  obtain ⟨-, -, hlt⟩ := hi.writeLength hm
  cases i with
  | writeAtAddress a => exact recordAllowed_pendingRecords _ hlt.le hx
  | writeAtSegment sg a =>
    rcases List.mem_append.1 hx with hx | hx
    · exact recordAllowed_pendingRecords _ hlt.le hx
    · unfold segmentRecords at hx
      split at hx
      · cases hx
      · next hsg =>
        obtain rfl := List.mem_singleton.1 hx
        exact .inr (.inr (.inl ⟨rfl, rfl, sg, a, rfl, hsg, rfl⟩))
  | writeByte d =>
    rw [commandRecords_writeByte] at hx
    split at hx
    · rcases List.mem_append.1 hx with hx | hx
      · exact recordAllowed_elaRecords (s := s) _ hx
      · obtain rfl := List.mem_singleton.1 hx
        have hpos : 1 ≤ (byteAppended d s).length.toNat := (Nat.le_add_left 1 _).trans_eq (toNat_length_succ hi hm).symm
        exact recordAllowed_dataRecord _ rfl hpos (length_byteAppended_le hi hm d)
    · cases hx
  | endWrite =>
    rcases List.mem_append.1 hx with hx | hx
    · exact recordAllowed_pendingRecords _ hlt.le hx
    · obtain rfl := List.mem_singleton.1 hx
      exact .inr (.inl ⟨rfl, rfl, rfl, rfl⟩)
  | _ => cases hx

theorem writeReady_of_exec {i : Instr} {s t : State} (hi : isWriteCommand i = true) (h : exec i s = .next t) :
    WriteReady s := by
  cases i with
  | writeAtAddress a => exact (execWriteAtAddress_inv h).1
  | writeAtSegment sg a => exact (execWriteAtSegment_inv h).1
  | writeByte d => exact (execWriteByte_inv h).1
  | setOutputLineLength n => exact (execSetOutputLineLength_inv h).1
  | endWrite => exact (execEndWrite_inv h).1
  | _ => cases hi

/-- Settles O46: the events added are those of `commandRecords`, each of which the rules allow. -/
theorem writeCommandsEmitRecords : Obligations.WriteCommandsEmitRecords := by
  intro i s t hi hcmd h
  have hm := (writeReady_of_exec hcmd h).2
  refine ⟨_, (emits_exec hi.scratchWf hcmd h).events, fun e he => ?_⟩
  obtain ⟨x, hx, rfl⟩ := List.mem_map.1 he
  exact ⟨x.type, x.addr, x.data, rfl, recordAllowed_commandRecords hi hm hx⟩

/-! ## What a stream of records places in the target space -/

/-- The bits of an address that a DATA record does not carry: those of the last extended-address records. -/
structure Tracker where
  high : Half
  segment : Half

/-- An extended-address record of at least two bytes moves the tracker (40_decoder.md rule R91). -/
def Tracker.next (k : Tracker) (x : Record) : Tracker where
  high :=
    if x.type = .extendedLinearAddress ∧ 2 ≤ x.data.length then joinBytes (x.data.getD 0 0) (x.data.getD 1 0) else k.high
  segment :=
    if x.type = .extendedSegmentAddress ∧ 2 ≤ x.data.length then joinBytes (x.data.getD 0 0) (x.data.getD 1 0)
    else k.segment

/-- A DATA record places its bytes from its linear address on (20_memory.md rule R42). -/
def Tracker.places (k : Tracker) (x : Record) : List (Addr × Byte) :=
  if x.type = .data then placedFrom (linearAddress (joinHalves k.high x.addr) k.segment) x.data else []

/-- The records `xs` take the tracker from `k` to `k'` and place `ps`. -/
inductive Replays : List Record → Tracker → Tracker → List (Addr × Byte) → Prop
  | nil (k : Tracker) : Replays [] k k []
  | cons {x : Record} {xs : List Record} {k k' : Tracker} {ps : List (Addr × Byte)} :
      Replays xs (k.next x) k' ps → Replays (x :: xs) k k' (k.places x ++ ps)

theorem Replays.append {xs ys : List Record} {k k' k'' : Tracker} {ps qs : List (Addr × Byte)} (h : Replays xs k k' ps)
    (h' : Replays ys k' k'' qs) : Replays (xs ++ ys) k k'' (ps ++ qs) := by
  induction h with
  | nil k => exact h'
  | cons _ ih => simpa using (ih h').cons

theorem replays_singleton (x : Record) (k : Tracker) : Replays [x] k (k.next x) (k.places x) := by
  simpa using (Replays.nil (k.next x)).cons

/-! ## The write stream -/

/-- What the encoder has told a decoder of its address: ELA_HIGH and SEGMENT. -/
def writeTracker (s : State) : Tracker := ⟨s.elaHigh, s.segment⟩

/-- Where the pending bytes will be placed. -/
def pendingPlaces (s : State) : List (Addr × Byte) := placedFrom s.linear s.pending

theorem pendingPlaces_of_empty {s : State} (h : s.length = 0) : pendingPlaces s = [] := by
  simp [pendingPlaces, State.pending, h, Memory.readTo, placedFrom]

theorem highHalf_of_not_ovfPending {s : State} (h : s.ovfPending = false) : highHalf s.address = s.elaHigh := by
  simpa [State.ovfPending] using h

/-- After EmitElaIfNeeded's record, if any, ADDRESS[31:16] is in effect. -/
theorem replays_elaRecords (s : State) : Replays (elaRecords s) (writeTracker s) ⟨highHalf s.address, s.segment⟩ [] := by
  unfold elaRecords
  split
  · have hreplays := replays_singleton (elaRecord s) (writeTracker s)
    simpa [Tracker.next, Tracker.places, elaRecord, writeTracker, halfBytes] using hreplays
  · next hovf =>
    rw [highHalf_of_not_ovfPending (by simpa using hovf)]
    exact .nil _

/-- The DATA line stands at ADDRESS itself, since ADDRESS[31:16] is in effect. -/
theorem replays_flushRecords (s : State) :
    Replays (flushRecords s) (writeTracker s) ⟨highHalf s.address, s.segment⟩ (pendingPlaces s) := by
  have hdata := replays_singleton (dataRecord s) ⟨highHalf s.address, s.segment⟩
  simp only [Tracker.next, Tracker.places, dataRecord, joinHalves_halves] at hdata
  exact (replays_elaRecords s).append hdata

theorem elaHigh_emitElaIfNeeded {s t : State} (h : emitElaIfNeeded s = .next t) : t.elaHigh = highHalf s.address := by
  rcases emitElaIfNeeded_inv h with ⟨hovf, rfl⟩ | ⟨-, -, u, -, rfl⟩
  · exact (highHalf_of_not_ovfPending hovf).symm
  · rfl

theorem elaHigh_flushLine {s t : State} (h : flushLine s = .next t) : t.elaHigh = highHalf s.address := by
  obtain ⟨-, u, v, hu, hv, rfl⟩ := flushLine_inv h
  obtain ⟨-, -, rfl⟩ := render_inv hv
  simpa using elaHigh_emitElaIfNeeded hu

theorem replays_flushLine {s t : State} (h : flushLine s = .next t) :
    Replays (flushRecords s) (writeTracker s) (writeTracker t) (pendingPlaces s) := by
  have hreplays := replays_flushRecords s
  obtain ⟨-, -, hseg, -⟩ := flushLine_frame h
  rwa [← elaHigh_flushLine h, ← hseg] at hreplays

theorem replays_flushPending {s t : State} (h : flushPending s = .next t) :
    Replays (pendingRecords s) (writeTracker s) (writeTracker t) (pendingPlaces s) := by
  unfold pendingRecords
  rcases flushPending_inv h with ⟨hlen, rfl⟩ | ⟨hlen, h⟩
  · rw [if_pos hlen, pendingPlaces_of_empty hlen]
    exact .nil _
  · rw [if_neg hlen]
    exact replays_flushLine h

theorem replays_changeSegment {sg : Half} {s t : State} (h : changeSegment sg s = .next t) :
    Replays (segmentRecords sg s) (writeTracker s) (writeTracker t) [] := by
  unfold segmentRecords
  rcases changeSegment_inv h with ⟨hsg, rfl⟩ | ⟨hsg, u, hu, rfl⟩
  · rw [if_pos hsg]
    exact .nil _
  · obtain ⟨-, -, rfl⟩ := render_inv hu
    rw [if_neg hsg]
    have hreplays := replays_singleton (segmentRecord sg) (writeTracker s)
    simpa [Tracker.next, Tracker.places, segmentRecord, writeTracker, halfBytes] using hreplays

theorem placedFrom_append (a : Addr) (xs ys : List Byte) :
    placedFrom a (xs ++ ys) = placedFrom a xs ++ placedFrom (a + BitVec.ofNat 32 xs.length) ys := by
  induction xs generalizing a with
  | nil => simp [placedFrom]
  | cons x xs ih =>
    have hnext : a + 1 + BitVec.ofNat 32 xs.length = a + BitVec.ofNat 32 (xs.length + 1) := by bv_omega
    simp only [List.cons_append, placedFrom, ih, List.length_cons, hnext]

/-- WRITE_BYTE's byte will be placed where R20 of 10_state.md says: at ADDRESS + LENGTH, in the segment in effect. -/
theorem pendingPlaces_byteAppended {s : State} (hi : Inv s) (hm : s.mode = .write) (d : Byte) :
    pendingPlaces (byteAppended d s) =
      pendingPlaces s ++ [(linearAddress (s.address + s.length.setWidth 32) s.segment, d)] := by
  have hread (i : Nat) : (byteAppended d s).data.read i = if i = s.length.toNat then d else s.data.read i :=
    Memory.read_write _ hi.dataWf _ i d
  have hbefore : (byteAppended d s).data.readTo s.length.toNat = s.data.readTo s.length.toNat :=
    Memory.readTo_congr fun i hlt => by rw [hread, if_neg hlt.ne]
  have hpending : (byteAppended d s).pending = s.pending ++ [d] := by
    have hsucc : (byteAppended d s).length.toNat = s.length.toNat + 1 := toNat_length_succ hi hm
    rw [State.pending, hsucc, Memory.readTo_succ, hbefore, hread, if_pos rfl, State.pending]
  have hlinear : s.linear + BitVec.ofNat 32 s.length.toNat = linearAddress (s.address + s.length.setWidth 32) s.segment := by
    unfold State.linear linearAddress
    bv_omega
  rw [pendingPlaces, hpending, placedFrom_append, length_pending]
  exact congrArg (fun a => pendingPlaces s ++ [(a, d)]) hlinear

theorem hostWrites_cons {i : Instr} {s t : State} (h : exec i s = .next t) (is : List Instr) :
    hostWrites (i :: is) s = hostWrites [i] s ++ hostWrites is t := by
  simp [hostWrites, h]

theorem hostWrites_writeByte {d : Byte} {s t : State} (h : exec (.writeByte d) s = .next t) :
    hostWrites [.writeByte d] s = [(linearAddress (s.address + s.length.setWidth 32) s.segment, d)] := by
  simp [hostWrites, h]

theorem hostWrites_of_ne_writeByte {i : Instr} {s t : State} (hne : ∀ d, i ≠ .writeByte d) (h : exec i s = .next t) :
    hostWrites [i] s = [] := by
  cases i with
  | writeByte d => exact absurd rfl (hne d)
  | _ => simp [hostWrites, h]

/-- From `s` to `t` the records that go out place what was pending in `s` and the bytes `ws` written since, but for those pending
in `t`. -/
def Streams (s t : State) (ws : List (Addr × Byte)) : Prop :=
  ∃ xs ps, Emits xs s t ∧ Replays xs (writeTracker s) (writeTracker t) ps ∧
    ps ++ pendingPlaces t = pendingPlaces s ++ ws

theorem streams_refl {s : State} (hwf : s.scratch.wf) : Streams s s [] :=
  ⟨[], [], emits_nil hwf rfl rfl, .nil _, by simp⟩

theorem Streams.trans {s t u : State} {ws vs : List (Addr × Byte)} (h : Streams s t ws) (h' : Streams t u vs) :
    Streams s u (ws ++ vs) := by
  obtain ⟨xs, ps, hemits, hreplays, hplaces⟩ := h
  obtain ⟨ys, qs, hemits', hreplays', hplaces'⟩ := h'
  refine ⟨xs ++ ys, ps ++ qs, hemits.append hemits', hreplays.append hreplays', ?_⟩
  calc ps ++ qs ++ pendingPlaces u
    _ = ps ++ pendingPlaces t ++ vs := by rw [List.append_assoc, hplaces', List.append_assoc]
    _ = pendingPlaces s ++ (ws ++ vs) := by rw [hplaces, List.append_assoc]

/-- A command that leaves no byte pending has placed all that was. -/
theorem placed_of_flushed {i : Instr} {s t : State} (hne : ∀ d, i ≠ .writeByte d) (h : exec i s = .next t)
    (hlen : t.length = 0) : pendingPlaces s ++ pendingPlaces t = pendingPlaces s ++ hostWrites [i] s := by
  rw [pendingPlaces_of_empty hlen, hostWrites_of_ne_writeByte hne h]

theorem length_execEndWrite {s t : State} (h : execEndWrite s = .next t) : t.length = 0 := by
  obtain ⟨-, u, v, hu, hv, rfl⟩ := execEndWrite_inv h
  obtain ⟨-, -, -, hlen, -⟩ := flushPending_frame hu
  obtain ⟨-, -, -, -, hlen', -⟩ := render_frame hv
  exact hlen'.trans hlen

theorem streams_exec {i : Instr} {s t : State} (hi : Inv s) (hcmd : isWriteCommand i = true) (h : exec i s = .next t) :
    Streams s t (hostWrites [i] s) := by
  have hemits := emits_exec hi.scratchWf hcmd h
  cases i with
  | writeAtAddress a =>
    obtain ⟨-, u, hu, rfl⟩ := execWriteAtAddress_inv h
    obtain ⟨-, -, -, hlen, -⟩ := flushPending_frame hu
    exact ⟨_, _, hemits, (replays_flushPending hu :), placed_of_flushed nofun h hlen⟩
  | writeAtSegment sg a =>
    obtain ⟨-, u, v, hu, -, hv, rfl⟩ := execWriteAtSegment_inv h
    obtain ⟨-, hseg, -, hlen, -⟩ := flushPending_frame hu
    obtain ⟨-, -, hlen', -⟩ := changeSegment_frame hv
    have hreplays := (replays_flushPending hu).append (replays_changeSegment hv)
    rw [List.append_nil, segmentRecords, hseg] at hreplays
    exact ⟨_, _, hemits, hreplays, placed_of_flushed nofun h (hlen'.trans hlen)⟩
  | writeByte d =>
    obtain ⟨⟨-, hm⟩, -, ⟨hfull, ht⟩ | ⟨hfull, rfl⟩⟩ := execWriteByte_inv h
    all_goals
      rw [hostWrites_writeByte h, Streams, ← pendingPlaces_byteAppended hi hm d]
      rw [commandRecords_writeByte] at hemits
    · rw [if_pos hfull] at hemits
      obtain ⟨-, -, -, -, hlen, -⟩ := flushLine_frame ht
      exact ⟨_, _, hemits, (replays_flushLine ht :), by rw [pendingPlaces_of_empty hlen, List.append_nil]⟩
    · rw [if_neg hfull] at hemits
      exact ⟨_, _, hemits, .nil _, rfl⟩
  | setOutputLineLength n =>
    have hnone : hostWrites [.setOutputLineLength n] s = [] := hostWrites_of_ne_writeByte nofun h
    obtain ⟨-, -, rfl⟩ := execSetOutputLineLength_inv h
    rw [hnone]
    exact ⟨_, _, hemits, .nil _, (List.append_nil _).symm⟩
  | endWrite =>
    have hlen := length_execEndWrite h
    obtain ⟨-, u, v, hu, hv, rfl⟩ := execEndWrite_inv h
    obtain ⟨-, -, rfl⟩ := render_inv hv
    have hreplays := (replays_flushPending hu).append (replays_singleton endRecord _)
    have hnext : (writeTracker u).next endRecord = writeTracker u := rfl
    have hnone : (writeTracker u).places endRecord = [] := rfl
    rw [hnext, hnone, List.append_nil] at hreplays
    exact ⟨_, _, hemits, hreplays, placed_of_flushed nofun h hlen⟩
  | _ => cases hcmd

theorem streams_execAll {is : List Instr} {s t : State} (hi : Inv s) (hcmds : ∀ i ∈ is, isWriteCommand i = true)
    (h : execAll is s = .next t) : Streams s t (hostWrites is s) := by
  induction is generalizing s with
  | nil =>
    cases h
    exact streams_refl hi.scratchWf
  | cons i is ih =>
    obtain ⟨u, hu, h⟩ := andThen_eq_next.1 h
    rw [List.forall_mem_cons] at hcmds
    rw [hostWrites_cons hu]
    exact (streams_exec hi hcmds.1 hu).trans (ih (inv_exec hi hu) hcmds.2 h)

theorem execAll_append (is js : List Instr) (s : State) :
    execAll (is ++ js) s = andThen (execAll is s) (execAll js) := by
  induction is generalizing s with
  | nil => rfl
  | cons i is ih =>
    simp only [List.cons_append, execAll, andThen_assoc]
    exact congrArg _ (funext ih)

/-- END_WRITE leaves no byte pending. -/
theorem length_of_execAll_endWrite {is : List Instr} {s t : State} (h : execAll (is ++ [.endWrite]) s = .next t) :
    t.length = 0 := by
  rw [execAll_append] at h
  obtain ⟨u, -, h⟩ := andThen_eq_next.1 h
  obtain ⟨v, hv, h⟩ := andThen_eq_next.1 h
  cases h
  exact length_execEndWrite hv

/-! ## The decoder -/

/-- In READ mode between lines. -/
structure LineReady (r : State) : Prop where
  inv : Inv r
  mode : r.mode = .read
  waiting : r.rstate = .waitForStart

theorem LineReady.readReady {r : State} (h : LineReady r) : ReadReady r := ⟨h.inv.eventClosed, h.mode⟩

/-- The state after a record's line, with the CHECKSUM of rule R58, and its terminator. -/
def recordRead (x : Record) (r : State) : State :=
  delivered false (lineRead x.type x.addr x.data (checksum x.type.typeByte x.addr x.data) r)

/-- The bits of an address that the decoder adds to a DATA record's ADDR. -/
def readTracker (r : State) : Tracker := ⟨highHalf r.address, r.segment⟩

theorem readText_renderedLine (c : Config) (x : Record) {r : State} (h : LineReady r)
    (hfits : x.data.length ≤ r.cfg.lineMax.toNat) (hquiet : sinkReenters r = false) :
    readText (renderedLine c x.type.typeByte x.addr x.data) r = .next (recordRead x r) := by
  have hline := exec_recordInstr_eq_delivered h.readReady (.inl h.waiting) hquiet x.type x.addr
    (checksum x.type.typeByte x.addr x.data) hfits
  rw [exec_recordInstr, bne_self_eq_false] at hline
  have hnewline : readText (newlineBytes c) (recordRead x r) = .next (recordRead x r) :=
    readText_of_waiting (by simp [ReadReady, recordRead, h.mode]) (by simp [recordRead]) fun b hb => by
      simp [charClass_of_mem_newline hb]
  rw [renderedLine, readText_append, hline, andThen_next]
  exact hnewline

section Read

variable {x : Record} {r : State} (h : LineReady r) (hfits : x.data.length ≤ r.cfg.lineMax.toNat) {rest : List SinkInput}
  (hsink : r.sinkInputs = .answer true :: rest)
include h hfits hsink

theorem lineReady_recordRead : LineReady (recordRead x r) where
  inv := inv_readText h.inv (readText_renderedLine r.cfg x h hfits (by simp [sinkReenters, hsink]))
  mode := by simp [recordRead, h.mode]
  waiting := by simp [recordRead]

theorem readTracker_recordRead : readTracker (recordRead x r) = (readTracker r).next x := by
  have haccept : sinkAccept r = true := by simp [sinkAccept, hsink]
  have haddr := delivered_lineRead_address x.type x.addr (checksum x.type.typeByte x.addr x.data) h.inv.dataWf
    (data := x.data) (by omega) false
  have hseg := delivered_lineRead_segment x.type x.addr (checksum x.type.typeByte x.addr x.data) h.inv.dataWf
    (data := x.data) (by omega) false
  simp only [readTracker, recordRead, haddr, hseg, haccept, true_and, apply_ite highHalf, highHalf_joinHalves, Tracker.next]

end Read

theorem sinkInputs_recordRead (x : Record) {r : State} {rest : List SinkInput} (hsink : r.sinkInputs = .answer true :: rest) :
    (recordRead x r).sinkInputs = rest := by
  simp [recordRead, delivered_sink, closeSinkEvent_sink, hsink]

/-- The one SinkEvent of a record has err = 0 and places what the record does. -/
theorem events_recordRead (x : Record) {r : State} (hwf : r.data.wf) (hlen : x.data.length ≤ 255) :
    ∃ e, (recordRead x r).events = r.events ++ [.sink e] ∧ e.err = false ∧
      sinkPlaces [.sink e] = (readTracker r).places x :=
  ⟨_, delivered_lineRead_events x.type x.addr _ hwf hlen false, rfl, by simp [sinkPlaces, Tracker.places, readTracker]⟩

theorem sinkPlaces_append (es fs : List PortEvent) : sinkPlaces (es ++ fs) = sinkPlaces es ++ sinkPlaces fs := by
  induction es with
  | nil => rfl
  | cons e es ih => cases e <;> simp [sinkPlaces, ih]

/-- A decoder whose sink accepts every record places what the records place, with no error. -/
theorem readText_records (c : Config) {xs : List Record} {k' : Tracker} {ps : List (Addr × Byte)} {r : State}
    (hreplays : Replays xs (readTracker r) k' ps) (h : LineReady r)
    (hfits : ∀ x ∈ xs, x.data.length ≤ r.cfg.lineMax.toNat) {n : Nat} {more : List SinkInput} (hn : xs.length ≤ n)
    (hsink : r.sinkInputs = List.replicate n (.answer true) ++ more) :
    ∃ u fs, readText (outputStream (xs.map (Record.event c))) r = .next u ∧ u.events = r.events ++ fs ∧
      sinkPlaces fs = ps ∧ ∀ e, PortEvent.sink e ∈ fs → e.err = false := by
  induction xs generalizing r n ps with
  | nil =>
    cases hreplays
    exact ⟨r, [], rfl, by simp, rfl, nofun⟩
  | cons x xs ih =>
    cases hreplays with
    | cons hrest =>
    obtain ⟨n, rfl⟩ := Nat.exists_eq_add_one_of_ne_zero (Nat.ne_zero_of_lt hn)
    rw [List.replicate_succ, List.cons_append] at hsink
    rw [List.forall_mem_cons] at hfits
    have hline := readText_renderedLine c x h hfits.1 (by simp [sinkReenters, hsink])
    have hcfg : (recordRead x r).cfg = r.cfg := by simp [recordRead]
    rw [← readTracker_recordRead h hfits.1 hsink] at hrest
    obtain ⟨u, fs, hread, hevents, hplaces, herr⟩ := ih hrest (lineReady_recordRead h hfits.1 hsink) (hcfg ▸ hfits.2)
      (Nat.le_of_succ_le_succ hn) (sinkInputs_recordRead x hsink)
    obtain ⟨e, hevent, he, hplace⟩ := events_recordRead x h.inv.dataWf (by omega)
    refine ⟨u, .sink e :: fs, ?_, by simp [hevents, hevent], ?_, ?_⟩
    · rw [List.map_cons, Record.event, outputStream, readText_append, hline, andThen_next, hread]
    · rw [← List.singleton_append, sinkPlaces_append, hplace, hplaces]
    · rintro e' (_ | ⟨_, he'⟩)
      · exact he
      · exact herr e' he'

/-- Settles O55: the write stream goes out as records that place exactly what the host wrote, and the decoder, whose tracker starts
where BEGIN_WRITE puts the encoder's, reads each of them back. -/
theorem writeStreamReadsBack : Obligations.WriteStreamReadsBack := by
  intro cmds s t r es hi _ hcmds hrun hes hr hm hwait haddr hseg hmax htwo ⟨n, more, hn, hsink⟩
  obtain ⟨w, hw, hrun⟩ := andThen_eq_next.1 hrun
  have hwi := inv_exec hi hw
  have hnone : hostWrites [.beginWrite] s = [] := hostWrites_of_ne_writeByte nofun hw
  have hwrites := hostWrites_cons hw (cmds ++ [.endWrite])
  rw [hnone, List.nil_append] at hwrites
  have hall : ∀ i ∈ cmds ++ [.endWrite], isWriteCommand i = true := by
    intro i hmem
    rcases List.mem_append.1 hmem with hmem | hmem
    · exact (hcmds i hmem).1
    · obtain rfl := List.mem_singleton.1 hmem
      rfl
  obtain ⟨xs, ps, hemits, hreplays, hplaces⟩ := streams_execAll hwi hall hrun
  obtain ⟨-, rfl⟩ := execBegin_inv hw
  rw [pendingPlaces_of_empty (length_of_execAll_endWrite hrun), pendingPlaces_of_empty rfl, List.append_nil,
    List.nil_append, ← hwrites] at hplaces
  obtain rfl : es = xs.map (Record.event s.cfg) := List.append_cancel_left (hes.symm.trans hemits.events)
  have htracker : readTracker r = writeTracker (beginWriteState s) := by
    rw [readTracker, haddr, hseg]
    rfl
  rw [List.length_map] at hn
  obtain ⟨u, fs, hread, hevents, hfs, herr⟩ := readText_records s.cfg (htracker ▸ hreplays) ⟨hr, hm, hwait⟩
    (fun x hx => (hemits.fits x hx).trans (max_le hmax htwo)) hn hsink
  exact ⟨u, fs, hread, hevents, hfs.trans hplaces, herr⟩

end Sys2Proof.Proofs.Encoder
end

section
/-! The family of 60_exceptions.md: the block with no command, which commands each MODE refuses, and the refusal that a device's own
command brings on the command that it interrupts. -/

namespace Sys2Proof.Proofs.Exceptions

open Sys2Proof Sys2Proof.Machine Sys2Proof.Proofs.CodecState Sys2Proof.Proofs.MemoryModel Sys2Proof.Proofs.Encoding
  Sys2Proof.Proofs.Decoder Sys2Proof.Proofs.Encoder

/-! ## No command -/

theorem fetch_empty {s : State} (h : s.input = []) : fetch s = .idle := by
  rw [fetch, h]

/-- Settles O2: with nothing issued there is nothing to fetch, and a step leaves the state. -/
theorem idleHoldsState : Obligations.IdleHoldsState := by
  intro s h
  rw [step, fetch_empty h]

/-! ## What each MODE refuses -/

theorem andThen_guarded (check : Option Refusal) (r : Result) (k : State → Result) :
    andThen (guarded check r) k = guarded check (andThen r k) := by
  cases check <;> rfl

/-- A record row's check is that of the READ_BYTE of its line's `:` (30_encoding.md rule R72). -/
theorem readRecord_guarded (rt : RecordType) (addr : Half) (data : List Byte) (cks : Byte) (s : State) :
    ∃ r, readRecord rt addr data cks s = guarded (readCheck s) r :=
  ⟨_, andThen_guarded (readCheck s) (readChar 0x3A s) _⟩

/-- Every read-mode command is behind the same check (60_exceptions.md rules R107, R108). -/
theorem exec_readCommand_guarded {i : Instr} (h : isReadCommand i = true) (s : State) :
    ∃ r, exec i s = guarded (readCheck s) r := by
  cases i with
  | readByte c => exact ⟨_, rfl⟩
  | endRead => exact ⟨_, rfl⟩
  | recordData addr data cks => exact readRecord_guarded _ addr data cks s
  | recordEndOfFile addr data cks => exact readRecord_guarded _ addr data cks s
  | recordExtendedSegmentAddress addr data cks => exact readRecord_guarded _ addr data cks s
  | recordStartSegmentAddress addr data cks => exact readRecord_guarded _ addr data cks s
  | recordExtendedLinearAddress addr data cks => exact readRecord_guarded _ addr data cks s
  | recordStartLinearAddress addr data cks => exact readRecord_guarded _ addr data cks s
  | _ => cases h

/-- Every write-mode command is behind the same check (60_exceptions.md rules R107, R108). -/
theorem exec_writeCommand_guarded {i : Instr} (h : isWriteCommand i = true) (s : State) :
    ∃ r, exec i s = guarded (writeCheck s) r := by
  cases i with
  | writeAtAddress a => exact ⟨_, rfl⟩
  | writeAtSegment sg a => exact ⟨_, rfl⟩
  | writeByte d => exact ⟨_, rfl⟩
  | setOutputLineLength n => exact ⟨_, rfl⟩
  | endWrite => exact ⟨_, rfl⟩
  | _ => cases h

theorem exec_readCommand_refused {i : Instr} {s : State} {q : Refusal} (h : isReadCommand i = true)
    (hq : readCheck s = some q) : exec i s = .refused q := by
  obtain ⟨r, hr⟩ := exec_readCommand_guarded h s
  rw [hr, hq, guarded_some]

theorem exec_writeCommand_refused {i : Instr} {s : State} {q : Refusal} (h : isWriteCommand i = true)
    (hq : writeCheck s = some q) : exec i s = .refused q := by
  obtain ⟨r, hr⟩ := exec_writeCommand_guarded h s
  rw [hr, hq, guarded_some]

/-- Settles O7: with no event open the two checks answer by MODE alone, and a command ends in what its check answers;
SET_OUTPUT_LINE_LENGTH in WRITE mode, past its check, is refused by LENSET_OK. -/
theorem wrongModeCommandsRefused : Obligations.WrongModeCommandsRefused := by
  intro s i hclosed
  refine ⟨fun hm hi => ?_, fun hm hi => ?_, fun hm hi => ?_, fun hm hi => ?_, fun hm hlenset n => ?_⟩
  · rcases hi with hi | hi
    · exact exec_readCommand_refused hi (by simp [readCheck, hclosed, hm])
    · exact exec_writeCommand_refused hi (by simp [writeCheck, hclosed, hm])
  · rcases hm with hm | hm <;> exact exec_readCommand_refused hi (by simp [readCheck, hclosed, hm])
  · exact exec_writeCommand_refused hi (by simp [writeCheck, hclosed, hm])
  · exact exec_writeCommand_refused hi (by simp [writeCheck, hclosed, hm])
  · show execSetOutputLineLength n s = _
    rw [execSetOutputLineLength, writeCheck_eq_none.2 ⟨hclosed, hm⟩, guarded_none, if_neg (by simp [hlenset])]

/-- Settles O18: at power-on MODE is UNINIT, where every such command is refused as CV1. -/
theorem powerOn : Obligations.PowerOn := by
  refine ⟨rfl, rfl, fun i hi => ?_⟩
  obtain ⟨huninit, -⟩ := wrongModeCommandsRefused State.reset i rfl
  exact huninit rfl hi

/-! ## A command from a device during its event -/

theorem complete_of_reentrant (e : Bool) {s : State} (hlen : s.length.toNat ≤ s.cfg.lineMax.toNat + 1)
    (hre : sinkReenters s = true) : complete e s = .refused .reentrantCommand := by
  rw [complete_eq, if_pos hlen, if_pos hre]

theorem render_of_reentrant (ty : Byte) (a16 : Half) {bytes : List Byte} {s : State}
    (hlen : bytes.length ≤ renderMax s.cfg) (hre : flushReenters s = true) :
    render ty a16 bytes s = .refused .reentrantCommand := by
  rw [render, if_pos hlen, flushReenters_openFlushEvent, if_pos hre]

/-! ### From the sink -/

/-- `:` with a line in progress and STRICT_TRUNCATION (40_decoder.md rule R78). -/
theorem onStart_truncates {s : State} (hr : s.rstate ≠ .waitForStart) (hstrict : s.cfg.strictTruncation = true) :
    onStart s = andThen (complete true s) fun u => .next (restartLine u) :=
  if_pos (by simp [hr, hstrict])

/-- A line of more than LINE_MAX data bytes is delivered at its LEN byte; the rest of its digits are read after that. -/
theorem readText_lineText_overlong {s : State} (h : ReadReady s)
    (hr : s.rstate = .waitForStart ∨ s.cfg.strictTruncation = false) (rt : RecordType) (addr : Half) {data : List Byte}
    (cks : Byte) (hmax : s.cfg.lineMax.toNat < data.length) (hbyte : data.length ≤ 255) :
    readText (lineText rt.typeByte addr data cks) s =
      andThen (complete true (overlongLenRead (BitVec.ofNat 8 data.length) (restartLine s)))
        (readText ((halfBytes addr).flatMap hex2 ++ (hex2 rt.typeByte ++ (data ++ [cks]).flatMap hex2))) := by
  have hlen : s.cfg.lineMax.toNat < (BitVec.ofNat 8 data.length).toNat := by rwa [toNat_lenByte hbyte]
  rw [lineText, readText, execReadByte_start h hr, andThen_next, flatMap_hex2_recordBytes,
    readText_overlongLen (s := restartLine s) h rfl hlen]

section Reading

variable {s : State} (hi : Inv s) (hm : s.mode = .read) (hre : sinkReenters s = true)
include hi hm hre

theorem onTerm_of_reentrant (hr : s.rstate ≠ .waitForStart) : onTerm s = .refused .reentrantCommand := by
  rw [onTerm_inProgress hr, complete_of_reentrant true (length_le_of_inv hi hm) hre]

theorem exec_start_of_reentrant (hr : s.rstate ≠ .waitForStart) (hstrict : s.cfg.strictTruncation = true) :
    exec (.readByte 0x3A) s = .refused .reentrantCommand := by
  have hstart : exec (.readByte 0x3A) s = onStart s := exec_readByte (readReady_of_inv hi hm) 0x3A
  rw [hstart, onStart_truncates hr hstrict, complete_of_reentrant true (length_le_of_inv hi hm) hre, andThen_refused]

theorem countLow_of_reentrant {v : Nybble} (hover : s.cfg.lineMax.toNat < (wireByte v s).toNat) :
    countLow v s = .refused .reentrantCommand := by
  have hfits := length_le_of_inv hi hm
  rw [countLow_eq, if_pos hover]
  exact complete_of_reentrant (s := countByteTaken v s) true hfits hre

theorem dataLow_of_reentrant (v : Nybble) (hlast : s.length = s.lineLength) :
    dataLow v s = .refused .reentrantCommand := by
  have hfits := length_le_of_inv hi hm
  obtain ⟨-, hmax⟩ := hi.readLength hm
  rw [dataLow_eq, if_pos hmax, if_neg (by simp [hlast])]
  exact complete_of_reentrant (s := dataByteTaken v s) _ hfits hre

/-- Every record line opens a SinkEvent: at its `:` where that truncates a line, at its LEN byte where that is above LINE_MAX, and at its
CHECKSUM byte otherwise. -/
theorem exec_recordInstr_of_reentrant (rt : RecordType) (addr : Half) {data : List Byte} (cks : Byte)
    (hbyte : data.length ≤ 255) : exec (recordInstr rt addr data cks) s = .refused .reentrantCommand := by
  have h := readReady_of_inv hi hm
  rw [exec_recordInstr]
  by_cases htrunc : s.rstate ≠ .waitForStart ∧ s.cfg.strictTruncation = true
  · obtain ⟨hr, hstrict⟩ := htrunc
    have hstart : execReadByte 0x3A s = .refused .reentrantCommand := exec_start_of_reentrant hi hm hre hr hstrict
    rw [lineText, readText, hstart, andThen_refused]
  · have hr : s.rstate = .waitForStart ∨ s.cfg.strictTruncation = false :=
      (not_and_or.1 htrunc).imp not_not.1 Bool.eq_false_of_not_eq_true
    rcases Nat.lt_or_ge s.cfg.lineMax.toNat data.length with hmax | hmax
    · rw [readText_lineText_overlong h hr rt addr cks hmax hbyte,
        complete_of_reentrant (s := overlongLenRead _ (restartLine s)) true (Nat.zero_le _) hre, andThen_refused]
    · have hlen : (lineRead rt addr data cks s).length.toNat ≤ s.cfg.lineMax.toNat + 1 := by
        simp only [lineRead_fields, toNat_lenByte hbyte]
        omega
      rw [readText_lineText h hr rt addr cks hmax]
      exact complete_of_reentrant _ hlen hre

end Reading

/-! ### From the flush device -/

theorem emitElaIfNeeded_of_reentrant {s : State} (hmix : ¬FlushMixes s) (hre : flushReenters s = true) :
    emitElaIfNeeded s = if s.ovfPending then .refused .reentrantCommand else .next s := by
  rw [emitElaIfNeeded]
  split
  · next hovf =>
    have hseg : ¬s.segUsed = true := fun hseg => hmix ⟨ovfPending_eq_true.1 hovf, hseg⟩
    rw [if_neg hseg, render_of_reentrant _ _ (length_halfBytes_le _ _) hre, andThen_refused]
  · rfl

/-- FlushLine's first record, the extended-address record or the DATA record, is interrupted. -/
theorem flushLine_of_reentrant {s : State} (hlen : s.length.toNat ≤ s.cfg.lineMax.toNat) (hmix : ¬FlushMixes s)
    (hre : flushReenters s = true) : flushLine s = .refused .reentrantCommand := by
  have hbytes : s.pending.length ≤ renderMax s.cfg := (length_pending s).trans_le (le_max_of_le_left hlen)
  rw [flushLine, if_pos (Nat.le_succ_of_le hlen), emitElaIfNeeded_of_reentrant hmix hre]
  split
  · rfl
  · rw [andThen_next, render_of_reentrant _ _ hbytes hre, andThen_refused]

theorem flushPending_of_reentrant {s : State} (hlen : s.length.toNat ≤ s.cfg.lineMax.toNat) (hne : s.length ≠ 0)
    (hmix : ¬FlushMixes s) (hre : flushReenters s = true) : flushPending s = .refused .reentrantCommand := by
  rw [flushPending, if_neg hne, flushLine_of_reentrant hlen hmix hre]

theorem flushPending_of_empty {s : State} (h : s.length = 0) : flushPending s = .next s := if_pos h

theorem changeSegment_of_reentrant {sg : Half} {s : State} (hne : sg ≠ s.segment) (hre : flushReenters s = true) :
    changeSegment sg s = .refused .reentrantCommand := by
  rw [changeSegment, if_neg hne, render_of_reentrant _ _ (length_halfBytes_le _ _) hre, andThen_refused]

section Writing

variable {s : State} (hi : Inv s) (hm : s.mode = .write) (hre : flushReenters s = true)
include hi hm hre

theorem execWriteByte_of_reentrant (d : Byte) (hfull : s.length + 1 = s.lineLength) (hmix : ¬FlushMixes s) :
    execWriteByte d s = .refused .reentrantCommand := by
  obtain ⟨-, hmax, -⟩ := hi.writeLength hm
  rw [execWriteByte_of_inv hi hm, if_pos hfull]
  exact flushLine_of_reentrant (s := byteAppended d s) ((length_byteAppended_le hi hm d).trans hmax) hmix hre

theorem execWriteAtAddress_of_reentrant (a : Addr) (hne : s.length ≠ 0) (hmix : ¬FlushMixes s) :
    execWriteAtAddress a s = .refused .reentrantCommand := by
  rw [execWriteAtAddress_of_inv hi hm, flushPending_of_reentrant (length_le_lineMax hi hm) hne hmix hre, andThen_refused]

theorem execWriteAtSegment_of_reentrant_flush (sg : Half) (a : Addr) (hne : s.length ≠ 0) (hmix : ¬FlushMixes s) :
    execWriteAtSegment sg a s = .refused .reentrantCommand := by
  rw [execWriteAtSegment, writeCheck_eq_none.2 (writeReady_of_inv hi hm), guarded_none,
    flushPending_of_reentrant (length_le_lineMax hi hm) hne hmix hre, andThen_refused]

theorem execWriteAtSegment_of_reentrant_change {sg : Half} (a : Addr) (hempty : s.length = 0) (hela : s.elaUsed = false)
    (hne : sg ≠ s.segment) : execWriteAtSegment sg a s = .refused .reentrantCommand := by
  rw [execWriteAtSegment_of_flushed sg a (writeReady_of_inv hi hm) (flushPending_of_empty hempty),
    if_neg (by simp [hela]), changeSegment_of_reentrant hne hre, andThen_refused]

/-- END_WRITE's first record, one of its flush or the END_OF_FILE record, is interrupted. -/
theorem execEndWrite_of_reentrant (hmix : s.length = 0 ∨ ¬FlushMixes s) :
    execEndWrite s = .refused .reentrantCommand := by
  rw [execEndWrite, writeCheck_eq_none.2 (writeReady_of_inv hi hm), guarded_none]
  by_cases hempty : s.length = 0
  · rw [flushPending_of_empty hempty, andThen_next, render_of_reentrant _ _ (Nat.zero_le _) hre, andThen_refused]
  · rw [flushPending_of_reentrant (length_le_lineMax hi hm) hempty (hmix.resolve_left hempty) hre, andThen_refused]

end Writing

/-- Settles O6: Complete and Render are refused where their device issues a command, and each command named comes to one of them before
anything else stops it. -/
theorem deviceCommandEndsTheCommand : Obligations.DeviceCommandEndsTheCommand := by
  refine ⟨fun e s hlen hre => complete_of_reentrant e hlen hre,
    fun ty a16 bytes s hlen hre => render_of_reentrant ty a16 (le_max_iff.2 hlen) hre,
    fun s hi hm hre => ?_, fun s hi hm hre => ?_⟩
  · have h := readReady_of_inv hi hm
    refine ⟨fun hr => ?_, fun c hr hc => ?_, exec_start_of_reentrant hi hm hre, fun c hr hc hover => ?_,
      fun c hr hc hlast => ?_, fun rt addr _ cks => exec_recordInstr_of_reentrant hi hm hre rt addr cks⟩
    · rw [exec_endRead h, onTerm_of_reentrant hi hm hre hr]
    · rw [exec_readByte_term h (charClass_terminator hc), onTerm_of_reentrant hi hm hre hr]
    · rw [exec_readByte_hex h hc, onHex, hr]
      exact countLow_of_reentrant hi hm hre hover
    · rw [exec_readByte_hex h hc, onHex, hr]
      exact dataLow_of_reentrant hi hm hre (hexval c) hlast
  · exact ⟨execWriteByte_of_reentrant hi hm hre, execWriteAtAddress_of_reentrant hi hm hre,
      execWriteAtSegment_of_reentrant_flush hi hm hre, fun _ => execWriteAtSegment_of_reentrant_change hi hm hre,
      execEndWrite_of_reentrant hi hm hre⟩

end Sys2Proof.Proofs.Exceptions
end

section
/-! The family of 70_reset_and_hazards.md: every command while an event is open, and what a BEGIN_* command leaves of the registers
before it. -/

namespace Sys2Proof.Proofs.ResetAndHazards

open Sys2Proof Sys2Proof.Machine Sys2Proof.Proofs.CodecState Sys2Proof.Proofs.Exceptions

/-! ## The BEGIN_* commands -/

/-- A command that is neither a read-mode nor a write-mode one is a BEGIN_* (60_exceptions.md rule R107). -/
theorem begin_cases {i : Instr} (hr : isReadCommand i = false) (hw : isWriteCommand i = false) :
    i = .beginRead ∨ (∃ a, i = .beginReadAtAddress a) ∨ (∃ sg, i = .beginReadAtSegment sg) ∨ i = .beginWrite := by
  cases i with
  | beginRead => exact .inl rfl
  | beginReadAtAddress a => exact .inr (.inl ⟨a, rfl⟩)
  | beginReadAtSegment sg => exact .inr (.inr (.inl ⟨sg, rfl⟩))
  | beginWrite => exact .inr (.inr (.inr rfl))
  | writeAtAddress a => cases hw
  | writeAtSegment sg a => cases hw
  | writeByte d => cases hw
  | setOutputLineLength n => cases hw
  | endWrite => cases hw
  | _ => cases hr

/-- What a BEGIN_* command writes past its check (40_decoder.md rules R74 to R76, 41_encoder.md rule R98). No other command begins a
stream. -/
def begun (i : Instr) (s : State) : State :=
  match i with
  | .beginRead => beginReadState s
  | .beginReadAtAddress a => { beginReadState s with address := a }
  | .beginReadAtSegment sg => { beginReadState s with segment := sg }
  | .beginWrite => beginWriteState s
  | _ => s

theorem exec_begin_guarded {i : Instr} (hr : isReadCommand i = false) (hw : isWriteCommand i = false) (s : State) :
    exec i s = guarded (beginCheck s) (.next (begun i s)) := by
  obtain rfl | ⟨a, rfl⟩ | ⟨sg, rfl⟩ | rfl := begin_cases hr hw <;> rfl

/-! ## While an event is open -/

section EventOpen

variable {s : State} (hopen : s.evtOpen = true)
include hopen

theorem beginCheck_of_open : beginCheck s = some .reentrantCommand := if_pos hopen

theorem readCheck_of_open : readCheck s = some .reentrantCommand := if_pos hopen

theorem writeCheck_of_open : writeCheck s = some .reentrantCommand := if_pos hopen

theorem exec_of_open (i : Instr) : exec i s = .refused .reentrantCommand := by
  cases hr : isReadCommand i with
  | true => exact exec_readCommand_refused hr (readCheck_of_open hopen)
  | false =>
    cases hw : isWriteCommand i with
    | true => exact exec_writeCommand_refused hw (writeCheck_of_open hopen)
    | false => rw [exec_begin_guarded hr hw, beginCheck_of_open hopen, guarded_some]

theorem fetch_word_of_open {w : CmdWord} {rest : List HostInput} (hin : s.input = .word w :: rest) :
    fetch s = .refuse .reentrantCommand :=
  (Scope.fetch_word hin).trans (if_pos hopen)

end EventOpen

/-- Settles O5: each command is behind one of three checks, which ask for EVT_OPEN first, and so does the fetch of a word before it
decodes. -/
theorem openEventRefusesCommands : Obligations.OpenEventRefusesCommands := by
  refine ⟨fun s i hopen => exec_of_open hopen i, fun s w rest hopen hin => ?_⟩
  rw [step, fetch_word_of_open hopen hin]

/-! ## What a BEGIN_* command forgets -/

theorem exec_begin_of_closed {i : Instr} {s : State} (hr : isReadCommand i = false) (hw : isWriteCommand i = false)
    (hclosed : s.evtOpen = false) : exec i s = .next (begun i s) := by
  rw [exec_begin_guarded hr hw, beginCheck_eq_none.2 hclosed, guarded_none]

theorem length_begun {i : Instr} (hr : isReadCommand i = false) (hw : isWriteCommand i = false) (s : State) :
    (begun i s).length = 0 := by
  obtain rfl | ⟨a, rfl⟩ | ⟨sg, rfl⟩ | rfl := begin_cases hr hw <;> rfl

theorem memories_begun {i : Instr} (hr : isReadCommand i = false) (hw : isWriteCommand i = false) (s : State) :
    (begun i s).data = s.data ∧ (begun i s).scratch = s.scratch := by
  obtain rfl | ⟨a, rfl⟩ | ⟨sg, rfl⟩ | rfl := begin_cases hr hw <;> exact ⟨rfl, rfl⟩

/-- What a BEGIN_* command does not write, beside the two memories: EVT_OPEN, the parameters, the ports and the events. -/
def surroundings (s : State) :=
  (s.evtOpen, s.cfg, s.input, s.sinkInputs, s.sinkDraws, s.flushInputs, s.events)

theorem beginReadState_forgets {s s' : State} (h : surroundings s = surroundings s') :
    beginReadState s' = withMemories s'.data s'.scratch (beginReadState s) := by
  simp only [surroundings, Prod.mk.injEq] at h
  simp only [beginReadState, withMemories, h]

theorem beginWriteState_forgets {s s' : State} (h : surroundings s = surroundings s') :
    beginWriteState s' = withMemories s'.data s'.scratch (beginWriteState s) := by
  simp only [surroundings, Prod.mk.injEq] at h
  simp only [beginWriteState, withMemories, h]

/-- 70_reset_and_hazards.md rule R122: of the registers only the two memories are left; an operand goes over one just cleared. -/
theorem begun_forgets {i : Instr} {s s' : State} (hr : isReadCommand i = false) (hw : isWriteCommand i = false)
    (h : surroundings s = surroundings s') : begun i s' = withMemories s'.data s'.scratch (begun i s) := by
  obtain rfl | ⟨a, rfl⟩ | ⟨sg, rfl⟩ | rfl := begin_cases hr hw
  · exact beginReadState_forgets h
  · exact congrArg (fun u : State => { u with address := a }) (beginReadState_forgets h)
  · exact congrArg (fun u : State => { u with segment := sg }) (beginReadState_forgets h)
  · exact beginWriteState_forgets h

/-- Settles O21: the two next states are one state with two pairs of memories, and with LENGTH = 0 no byte of DATA is specified. -/
theorem beginForgetsRegisters : Obligations.BeginForgetsRegisters := by
  intro i s s' hr hw hclosed hclosed' hcfg hinput hsink hdraws hflush hevents
  have hsame : surroundings s = surroundings s' := by
    simp only [surroundings, hclosed, hclosed', hcfg, hinput, hsink, hdraws, hflush, hevents]
  have hdata : SameData (begun i s) s'.data := by simp [SameData, length_begun hr hw s]
  exact ⟨begun i s, begun i s', exec_begin_of_closed hr hw hclosed, exec_begin_of_closed hr hw hclosed',
    sameButUnspecified_iff.2 ⟨s'.data, s'.scratch, begun_forgets hr hw hsame, hdata⟩, memories_begun hr hw s⟩

end Sys2Proof.Proofs.ResetAndHazards
end

section
/-! What the model chooses where the spec leaves it open: the canonical form of the memories, the record that SCRATCH has no room for, and
SCRATCH after a FlushEvent (notes/assumptions/3.md, 11.md, 20.md). -/

namespace Sys2Proof.Proofs.ModelChoices

open Sys2Proof Sys2Proof.Machine Sys2Proof.Proofs.CodecState Sys2Proof.Proofs.Encoder

/-! ## The canonical form of the memories -/

/-- A canonical memory lists exactly the cells whose byte it reads and whose byte is not what an unlisted index reads as. -/
theorem mem_iff_read {m : Memory} (hm : m.wf) (i : Nat) (b : Byte) : (i, b) ∈ m ↔ m.read i = b ∧ b ≠ 0 := by
  induction m with
  | nil => exact ⟨fun h => absurd h List.not_mem_nil, fun ⟨hzero, hne⟩ => absurd hzero.symm hne⟩
  | cons c m ih =>
    obtain ⟨j, x⟩ := c
    have hx : x ≠ 0 := hm.2 (j, x) List.mem_cons_self
    have hj : ∀ c ∈ m, j < c.1 := (List.pairwise_cons.1 hm.1).1
    rw [List.mem_cons, Memory.read_cons, Prod.mk.injEq]
    by_cases hi : i = j
    · subst hi
      have hunlisted : (i, b) ∉ m := fun h => Nat.lt_irrefl i (hj _ h)
      simp only [true_and, hunlisted, or_false, if_true]
      exact ⟨fun h => ⟨h.symm, h ▸ hx⟩, fun h => h.1.symm⟩
    · simp [hi, ih (Memory.wf_tail hm)]

/-- A canonical memory lists its cells in one order only. -/
theorem eq_of_mem_iff {m m' : Memory} (hm : m.wf) (hm' : m'.wf) (h : ∀ c, c ∈ m ↔ c ∈ m') : m = m' := by
  have hirrefl : Std.Irrefl fun a b : Host.Cell => a.1 < b.1 := ⟨fun _ => Nat.lt_irrefl _⟩
  have hantisymm : Std.Antisymm fun a b : Host.Cell => a.1 < b.1 := ⟨fun _ _ hlt hgt => absurd hlt hgt.not_gt⟩
  exact hm.1.eq_of_mem_iff hm'.1 h

/-- Settles O56: what a canonical memory reads decides which cells it lists, and these decide the list. -/
theorem canonicalMemoriesEqual : Obligations.CanonicalMemoriesEqual := by
  intro m m' hm hm' hread
  exact eq_of_mem_iff hm hm' fun (i, b) => by rw [mem_iff_read hm, mem_iff_read hm', hread]

/-! ## SCRATCH after a FlushEvent -/

/-- Settles O38: Render takes two bytes for every LINE_MAX, and SCRATCH takes of the line what it has room for. -/
theorem extendedRecordRenders : Obligations.ExtendedRecordRenders := by
  intro ty h s hi hquiet
  refine ⟨render_eq_emitted_of_quiet hi.scratchWf hquiet ty 0x0000 (length_halfBytes_le h s.cfg), rfl, ?_⟩
  exact below_keptByLines s.cfg s.scratch (renderedLine s.cfg ty 0x0000 (halfBytes h)) hi.scratchBelow

/-- Settles O57: the line fits SCRATCH, which takes the whole of it from index 0 on and nothing beyond it. -/
theorem scratchKeepsLine : Obligations.ScratchKeepsLine := by
  intro ty a16 bytes s hi hquiet hlen
  have hscratch : (emitted ty a16 bytes s).scratch = s.scratch.writeFrom 0 (renderedLine s.cfg ty a16 bytes) :=
    congrArg _ (scratchPart_of_le (length_renderedLine_le ty a16 hlen))
  refine ⟨render_eq_emitted_of_quiet hi.scratchWf hquiet ty a16 (le_max_of_le_left hlen), ?_, fun k hk => ?_⟩
  · rw [hscratch, Memory.readTo_writeFrom _ _ hi.scratchWf]
  · rw [hscratch, Memory.read_writeFrom _ _ hi.scratchWf, if_neg (by omega)]

end Sys2Proof.Proofs.ModelChoices
end
